-- ==== Sys2Proof/Word.lean ====
section
/-! DEFINITION. The unit's values of fixed width (00_scope.md R10) and byte sequences (R11). -/

namespace Sys2Proof

/-- `u8` of R10. -/
abbrev Byte := BitVec 8

/-- A finite sequence of bytes, index 0 first (R11). -/
abbrev Bytes := List Byte

/-- `u6`, the width of a fragment id (R28). -/
abbrev U6 := BitVec 6

/-- `u16` of R10. -/
abbrev U16 := BitVec 16

/-- `u24` of R10. -/
abbrev U24 := BitVec 24

/-- `u32` of R10. -/
abbrev U32 := BitVec 32

/-- `s24` of R10 as its 24 two's complement bits. `Machine.sext32` reads its sign. -/
abbrev S24 := BitVec 24

/-- `NUM_CHANNELS` of R7: one reassembly slot per 8-bit channel key (R24). -/
abbrev numChannels : Nat := 256

end Sys2Proof
end

