-- ==== Sys2Proof/Syntax.lean ====
section
/-! DEFINITION. Operand value types (10_state.md) and the command set: one constructor of `Instr` for each row of
spec/opcode_table.json, with the operands 30_encoding.md R61 gives it. -/

namespace Sys2Proof

/-- A station address (R23). The port carries `ssid` as a u8 and a callsign of any length, so that the range checks of
the rules can be exercised (R75). -/
structure StationAddress where
  callsign : Bytes
  ssid     : Byte
  cr1      : Bool
  cr2      : Bool
  cr3      : Bool
deriving DecidableEq, Repr

/-- The capture timestamp of a frame: the OPEN type `Time` (R7, R27), an opaque token that is passed through
(log entry 6). -/
structure Time where
  token : Nat
deriving DecidableEq, Repr

/-- A fragment's region id: the OPEN type `Region` (R7, R28), an opaque token that is stored and never compared
(log entry 6). -/
structure Region where
  token : Nat
deriving DecidableEq, Repr

/-- The two frame forms (R27). -/
inductive FrameFormat where
  | standard
  | shortForm
deriving DecidableEq, Repr

/-- FRAG_PUSH's operand (R28). -/
structure Fragment where
  isFinal    : Bool
  fragmentId : U6
  data       : Bytes
  channelId  : Byte
  regionId   : Region
deriving DecidableEq, Repr

/-- The two geo forms (R61, R229). -/
inductive GeoForm where
  | compact
  | posrep
deriving DecidableEq, Repr

/-- A geo value `(raw, div)`, standing for the rational `raw / div` (R30). -/
structure GeoValue where
  raw : S24
  div : Nat
deriving DecidableEq, Repr

/-- The six record types (R29), in the order of their record ids (R62). -/
inductive RecordKind where
  | capability
  | status
  | channel
  | globalSettings
  | beacon
  | gps
deriving DecidableEq, Repr

/-- The value of one record field (R29). -/
inductive FieldValue where
  | bool (b : Bool)
  | uint (n : Nat)
  | str  (b : Bytes)
  | geo  (g : GeoValue)
deriving DecidableEq, Repr

/-- A finite map from field names to values (R29), as a list of pairs read by `List.lookup` (log entry 11). -/
abbrev RecordMap := List (String × FieldValue)

/-- A record value: its type and its fields (R29, R228). -/
structure DeviceRecord where
  kind   : RecordKind
  fields : RecordMap
deriving DecidableEq, Repr

/-- The commands (R61). -/
inductive Instr where
  | addrDec (data : Bytes) (offset : Nat)
  | addrEnc (addr : StationAddress) (last : Bool)
  | addrParse (text : Bytes)
  | addrFmt (addr : StationAddress)
  | addrSame (a b : StationAddress)
  | frmDec (data : Bytes) (time : Time)
  | frmEnc (format : FrameFormat) (addresses : List StationAddress) (control protocolId : Byte) (payload : Bytes)
  | fragDec (data : Bytes)
  | fragEnc (isFinal : Bool) (fragmentId : Byte) (data : Bytes) (channelId : Option Byte)
  | fragPush (frag : Fragment)
  | rd16 (data : Bytes) (offset : Nat)
  | rd24 (data : Bytes) (offset : Nat)
  | rd32 (data : Bytes) (offset : Nat)
  | wr16 (data : Bytes) (offset : Nat) (value : U32)
  | wr24 (data : Bytes) (offset : Nat) (value : U32)
  | wr32 (data : Bytes) (offset : Nat) (value : U32)
  | recDecCap (data : Bytes)
  | recDecStatus (data : Bytes)
  | recDecChan (data : Bytes)
  | recDecGlobal (data : Bytes)
  | recDecBss (data : Bytes)
  | recDecGps (data : Bytes)
  | recEncChan (fields : RecordMap)
  | recEncGlobal (fields : RecordMap)
  | recEncBss (fields : RecordMap)
  | geoDec (data : Bytes) (form : GeoForm)
  | geoEnc (lat lon : Rat) (form : GeoForm)
deriving DecidableEq, Repr

/-- An operand record as the command port carries it (R60, R61): typed and not encoded in bits (R75), one constructor
for each shape of R61's table. -/
inductive Operands where
  | none
  | dataOffset (data : Bytes) (offset : Nat)
  | dataOffsetValue (data : Bytes) (offset : Nat) (value : U32)
  | data (data : Bytes)
  | text (text : Bytes)
  | addr (addr : StationAddress)
  | addrLast (addr : StationAddress) (last : Bool)
  | addrPair (a b : StationAddress)
  | dataTime (data : Bytes) (time : Time)
  | frame (format : FrameFormat) (addresses : List StationAddress) (control protocolId : Byte) (payload : Bytes)
  | wireFragment (isFinal : Bool) (fragmentId : Byte) (data : Bytes) (channelId : Option Byte)
  | fragment (frag : Fragment)
  | record (rec : DeviceRecord)
  | dataForm (data : Bytes) (form : GeoForm)
  | latLonForm (lat lon : Rat) (form : GeoForm)
deriving DecidableEq, Repr

/-- A command at the port: an opcode byte with an operand record (R60). -/
structure Command where
  op       : Byte
  operands : Operands
deriving DecidableEq, Repr

/-- What the host can do to the unit from outside: issue a command (R5), or reset it between commands (R271). -/
inductive HostInput where
  | command (c : Command)
  | reset
deriving DecidableEq, Repr

end Sys2Proof
end

