-- ==== Sys2Proof/Decode.lean ====
section
/-! DEFINITION. The command port's decoder and encoder (30_encoding.md R60 to R63). The opcode is one byte and the
operand record is typed (R75), so decoding reads the opcode byte and takes the operands of its row. It is total: every
one of the 256 opcode bytes with every operand record decodes, is reserved, or is ill-typed. -/

namespace Sys2Proof

/-- The 27 operations of the opcode map (R62). -/
inductive Opcode where
  | addrDec | addrEnc | addrParse | addrFmt | addrSame
  | frmDec | frmEnc
  | fragDec | fragEnc | fragPush
  | rd16 | rd24 | rd32 | wr16 | wr24 | wr32
  | recDecCap | recDecStatus | recDecChan | recDecGlobal | recDecBss | recDecGps
  | recEncChan | recEncGlobal | recEncBss
  | geoDec | geoEnc
deriving DecidableEq, Repr

/-- The opcode map (R61, R62), group by group: `op[7:4]` is the group and `op[3:0]` the function. -/
def opcodeTable : List (Byte × Opcode) :=
  [ (0x01, .addrDec), (0x02, .addrEnc), (0x03, .addrParse), (0x04, .addrFmt), (0x05, .addrSame),
    (0x10, .frmDec), (0x11, .frmEnc),
    (0x20, .fragDec), (0x21, .fragEnc), (0x22, .fragPush),
    (0x30, .rd16), (0x31, .rd24), (0x32, .rd32), (0x34, .wr16), (0x35, .wr24), (0x36, .wr32),
    (0x40, .recDecCap), (0x41, .recDecStatus), (0x42, .recDecChan), (0x43, .recDecGlobal), (0x44, .recDecBss),
    (0x45, .recDecGps),
    (0x52, .recEncChan), (0x53, .recEncGlobal), (0x54, .recEncBss),
    (0x60, .geoDec), (0x61, .geoEnc)]

/-- Reading the opcode byte (R60). `none` is a reserved byte (R63). -/
def Opcode.ofByte (op : Byte) : Option Opcode := opcodeTable.lookup op

/-- The opcode byte of an operation, from the table of R61. -/
def Opcode.toByte : Opcode → Byte
  | .addrDec => 0x01
  | .addrEnc => 0x02
  | .addrParse => 0x03
  | .addrFmt => 0x04
  | .addrSame => 0x05
  | .frmDec => 0x10
  | .frmEnc => 0x11
  | .fragDec => 0x20
  | .fragEnc => 0x21
  | .fragPush => 0x22
  | .rd16 => 0x30
  | .rd24 => 0x31
  | .rd32 => 0x32
  | .wr16 => 0x34
  | .wr24 => 0x35
  | .wr32 => 0x36
  | .recDecCap => 0x40
  | .recDecStatus => 0x41
  | .recDecChan => 0x42
  | .recDecGlobal => 0x43
  | .recDecBss => 0x44
  | .recDecGps => 0x45
  | .recEncChan => 0x52
  | .recEncGlobal => 0x53
  | .recEncBss => 0x54
  | .geoDec => 0x60
  | .geoEnc => 0x61

/-- What the decoder answers. -/
inductive Decoded where
  /-- The command has a rule. -/
  | instr (i : Instr)
  /-- A reserved opcode byte (R63): the step ends it with status IllegalOp. -/
  | reserved
  /-- An operand record of another type than the opcode's (R61, R75): refused by the model (R258). -/
  | illTyped
deriving DecidableEq, Repr

/-- The operands `data, offset` (ADDR_DEC, RD16, RD24, RD32). -/
def withDataOffset (k : Bytes → Nat → Instr) : Operands → Decoded
  | .dataOffset data offset => .instr (k data offset)
  | _ => .illTyped

/-- The operands `data, offset, value` (WR16, WR24, WR32). -/
def withDataOffsetValue (k : Bytes → Nat → U32 → Instr) : Operands → Decoded
  | .dataOffsetValue data offset value => .instr (k data offset value)
  | _ => .illTyped

/-- The operand `data` (FRAG_DEC, REC_DEC.*). -/
def withData (k : Bytes → Instr) : Operands → Decoded
  | .data data => .instr (k data)
  | _ => .illTyped

/-- The operand `rec`, which must be of the record type the opcode names (REC_ENC.*). -/
def withRecord (kind : RecordKind) (k : RecordMap → Instr) : Operands → Decoded
  | .record rec => if rec.kind = kind then .instr (k rec.fields) else .illTyped
  | _ => .illTyped

/-- The operands `addr, last` (ADDR_ENC). -/
def withAddrLast (k : StationAddress → Bool → Instr) : Operands → Decoded
  | .addrLast addr last => .instr (k addr last)
  | _ => .illTyped

/-- The operand `text` (ADDR_PARSE). -/
def withText (k : Bytes → Instr) : Operands → Decoded
  | .text text => .instr (k text)
  | _ => .illTyped

/-- The operand `addr` (ADDR_FMT). -/
def withAddr (k : StationAddress → Instr) : Operands → Decoded
  | .addr addr => .instr (k addr)
  | _ => .illTyped

/-- The operands `a, b` (ADDR_SAME). -/
def withAddrPair (k : StationAddress → StationAddress → Instr) : Operands → Decoded
  | .addrPair a b => .instr (k a b)
  | _ => .illTyped

/-- The operands `data, time` (FRM_DEC). -/
def withDataTime (k : Bytes → Time → Instr) : Operands → Decoded
  | .dataTime data time => .instr (k data time)
  | _ => .illTyped

/-- The operands of FRM_ENC. -/
def withFrame (k : FrameFormat → List StationAddress → Byte → Byte → Bytes → Instr) : Operands → Decoded
  | .frame format addresses control protocolId payload => .instr (k format addresses control protocolId payload)
  | _ => .illTyped

/-- The operands of FRAG_ENC. -/
def withWireFragment (k : Bool → Byte → Bytes → Option Byte → Instr) : Operands → Decoded
  | .wireFragment isFinal fragmentId data channelId => .instr (k isFinal fragmentId data channelId)
  | _ => .illTyped

/-- The operand `frag` (FRAG_PUSH). -/
def withFragment (k : Fragment → Instr) : Operands → Decoded
  | .fragment frag => .instr (k frag)
  | _ => .illTyped

/-- The operands `data, form` (GEO_DEC). -/
def withDataForm (k : Bytes → GeoForm → Instr) : Operands → Decoded
  | .dataForm data form => .instr (k data form)
  | _ => .illTyped

/-- The operands `lat, lon, form` (GEO_ENC). -/
def withLatLonForm (k : Rat → Rat → GeoForm → Instr) : Operands → Decoded
  | .latLonForm lat lon form => .instr (k lat lon form)
  | _ => .illTyped

/-- Taking the operand record an operation asks for (R61). -/
def assemble : Opcode → Operands → Decoded
  | .addrDec, o => withDataOffset .addrDec o
  | .addrEnc, o => withAddrLast .addrEnc o
  | .addrParse, o => withText .addrParse o
  | .addrFmt, o => withAddr .addrFmt o
  | .addrSame, o => withAddrPair .addrSame o
  | .frmDec, o => withDataTime .frmDec o
  | .frmEnc, o => withFrame .frmEnc o
  | .fragDec, o => withData .fragDec o
  | .fragEnc, o => withWireFragment .fragEnc o
  | .fragPush, o => withFragment .fragPush o
  | .rd16, o => withDataOffset .rd16 o
  | .rd24, o => withDataOffset .rd24 o
  | .rd32, o => withDataOffset .rd32 o
  | .wr16, o => withDataOffsetValue .wr16 o
  | .wr24, o => withDataOffsetValue .wr24 o
  | .wr32, o => withDataOffsetValue .wr32 o
  | .recDecCap, o => withData .recDecCap o
  | .recDecStatus, o => withData .recDecStatus o
  | .recDecChan, o => withData .recDecChan o
  | .recDecGlobal, o => withData .recDecGlobal o
  | .recDecBss, o => withData .recDecBss o
  | .recDecGps, o => withData .recDecGps o
  | .recEncChan, o => withRecord .channel .recEncChan o
  | .recEncGlobal, o => withRecord .globalSettings .recEncGlobal o
  | .recEncBss, o => withRecord .beacon .recEncBss o
  | .geoDec, o => withDataForm .geoDec o
  | .geoEnc, o => withLatLonForm .geoEnc o

/-- The decoder. A reserved opcode byte is decided before any operand is looked at (R63, R253). -/
def decode (c : Command) : Decoded :=
  match Opcode.ofByte c.op with
  | none => .reserved
  | some op => assemble op c.operands

/-- A command of an operation with its operand record. -/
def commandOf (op : Opcode) (o : Operands) : Command := { op := op.toByte, operands := o }

/-- The encoder: the command that stands for an instruction, from the rows of R61. -/
def encode : Instr → Command
  | .addrDec data offset => commandOf .addrDec (.dataOffset data offset)
  | .addrEnc addr last => commandOf .addrEnc (.addrLast addr last)
  | .addrParse text => commandOf .addrParse (.text text)
  | .addrFmt addr => commandOf .addrFmt (.addr addr)
  | .addrSame a b => commandOf .addrSame (.addrPair a b)
  | .frmDec data time => commandOf .frmDec (.dataTime data time)
  | .frmEnc format addresses control protocolId payload =>
      commandOf .frmEnc (.frame format addresses control protocolId payload)
  | .fragDec data => commandOf .fragDec (.data data)
  | .fragEnc isFinal fragmentId data channelId =>
      commandOf .fragEnc (.wireFragment isFinal fragmentId data channelId)
  | .fragPush frag => commandOf .fragPush (.fragment frag)
  | .rd16 data offset => commandOf .rd16 (.dataOffset data offset)
  | .rd24 data offset => commandOf .rd24 (.dataOffset data offset)
  | .rd32 data offset => commandOf .rd32 (.dataOffset data offset)
  | .wr16 data offset value => commandOf .wr16 (.dataOffsetValue data offset value)
  | .wr24 data offset value => commandOf .wr24 (.dataOffsetValue data offset value)
  | .wr32 data offset value => commandOf .wr32 (.dataOffsetValue data offset value)
  | .recDecCap data => commandOf .recDecCap (.data data)
  | .recDecStatus data => commandOf .recDecStatus (.data data)
  | .recDecChan data => commandOf .recDecChan (.data data)
  | .recDecGlobal data => commandOf .recDecGlobal (.data data)
  | .recDecBss data => commandOf .recDecBss (.data data)
  | .recDecGps data => commandOf .recDecGps (.data data)
  | .recEncChan fields => commandOf .recEncChan (.record { kind := .channel, fields := fields })
  | .recEncGlobal fields => commandOf .recEncGlobal (.record { kind := .globalSettings, fields := fields })
  | .recEncBss fields => commandOf .recEncBss (.record { kind := .beacon, fields := fields })
  | .geoDec data form => commandOf .geoDec (.dataForm data form)
  | .geoEnc lat lon form => commandOf .geoEnc (.latLonForm lat lon form)

/-- The address whose every field is zero or empty. -/
def zeroAddress : StationAddress := { callsign := [], ssid := 0, cr1 := false, cr2 := false, cr3 := false }

/-- The operand record whose every field is zero or empty. The table gives operands no bits (R75), so this is the
record of "operand words of zeros" (log entry 8). -/
def zeroOperands : Opcode → Operands
  | .addrDec | .rd16 | .rd24 | .rd32 => .dataOffset [] 0
  | .wr16 | .wr24 | .wr32 => .dataOffsetValue [] 0 0
  | .fragDec | .recDecCap | .recDecStatus | .recDecChan | .recDecGlobal | .recDecBss | .recDecGps => .data []
  | .addrEnc => .addrLast zeroAddress false
  | .addrParse => .text []
  | .addrFmt => .addr zeroAddress
  | .addrSame => .addrPair zeroAddress zeroAddress
  | .frmDec => .dataTime [] { token := 0 }
  | .frmEnc => .frame .standard [] 0 0 []
  | .fragEnc => .wireFragment false 0 [] none
  | .fragPush =>
      .fragment { isFinal := false, fragmentId := 0, data := [], channelId := 0, regionId := { token := 0 } }
  | .recEncChan => .record { kind := .channel, fields := [] }
  | .recEncGlobal => .record { kind := .globalSettings, fields := [] }
  | .recEncBss => .record { kind := .beacon, fields := [] }
  | .geoDec => .dataForm [] .compact
  | .geoEnc => .latLonForm 0 0 .compact

/-- The command of an opcode-table word: its first byte is the opcode, and the operands are all zero. -/
def commandOfWord (nbits w : Nat) : Command :=
  let op : Byte := BitVec.ofNat 8 (w % 2 ^ nbits)
  match Opcode.ofByte op with
  | none => { op := op, operands := .none }
  | some code => { op := op, operands := zeroOperands code }

/-- The instruction the decoder reads from an opcode-table word; `none` where it answers none. -/
def decodeTableWord (nbits w : Nat) : Option Instr :=
  match decode (commandOfWord nbits w) with
  | .instr i => some i
  | .reserved => none
  | .illTyped => none

end Sys2Proof
end

