-- ==== Sys2Proof/Machine/Flags.lean ====
section
/-! DEFINITION. The unit has no condition codes and no status register (10_state.md R22), so no command computes a
flag of the machine. What stands here are the flag bits of the two wire headers: the seventh byte of an address field
(30_encoding.md R64, R65) and the header byte of a fragment (R70). -/

namespace Sys2Proof.Machine

/-- A flag as the weight of its bit. -/
def flagBit (b : Bool) (weight : Byte) : Byte := if b then weight else 0

/-- `byte_6` of R65: cr1·0x80 | cr2·0x40 | cr3·0x20 | ssid[3:0]·2 | last. -/
def addressTrailer (a : StationAddress) (last : Bool) : Byte :=
  flagBit a.cr1 0x80 ||| flagBit a.cr2 0x40 ||| flagBit a.cr3 0x20 ||| ((a.ssid &&& 0x0F) <<< 1) ||| flagBit last 0x01

/-- `byte_6[4:1]`, zero-extended (R65). -/
def trailerSsid (b : Byte) : Byte := (b >>> 1) &&& 0x0F

/-- `byte_6[7]` (R65). -/
def trailerCr1 (b : Byte) : Bool := b.getLsbD 7

/-- `byte_6[6]` (R65). -/
def trailerCr2 (b : Byte) : Bool := b.getLsbD 6

/-- `byte_6[5]` (R65). -/
def trailerCr3 (b : Byte) : Bool := b.getLsbD 5

/-- `byte_6[0]`, the chain-continuation terminator (R64). -/
def trailerIsLast (b : Byte) : Bool := b.getLsbD 0

/-- The fragment header byte (R70): is_final·0x80 | has_channel_id·0x40 | fragment_id. -/
def fragmentHeader (isFinal hasChannelId : Bool) (fragmentId : Byte) : Byte :=
  flagBit isFinal 0x80 ||| flagBit hasChannelId 0x40 ||| fragmentId

/-- Header bit 7 (R70). -/
def headerIsFinal (h : Byte) : Bool := h.getLsbD 7

/-- Header bit 6 (R70). -/
def headerHasChannelId (h : Byte) : Bool := h.getLsbD 6

/-- Header bits 5..0 (R70). -/
def headerFragmentId (h : Byte) : U6 := h.setWidth 6

end Sys2Proof.Machine
end

