-- ==== Sys2Proof/Config.lean ====
section
/-! DEFINITION. What the host fixes before use (00_scope.md R7, 70_reset_and_hazards.md R272), the layout descriptor
of a device record (44_records.md R211), and the one free value of the model. -/

namespace Sys2Proof

/-- The padding bytes a string field is trimmed of: a non-empty subset of {0x00, 0x20} (R211). -/
inductive TrimSet where
  | nul
  | space
  | nulSpace
deriving DecidableEq, Repr

/-- The width in bytes of an integer's word, `width : 1..4` (R211). -/
inductive Width where
  | one
  | two
  | three
  | four
deriving DecidableEq, Repr

/-- One field of a layout (R211). `Machine.fieldInside` bounds the numbers (R212). -/
inductive Field where
  /-- A single bit of one byte. -/
  | bool (name : String) (byte : Nat) (bit : Fin 8)
  /-- A big-endian word of `width` bytes at `off`, shifted right by `shift`, then masked. R211 calls the mask
  "right-aligned": DEDUCED (log entry 22), that is taken as "applied after the shift", and every mask R212 allows is a
  mask, one with a hole or with bit 0 clear too. -/
  | uint (name : String) (off : Nat) (width : Width) (shift : Nat) (mask : U32)
  /-- A fixed region of `len` bytes, right-trimmed of the bytes of `trim`. -/
  | str (name : String) (off len : Nat) (trim : TrimSet)
  /-- Three bytes holding a signed 24-bit value with divisor `div`. -/
  | geo (name : String) (off div : Nat)
deriving DecidableEq, Repr

/-- A layout (R211): the minimum length decode requires, the exact encoded length where there is one, and the fields. It
is the form the layout engine works on, and a layout parameter of CHAN, GLOBAL and BSS. -/
structure Layout where
  minLen : Nat
  encLen : Option Nat
  fields : List Field
deriving DecidableEq, Repr

/-- A layout of CAP or STATUS: R211 gives an encoded length to CHAN, GLOBAL and BSS only (log entry 18). -/
structure DecodeLayout where
  minLen : Nat
  fields : List Field
deriving DecidableEq, Repr

/-- The name and the place of a Geo field. -/
structure GeoPlace where
  name : String
  off  : Nat
deriving DecidableEq, Repr

/-- A layout of GPS: latitude and longitude, which R224 makes Geo fields with the divisor 30000, and whatever other fields
there are (log entry 21). It has no encoded length (R211). -/
structure GpsLayout where
  minLen    : Nat
  latitude  : GeoPlace
  longitude : GeoPlace
  others    : List Field
deriving DecidableEq, Repr

/-- `CTRL_EMIT` of R7: which two bytes FRM_ENC emits after a Standard address chain (90_conflicts.md C1). -/
inductive CtrlEmit where
  /-- `[control, protocol_id]`, the spec's value. -/
  | ctrlPid
  /-- `[0x00, control]`, the literal reading. -/
  | ctrl16be
deriving DecidableEq, Repr

/-- The parameters of R7 that are plain data. `none` is "unbounded" for the two bounds, "no value given" for a layout
(R8) and "not chosen" for the host's channel key (R166). DESIGN CHOICE (log entry 3): they are carried in State, where
no step changes them, so that a claim holds for every configuration and a test can fix one. -/
structure Config where
  ctrlEmit       : CtrlEmit
  reasmCapacity  : Option Nat
  maxBufLen      : Option Nat
  layoutCap      : Option DecodeLayout
  layoutStatus   : Option DecodeLayout
  layoutChan     : Option Layout
  layoutGlobal   : Option Layout
  layoutBss      : Option Layout
  layoutGps      : Option GpsLayout
  hostChannelKey : Option Byte
deriving DecidableEq, Repr

/-- The values R7 gives: `CTRL_PID`, both bounds unbounded, no layout (R8: none is guessed, log entry 4), no host key
(log entry 13). -/
def Config.default : Config where
  ctrlEmit       := .ctrlPid
  reasmCapacity  := none
  maxBufLen      := none
  layoutCap      := none
  layoutStatus   := none
  layoutChan     := none
  layoutGlobal   := none
  layoutBss      := none
  layoutGps      := none
  hostChannelKey := none

/-- `GEO_ROUND` of R7 on a rational that is no integer: OPEN, so a free value (log entry 5). On an integer it is the
identity, which `Machine.geoRound` states. -/
opaque Config.geoRoundFraction : Rat → Int

end Sys2Proof
end

