-- ==== Sys2Proof/Machine/Operands.lean ====
section
/-! DEFINITION. How operand bytes are read and written: the pseudocode primitives of 00_scope.md R11 and R12, byte
order (20_memory.md R41 to R43), sign extension (R10), and the text digits of 40_address.md. -/

namespace Sys2Proof.Machine

/-- `MemRead(buf, off, n)` of R12, used only after the rule's own bounds check. -/
def memRead (b : Bytes) (off n : Nat) : Bytes := (b.drop off).take n

/-- `b[i]` of R11. Every rule checks the bound first, so the value past the end is never used. -/
def byteAt (b : Bytes) (i : Nat) : Byte := b.getD i 0

/-- `zeros(n)` of R11. -/
def zeros (n : Nat) : Bytes := List.replicate n 0

/-- `BE(b)` of R12: the unsigned value of `b`, most significant byte first (R41). -/
def beValue (b : Bytes) : Nat := b.foldl (fun acc x => acc * 256 + x.toNat) 0

/-- The `n` low bytes of `v`, most significant first (R41). -/
def beBytes : Nat → Nat → Bytes
  | 0, _ => []
  | n + 1, v => BitVec.ofNat 8 (v / 256 ^ n) :: beBytes n v

/-- `MemWrite(buf, off, n, v)` of R12 and R41. -/
def memWrite (b : Bytes) (off n v : Nat) : Bytes := b.take off ++ beBytes n v ++ b.drop (off + n)

/-- The longest prefix after which every byte satisfies `p`: `rtrim` of R213, `rstrip` of R65. -/
def rtrim (p : Byte → Bool) (b : Bytes) : Bytes := (b.reverse.dropWhile p).reverse

/-- `sext_32(v)` of R10: the signed reading of 24 bits, bit 23 the sign (16777216 is 2^24). -/
def sext32 (v : S24) : Int := if v.getLsbD 23 then (v.toNat : Int) - 16777216 else v.toNat

/-- An integer modulo 2^24, the form in which a signed value is written (R230). -/
def toS24 (n : Int) : S24 := BitVec.ofInt 24 n

/-- Whether an integer lies in the range -2^23 .. 2^23 - 1 of `s24` (R230). -/
def inS24 (n : Int) : Bool := decide (-8388608 ≤ n) && decide (n ≤ 8388607)

/-- A byte that is one of the digits "0".."9" (R73). -/
def isDigit (b : Byte) : Bool := decide (0x30 ≤ b) && decide (b ≤ 0x39)

/-- The decimal value of a digit string (R103). -/
def decimalValue (b : Bytes) : Nat := b.foldl (fun acc x => acc * 10 + (x.toNat - 0x30)) 0

/-- The digit byte of a number below ten. -/
def digitByte (n : Nat) : Byte := BitVec.ofNat 8 (0x30 + n)

/-- `dec(n)` of 40_address.md for a u8: decimal digits with no leading zero. -/
def decimalBytes (n : Byte) : Bytes :=
  if n.toNat < 10 then [digitByte n.toNat]
  else if n.toNat < 100 then [digitByte (n.toNat / 10), digitByte (n.toNat % 10)]
  else [digitByte (n.toNat / 100), digitByte (n.toNat / 10 % 10), digitByte (n.toNat % 10)]

/-- The sequence without one leading byte `c`, when it begins with one (R131, D11). -/
def dropLeading (c : Byte) : Bytes → Bytes
  | [] => []
  | b :: bs => if b = c then bs else b :: bs

end Sys2Proof.Machine
end

