-- ==== Sys2Proof/Machine/Layout.lean ====
section
/-! DEFINITION. The layout engine of 44_records.md: the layout of each record (R211, R224), well-formedness (R212),
field decode and encode (R213, R215), generic decode and encode (R214, R216), and what makes a record value fit a layout
(R216, R217). -/

namespace Sys2Proof.Machine

/-- The number of bytes of a width (R211). -/
def widthBytes : Width → Nat
  | .one => 1
  | .two => 2
  | .three => 3
  | .four => 4

/-- The layout of a record without an encoder: no encoded length (R211). -/
def decodeLayout (l : DecodeLayout) : Layout where
  minLen := l.minLen
  encLen := none
  fields := l.fields

/-- The divisor of the geo fields the source names (R211, R224). -/
def positionDivisor : Nat := 30000

/-- R224: latitude and longitude of the GPS record are Geo fields with the divisor 30000. -/
def gpsLayout (l : GpsLayout) : Layout where
  minLen := l.minLen
  encLen := none
  fields := .geo l.latitude.name l.latitude.off positionDivisor ::
    .geo l.longitude.name l.longitude.off positionDivisor :: l.others

/-- The parameter `LAYOUT_<record>` of R7, as a layout. -/
def layoutOf (c : Config) : RecordKind → Option Layout
  | .capability => c.layoutCap.map decodeLayout
  | .status => c.layoutStatus.map decodeLayout
  | .channel => c.layoutChan
  | .globalSettings => c.layoutGlobal
  | .beacon => c.layoutBss
  | .gps => c.layoutGps.map gpsLayout

/-- Whether a byte belongs to a trim set (R211). -/
def trims : TrimSet → Byte → Bool
  | .nul, b => b == 0x00
  | .space, b => b == 0x20
  | .nulSpace, b => b == 0x00 || b == 0x20

/-- A field's name (R211). -/
def fieldName : Field → String
  | .bool name _ _ => name
  | .uint name _ _ _ _ => name
  | .str name _ _ _ => name
  | .geo name _ _ => name

/-- R212, condition 2: the field lies inside `minLen`, and its own numbers are in range. Of a mask R212 asks the range
only, and so does the model: it may have holes or bit 0 clear (log entry 22). -/
def fieldInside (minLen : Nat) : Field → Bool
  | .bool _ byte _ => decide (byte < minLen)
  | .uint _ off width shift mask =>
      decide (off + widthBytes width ≤ minLen) && decide (shift < 8 * widthBytes width)
        && decide (mask.toNat <<< shift < 2 ^ (8 * widthBytes width))
  | .str _ off len _ => decide (off + len ≤ minLen)
  | .geo _ off div => decide (off + 3 ≤ minLen) && decide (1 ≤ div)

/-- The bits a field owns (R212, condition 3), bit `j` of byte `i` numbered `8 * i + j`. Bit `j` of a big-endian word
of `width` bytes at `off` lies in byte `off + width - 1 - j / 8`. -/
def fieldBits : Field → List Nat
  | .bool _ byte bit => [8 * byte + bit.val]
  | .uint _ off width shift mask =>
      ((List.range (8 * widthBytes width)).filter fun j => (mask.toNat <<< shift).testBit j).map
        fun j => 8 * (off + widthBytes width - 1 - j / 8) + j % 8
  | .str _ off len _ => (List.range (8 * len)).map fun j => 8 * off + j
  | .geo _ off _ => (List.range 24).map fun j => 8 * off + j

/-- Whether no bit stands in two of the lists. -/
def pairwiseDisjoint : List (List Nat) → Bool
  | [] => true
  | a :: rest => rest.all (fun b => a.all fun x => !b.contains x) && pairwiseDisjoint rest

/-- Whether no name stands twice. -/
def distinctNames : List String → Bool
  | [] => true
  | a :: rest => !rest.contains a && distinctNames rest

/-- R212, condition 3, the part on strings: `0x00` is in the trim set. -/
def padsWithNul : Field → Bool
  | .str _ _ _ trim => trims trim 0x00
  | _ => true

/-- Layout well-formedness (R212). -/
def layoutWf (L : Layout) : Bool :=
  distinctNames (L.fields.map fieldName) && L.fields.all (fieldInside L.minLen) &&
    match L.encLen with
    | none => true
    | some n => decide (L.minLen ≤ n) && pairwiseDisjoint (L.fields.map fieldBits) && L.fields.all padsWithNul

/-- `dec_field` (R213). -/
def decField (data : Bytes) : Field → FieldValue
  | .bool _ byte bit => .bool ((byteAt data byte).getLsbD bit.val)
  | .uint _ off width shift mask => .uint ((beValue (memRead data off (widthBytes width)) >>> shift) &&& mask.toNat)
  | .str _ off len trim => .str (rtrim (trims trim) (memRead data off len))
  | .geo _ off div => .geo { raw := BitVec.ofNat 24 (beValue (memRead data off 3)), div := div }

/-- The map that REC_DECODE returns, in the layout's order (R214). -/
def decFields (L : Layout) (data : Bytes) : RecordMap := L.fields.map fun f => (fieldName f, decField data f)

/-- `enc_field` (R215). A value of another kind than the field's is ill-typed and refused before (R216), so it writes
nothing here. -/
def encField (out : Bytes) : Field → FieldValue → Bytes
  | .bool _ byte bit, .bool v => out.set byte (byteAt out byte ||| (if v then 1#8 <<< bit.val else 0))
  | .uint _ off width shift mask, .uint v =>
      memWrite out off (widthBytes width)
        (beValue (memRead out off (widthBytes width)) ||| ((v &&& mask.toNat) <<< shift))
  | .str _ off len _, .str v =>
      out.take off ++ v.take len ++ zeros (len - min len v.length) ++ out.drop (off + len)
  | .geo _ off _, .geo g => memWrite out off 3 g.raw.toNat
  | _, _ => out

/-- The field-by-field loop of REC_ENCODE (R216). -/
def encFields (rec : RecordMap) : List Field → Bytes → Bytes
  | [], out => out
  | f :: rest, out =>
      match rec.lookup (fieldName f) with
      | some v => encFields rec rest (encField out f v)
      | none => encFields rec rest out

/-- Whether a value has the kind of its field: Bool, Nat, Bytes, or `(s24, Nat)` (R216). -/
def kindFits : Field → FieldValue → Bool
  | .bool _ _ _, .bool _ => true
  | .uint _ _ _ _ _, .uint _ => true
  | .str _ _ _ _, .str _ => true
  | .geo _ _ _, .geo _ => true
  | _, _ => false

/-- Whether a record operand is typed for a layout (R29, R216): a map from exactly the layout's field names, each value
of its field's kind. DEDUCED (log entry 11): a name that is no field's, or one given twice, is ill-typed as a missing
one is. -/
def recordFits (L : Layout) (rec : RecordMap) : Bool :=
  decide (rec.length = L.fields.length) &&
    L.fields.all fun f =>
      match rec.lookup (fieldName f) with
      | some v => kindFits f v
      | none => false

/-- The byte strings inside a record value. -/
def recordBuffers : RecordMap → List Bytes
  | [] => []
  | (_, .str b) :: rest => b :: recordBuffers rest
  | _ :: rest => recordBuffers rest

/-- Whether a value is canonical for its field (R217). -/
def valueCanonical : Field → FieldValue → Bool
  | .bool _ _ _, .bool _ => true
  | .uint _ _ _ _ mask, .uint v => decide (v ≤ mask.toNat)
  | .str _ _ len trim, .str b => decide (b.length ≤ len) && decide (rtrim (trims trim) b = b)
  | .geo _ _ div, .geo g => decide (g.div = div)
  | _, _ => false

/-- A canonical record value for a layout (R217). -/
def recordCanonical (L : Layout) (rec : RecordMap) : Bool :=
  recordFits L rec &&
    L.fields.all fun f =>
      match rec.lookup (fieldName f) with
      | some v => valueCanonical f v
      | none => false

/-- Equality of two maps: the same value, or none, under every name of either (R228). -/
def sameMap (a b : RecordMap) : Bool :=
  (a ++ b).all fun p => decide (a.lookup p.1 = b.lookup p.1)

/-- Record value equality (R228): the same type, and every field equal. -/
def sameRecord (a b : DeviceRecord) : Bool := decide (a.kind = b.kind) && sameMap a.fields b.fields

end Sys2Proof.Machine
end

