-- ==== Sys2Proof/Machine/State.lean ====
section
/-! DEFINITION. State: the reassembly store, the only thing the spec makes persist (10_state.md R24, R25), with the
port (commands not yet performed, the last reply) and the configuration beside it. Reset (70_reset_and_hazards.md
R270), and the reasons a step can stop (60_exceptions.md R258). -/

namespace Sys2Proof.Machine

/-- Whether a slot holds a sequence (R25). -/
inductive SlotStatus where
  | empty
  | accumulating
deriving DecidableEq, Repr

/-- One channel's reassembly state (R25). -/
structure Slot where
  st     : SlotStatus
  lastId : U6
  closed : Bool
  region : Region
  buf    : Bytes
deriving DecidableEq, Repr

/-- The error statuses (R250). -/
inductive ErrorKind where
  | truncated
  | malformedAddress
  | invalidAddress
  | invalidFormat
  | notEncodable
  | invalidLength
  | illegalOp
deriving DecidableEq, Repr

/-- A decoded frame (R27). -/
inductive Frame where
  | standard (addresses : List StationAddress) (control protocolId : Byte) (payload : Bytes) (timestamp : Time)
  | shortForm (address : StationAddress) (control : Byte) (payload : Bytes) (timestamp : Time)
deriving DecidableEq, Repr

/-- The result record of a command whose status is OK (R61). -/
inductive Result where
  | address (addr : StationAddress) (isLast : Bool) (consumed : Nat)
  | parsed (addr : StationAddress)
  | out (out : Bytes)
  | text (text : Bytes)
  | same (same : Bool)
  | frame (frame : Frame)
  | fragment (isFinal : Bool) (fragmentId : U6) (data : Bytes) (channelId : Option Byte)
  | complete (complete : Option Bytes)
  | value16 (value : U16)
  | value24 (value : U24)
  | value32 (value : U32)
  | record (rec : DeviceRecord)
  | geo (lat lon : GeoValue)
deriving DecidableEq, Repr

/-- What a command returns (R60): status OK with its results, or an error status alone (R252). -/
inductive Reply where
  | ok (r : Result)
  | error (e : ErrorKind)
deriving DecidableEq, Repr

/-- The machine. `store` is the spec's state. `pending` (the commands the host has issued and the unit has not begun),
`reply` (what the last command returned) and `config` are the model's own fields: log entries 1, 2, 3. -/
structure State where
  store   : Vector Slot numChannels
  pending : List HostInput
  reply   : Option Reply
  config  : Config
deriving DecidableEq, Repr

/-- Why the machine stops with a fault. -/
inductive Fault where
  /-- Raised by FRAG_PUSH when a slot's buffer would exceed a finite `REASM_CAPACITY` (R162, R258). Safe: the real unit
  does something the spec does not say, and nothing is proved of it. -/
  | reasmOverflow
deriving DecidableEq, Repr

/-- Why the model gives a command no meaning (R258). Every one is safe: nothing is proved of such a run. -/
inductive Refusal where
  /-- Raised by an arm of `exec` whose instruction has no meaning yet. Safe. -/
  | notModelled (mnemonic : String)
  /-- Raised by a record command whose `LAYOUT_*` parameter is not given (R8). Safe. -/
  | missingLayout (kind : RecordKind)
  /-- Raised by a record command whose layout fails R212 ("It refuses the record's commands otherwise"; R258). Safe. -/
  | illFormedLayout (kind : RecordKind)
  /-- Raised by REC_ENC.* when its layout has no encoded length (R225). Safe. -/
  | noEncodedLength (kind : RecordKind)
  /-- Raised by the step for an operand record of another type than the opcode's, and by REC_ENC.* for a record that
  does not fit its layout (R216, R258). Safe. -/
  | illTypedOperand
  /-- Raised by every command with a Bytes operand longer than `MAX_BUF_LEN` (R14). Safe. -/
  | bufferTooLong
deriving DecidableEq, Repr

/-- One step's outcome. -/
abbrev StepOutcome := Host.Outcome State Fault Refusal

/-- A slot right after reset (R270): Empty. The spec leaves the other fields unspecified and never reads them while
the slot is Empty: DESIGN CHOICE (log entry 7), unsafe, they are zero and empty here. -/
def Slot.reset : Slot where
  st     := .empty
  lastId := 0
  closed := false
  region := { token := 0 }
  buf    := []

/-- The machine right after reset under a configuration (R270, R272): every slot Empty, no command issued, nothing
returned. -/
def State.resetWith (c : Config) : State where
  store   := Vector.replicate numChannels Slot.reset
  pending := []
  reply   := none
  config  := c

/-- The machine right after reset under the parameter values R7 gives. -/
def State.reset : State := State.resetWith Config.default

end Sys2Proof.Machine
end

