-- ==== Sys2Proof/Machine/Ops.lean ====
section
/-! DEFINITION. The operations every command shares: slots by channel key (10_state.md R24), ending a command with a
result or a status (00_scope.md R12, 60_exceptions.md R250, R252), the operand limit (R14), taking the next host input
(R6, R48, 70_reset_and_hazards.md R271), and the fixed parameter values of R7. The unit takes no exception and returns
from none (R255, R256): `raise` is what stands in their place. -/

namespace Sys2Proof.Machine

/-- `SF_MARKER` (R7). -/
def sfMarker : Byte := 0x01

/-- `SF_CTRL_LEN` (R7). -/
def sfCtrlLen : Byte := 0x01

/-- `SF_CONTROL` (R7). -/
def sfControl : Byte := 0x21

/-- `SF_CALL_PREFIX` (R7). -/
def sfCallPrefix : Byte := 0x20

/-- `SF_PAYLOAD_PREFIX` (R7). -/
def sfPayloadPrefix : Byte := 0x24

/-- `GEO_DIV_COMPACT` and `GEO_DIV_POSREP` (R7). -/
def geoDivisor : GeoForm → Nat
  | .compact => 30000
  | .posrep => 60 * 500

/-- The numeric status of a reply (R250): 0 is OK. -/
def statusCode : Reply → Nat
  | .ok _ => 0
  | .error .truncated => 1
  | .error .malformedAddress => 2
  | .error .invalidAddress => 3
  | .error .invalidFormat => 4
  | .error .notEncodable => 5
  | .error .invalidLength => 6
  | .error .illegalOp => 7

/-- `slot[k]` (R12, R24). -/
def State.slot (s : State) (k : Byte) : Slot := s.store[k.toNat]'k.isLt

/-- `slot[k] <- v` (R12). -/
def State.setSlot (s : State) (k : Byte) (v : Slot) : State := { s with store := s.store.set k.toNat v k.isLt }

/-- The state after a command that returned `r`. The store is as the command left it. -/
def State.answer (s : State) (r : Reply) : State := { s with reply := some r }

/-- A codec's answer as a reply. -/
def replyOf : Except ErrorKind Result → Reply
  | .ok r => .ok r
  | .error e => .error e

/-- `return` and `raise` of R12: the command ends, its status and results are returned and the store is unchanged. -/
def finish (s : State) (r : Except ErrorKind Result) : StepOutcome := .next (s.answer (replyOf r))

/-- `raise E` of R12: the command ends with status E, no result and no change of state (R252). -/
def raise (s : State) (e : ErrorKind) : StepOutcome := finish s (.error e)

/-- Whether a buffer is within `MAX_BUF_LEN` (R14). -/
def withinMax (c : Config) (b : Bytes) : Bool :=
  match c.maxBufLen with
  | none => true
  | some m => decide (b.length ≤ m)

/-- R14: a command with a Bytes operand longer than `MAX_BUF_LEN` is refused, before any status (R253). -/
def guarded (s : State) (buffers : List Bytes) (k : StepOutcome) : StepOutcome :=
  if buffers.all (withinMax s.config) then k else .refused .bufferTooLong

/-- The byte buffers of an operand record, nested ones included (R14; log entry 9). -/
def operandBuffers : Operands → List Bytes
  | .none => []
  | .dataOffset data _ => [data]
  | .dataOffsetValue data _ _ => [data]
  | .data data => [data]
  | .text text => [text]
  | .addr addr => [addr.callsign]
  | .addrLast addr _ => [addr.callsign]
  | .addrPair a b => [a.callsign, b.callsign]
  | .dataTime data _ => [data]
  | .frame _ addresses _ _ payload => payload :: addresses.map StationAddress.callsign
  | .wireFragment _ _ data _ => [data]
  | .fragment frag => [frag.data]
  | .record rec => recordBuffers rec.fields
  | .dataForm data _ => [data]
  | .latLonForm _ _ _ => []

/-- A command with a reserved opcode: status IllegalOp (R63), unless R14 refuses it, since a refusal takes precedence
over every status (R253; log entry 10). -/
def reservedOpcode (o : Operands) (s : State) : StepOutcome := guarded s (operandBuffers o) (raise s .illegalOp)

/-- Whether a slot's buffer may have this length (R26(c)). -/
def withinCapacity (c : Config) (n : Nat) : Bool :=
  match c.reasmCapacity with
  | none => true
  | some m => decide (n ≤ m)

/-- Issuing a command ahead of the pending ones. -/
def State.issue (s : State) (c : Command) : State := { s with pending := .command c :: s.pending }

/-- The next host input in issue order (R48), with the state in which it is performed. -/
def fetch (s : State) : Option (HostInput × State) :=
  match s.pending with
  | [] => none
  | i :: rest => some (i, { s with pending := rest })

/-- The host's reset (R270, R271): every slot Empty, nothing returned. The configuration and the commands issued after
the reset stay (log entry 12). -/
def State.resetUnit (s : State) : State := { State.resetWith s.config with pending := s.pending }

/-- What the unit does with no command issued: it waits (R47, R271; log entry 1). -/
def idle (s : State) : StepOutcome := .next s

end Sys2Proof.Machine
end

