-- ==== Sys2Proof/Machine/Address.lean ====
section
/-! DEFINITION. The station address codec (40_address.md): ADDR_DEC, ADDR_ENC, ADDR_PARSE, ADDR_FMT, ADDR_SAME. -/

namespace Sys2Proof.Machine

/-- R101's check of one callsign byte: bit 0 is 0 and the character is at least 0x20. -/
def callsignByteOk (b : Byte) : Bool := !b.getLsbD 0 && decide (0x20 ≤ b >>> 1)

/-- `rstrip_0x20` over the six shifted bytes (R65). -/
def callsignOf (six : Bytes) : Bytes := rtrim (· == 0x20) (six.map fun (b : Byte) => b >>> 1)

/-- ADDR_DEC's pseudocode (R101), answering the address and `is_last`. -/
def decodeAddress (data : Bytes) (offset : Nat) : Except ErrorKind (StationAddress × Bool) :=
  if data.length < offset + 7 then .error .invalidLength
  else
    let six := memRead data offset 6
    let trailer := byteAt data (offset + 6)
    if six.all callsignByteOk then
      .ok ({ callsign := callsignOf six, ssid := trailerSsid trailer,
             cr1 := trailerCr1 trailer, cr2 := trailerCr2 trailer, cr3 := trailerCr3 trailer },
           trailerIsLast trailer)
    else .error .malformedAddress

/-- ADDR_ENC's pseudocode (R102). -/
def encodeAddress (a : StationAddress) (last : Bool) : Except ErrorKind Bytes :=
  if 6 < a.callsign.length then .error .invalidAddress
  else if 15 < a.ssid.toNat then .error .invalidAddress
  else
    let padded := a.callsign ++ List.replicate (6 - a.callsign.length) 0x20
    .ok ((padded.map fun (b : Byte) => b <<< 1) ++ [addressTrailer a last])

/-- An address with its flags false (R103, R131). -/
def plainAddress (callsign : Bytes) (ssid : Byte) : StationAddress :=
  { callsign := callsign, ssid := ssid, cr1 := false, cr2 := false, cr3 := false }

/-- The callsign check that ends ADDR_PARSE (R103). -/
def parseCallsign (call : Bytes) (ssid : Nat) : Except ErrorKind StationAddress :=
  if call.length < 1 ∨ 6 < call.length then .error .invalidFormat
  else .ok (plainAddress call (BitVec.ofNat 8 ssid))

/-- ADDR_PARSE's pseudocode (R103). -/
def parseAddress (text : Bytes) : Except ErrorKind StationAddress :=
  if 9 < text.length then .error .invalidFormat
  else if text.contains 0x2D then
    let call := text.takeWhile (· != 0x2D)
    let suffix := text.drop (call.length + 1)
    if suffix.length = 0 then .error .invalidFormat
    else if !suffix.all isDigit then .error .invalidFormat
    else if 15 < decimalValue suffix then .error .invalidFormat
    else parseCallsign call (decimalValue suffix)
  else parseCallsign text 0

/-- ADDR_FMT's pseudocode (R104). -/
def formatAddress (a : StationAddress) : Bytes :=
  if a.ssid = 0 then a.callsign else a.callsign ++ 0x2D :: decimalBytes a.ssid

/-- Identity of addresses: callsign and ssid, never the control flags (R100, R105). -/
def sameAddress (a b : StationAddress) : Bool := decide (a.callsign = b.callsign) && decide (a.ssid = b.ssid)

/-- ADDR_DEC (R101). -/
def execAddrDec (data : Bytes) (offset : Nat) (s : State) : StepOutcome :=
  guarded s [data] (finish s ((decodeAddress data offset).map fun r => .address r.1 r.2 7))

/-- ADDR_ENC (R102). -/
def execAddrEnc (addr : StationAddress) (last : Bool) (s : State) : StepOutcome :=
  guarded s [addr.callsign] (finish s ((encodeAddress addr last).map .out))

/-- ADDR_PARSE (R103). -/
def execAddrParse (text : Bytes) (s : State) : StepOutcome :=
  guarded s [text] (finish s ((parseAddress text).map .parsed))

/-- ADDR_FMT (R104). -/
def execAddrFmt (addr : StationAddress) (s : State) : StepOutcome :=
  guarded s [addr.callsign] (finish s (.ok (.text (formatAddress addr))))

/-- ADDR_SAME (R105). -/
def execAddrSame (a b : StationAddress) (s : State) : StepOutcome :=
  guarded s [a.callsign, b.callsign] (finish s (.ok (.same (sameAddress a b))))

end Sys2Proof.Machine
end

