-- ==== Sys2Proof/Machine/ByteUtil.lean ====
section
/-! DEFINITION. The big-endian byte helpers (43_byteutil.md): RD16, RD24, RD32, WR16, WR24, WR32. -/

namespace Sys2Proof.Machine

/-- The value of `n` bytes at an offset, or `Truncated` where fewer remain (R190 to R192). -/
def readBytes (n : Nat) (data : Bytes) (offset : Nat) : Except ErrorKind Nat :=
  if data.length < offset + n then .error .truncated else .ok (beValue (memRead data offset n))

/-- A copy of the buffer with the `n` low bytes of the value at an offset, or `Truncated` where fewer than `n` bytes
remain (R193 to R195). -/
def writeBytes (n : Nat) (data : Bytes) (offset : Nat) (value : U32) : Except ErrorKind Bytes :=
  if data.length < offset + n then .error .truncated
  else .ok (memWrite data offset n (value.toNat % 2 ^ (8 * n)))

/-- RD16 (R190). -/
def execRd16 (data : Bytes) (offset : Nat) (s : State) : StepOutcome :=
  guarded s [data] (finish s ((readBytes 2 data offset).map fun v => .value16 (BitVec.ofNat 16 v)))

/-- RD24 (R191). -/
def execRd24 (data : Bytes) (offset : Nat) (s : State) : StepOutcome :=
  guarded s [data] (finish s ((readBytes 3 data offset).map fun v => .value24 (BitVec.ofNat 24 v)))

/-- RD32 (R192). -/
def execRd32 (data : Bytes) (offset : Nat) (s : State) : StepOutcome :=
  guarded s [data] (finish s ((readBytes 4 data offset).map fun v => .value32 (BitVec.ofNat 32 v)))

/-- WR16 (R193). -/
def execWr16 (data : Bytes) (offset : Nat) (value : U32) (s : State) : StepOutcome :=
  guarded s [data] (finish s ((writeBytes 2 data offset value).map .out))

/-- WR24 (R194). -/
def execWr24 (data : Bytes) (offset : Nat) (value : U32) (s : State) : StepOutcome :=
  guarded s [data] (finish s ((writeBytes 3 data offset value).map .out))

/-- WR32 (R195). -/
def execWr32 (data : Bytes) (offset : Nat) (value : U32) (s : State) : StepOutcome :=
  guarded s [data] (finish s ((writeBytes 4 data offset value).map .out))

end Sys2Proof.Machine
end

