-- ==== Sys2Proof/Machine/Fragment.lean ====
section
/-! DEFINITION. The fragment reassembly engine (42_fragment.md): FRAG_DEC, FRAG_ENC and FRAG_PUSH. -/

namespace Sys2Proof.Machine

/-- FRAG_DEC's pseudocode (R160). -/
def decodeFragment (data : Bytes) : Except ErrorKind Result :=
  match data with
  | [] => .error .truncated
  | h :: body =>
    if headerHasChannelId h then
      match body.getLast? with
      | none => .error .truncated
      | some channel => .ok (.fragment (headerIsFinal h) (headerFragmentId h) body.dropLast (some channel))
    else .ok (.fragment (headerIsFinal h) (headerFragmentId h) body none)

/-- FRAG_ENC's pseudocode (R161). -/
def encodeFragment (isFinal : Bool) (fragmentId : Byte) (data : Bytes) (channelId : Option Byte) :
    Except ErrorKind Bytes :=
  if 63 < fragmentId.toNat then .error .notEncodable
  else .ok ([fragmentHeader isFinal channelId.isSome fragmentId] ++ data ++ channelId.toList)

/-- R162's test of a continuation: the slot accumulates, is not closed, and the id is the successor modulo 64 (R163;
a 6-bit sum wraps there). -/
def continuesSlot (slot : Slot) (frag : Fragment) : Bool :=
  decide (slot.st = .accumulating) && decide (frag.fragmentId = slot.lastId + 1) && !slot.closed

/-- `nb` of R162: the stored bytes with the fragment's, or the fragment's alone after a break. -/
def joinedBuffer (slot : Slot) (frag : Fragment) : Bytes :=
  if continuesSlot slot frag then slot.buf ++ frag.data else frag.data

/-- The slot R162 writes: the fragment's metadata is adopted with the joined bytes. -/
def adoptedSlot (frag : Fragment) (bytes : Bytes) : Slot where
  st     := .accumulating
  lastId := frag.fragmentId
  closed := frag.isFinal
  region := frag.regionId
  buf    := bytes

/-- The transition of R162. Beyond `REASM_CAPACITY` it is the model fault ReasmOverflow (R258). -/
def pushFragment (frag : Fragment) (s : State) : StepOutcome :=
  let bytes := joinedBuffer (s.slot frag.channelId) frag
  if withinCapacity s.config bytes.length then
    finish (s.setSlot frag.channelId (adoptedSlot frag bytes))
      (.ok (.complete (if frag.isFinal then some bytes else none)))
  else .fault .reasmOverflow

/-- The host's reading of a wire fragment as a FRAG_PUSH operand (R166): the trailing channel-id byte is the key, and
without one the key is `HOST_CHANNEL_KEY` where the host has chosen it. No command calls this. -/
def hostFragment (c : Config) (isFinal : Bool) (fragmentId : U6) (data : Bytes) (channelId : Option Byte)
    (region : Region) : Option Fragment :=
  match channelId, c.hostChannelKey with
  | some k, _ => some { isFinal := isFinal, fragmentId := fragmentId, data := data, channelId := k, regionId := region }
  | none, some k => some { isFinal := isFinal, fragmentId := fragmentId, data := data, channelId := k, regionId := region }
  | none, none => none

/-- FRAG_DEC (R160). -/
def execFragDec (data : Bytes) (s : State) : StepOutcome :=
  guarded s [data] (finish s (decodeFragment data))

/-- FRAG_ENC (R161). -/
def execFragEnc (isFinal : Bool) (fragmentId : Byte) (data : Bytes) (channelId : Option Byte) (s : State) :
    StepOutcome :=
  guarded s [data] (finish s ((encodeFragment isFinal fragmentId data channelId).map .out))

/-- FRAG_PUSH (R162), the only command that writes state. -/
def execFragPush (frag : Fragment) (s : State) : StepOutcome := guarded s [frag.data] (pushFragment frag s)

end Sys2Proof.Machine
end

