-- ==== Sys2Proof/Machine/Frame.lean ====
section
/-! DEFINITION. The packet frame codec (41_frame.md): FRM_DEC and FRM_ENC, in the Standard and the ShortForm form. -/

namespace Sys2Proof.Machine

/-- One length-prefixed field of a ShortForm frame (R131): the length byte at `i` and the field after it, each checked
against the bytes that remain. Answers the field and the index after it. -/
def takeField (data : Bytes) (i : Nat) : Except ErrorKind (Bytes × Nat) :=
  if data.length < i + 1 then .error .truncated
  else
    let len := (byteAt data i).toNat
    if data.length < i + 1 + len then .error .truncated
    else .ok (memRead data (i + 1) len, i + 1 + len)

/-- The ShortForm frame of its three fields (R131): one leading prefix byte removed from the callsign and from the
payload, the first control byte or 0x00, SSID 0 and flags false. -/
def shortFrame (callField ctrlField payField : Bytes) (time : Time) : Frame :=
  .shortForm (plainAddress (dropLeading sfCallPrefix callField) 0) (byteAt ctrlField 0)
    (dropLeading sfPayloadPrefix payField) time

/-- SF_DEC (R131). -/
def decodeShort (data : Bytes) (time : Time) : Except ErrorKind Frame :=
  match takeField data 1 with
  | .error e => .error e
  | .ok (callField, i) =>
    match takeField data i with
    | .error e => .error e
    | .ok (ctrlField, j) =>
      match takeField data j with
      | .error e => .error e
      | .ok (payField, _) => .ok (shortFrame callField ctrlField payField time)

/-- The address chain of STD_DEC (R132): 7-byte fields until one reports `is_last`. Answers the addresses and the bytes
after the chain. The buffer here is what remains from `off` on, so ADDR_DEC reads it at offset 0. -/
def decodeChain : Bytes → Except ErrorKind (List StationAddress × Bytes)
  | b0 :: b1 :: b2 :: b3 :: b4 :: b5 :: b6 :: rest =>
    match decodeAddress [b0, b1, b2, b3, b4, b5, b6] 0 with
    | .error _ => .error .malformedAddress
    | .ok (a, true) => .ok ([a], rest)
    | .ok (a, false) =>
      match decodeChain rest with
      | .error e => .error e
      | .ok (more, tail) => .ok (a :: more, tail)
  | _ => .error .malformedAddress

/-- The header bytes and the payload of a Standard frame (R132): control, then protocol_id if a further byte exists. -/
def standardTail (addresses : List StationAddress) (tail : Bytes) (time : Time) : Except ErrorKind Frame :=
  match tail with
  | [] => .error .truncated
  | [control] => .ok (.standard addresses control 0x00 [] time)
  | control :: protocolId :: payload => .ok (.standard addresses control protocolId payload time)

/-- STD_DEC (R132). -/
def decodeStandard (data : Bytes) (time : Time) : Except ErrorKind Frame :=
  match decodeChain data with
  | .error e => .error e
  | .ok (addresses, tail) =>
    if addresses.length < 2 then .error .malformedAddress else standardTail addresses tail time

/-- FRM_DEC's dispatch (R130, 30_encoding.md R68). -/
def decodeFrame (data : Bytes) (time : Time) : Except ErrorKind Frame :=
  match data with
  | [] => .error .truncated
  | b :: _ => if b = sfMarker then decodeShort data time else decodeStandard data time

/-- SF_ENC (R134). -/
def encodeShort (a : StationAddress) (payload : Bytes) : Except ErrorKind Bytes :=
  if 6 < a.callsign.length then .error .invalidAddress
  else if 254 < payload.length then .error .notEncodable
  else
    .ok ([sfMarker] ++ [BitVec.ofNat 8 (1 + a.callsign.length)] ++ [sfCallPrefix] ++ a.callsign
      ++ [sfCtrlLen] ++ [sfControl] ++ [BitVec.ofNat 8 (1 + payload.length)] ++ [sfPayloadPrefix] ++ payload)

/-- The address chain of STD_ENC (R135): only the final address is marked last. -/
def encodeChain : List StationAddress → Except ErrorKind Bytes
  | [] => .ok []
  | a :: rest =>
    match encodeAddress a rest.isEmpty with
    | .error _ => .error .invalidAddress
    | .ok field =>
      match encodeChain rest with
      | .error e => .error e
      | .ok more => .ok (field ++ more)

/-- The two bytes after the chain, by `CTRL_EMIT` (R135, 90_conflicts.md C1). -/
def standardHeader (emit : CtrlEmit) (control protocolId : Byte) : Bytes :=
  match emit with
  | .ctrlPid => [control, protocolId]
  | .ctrl16be => [0x00, control]

/-- STD_ENC (R135). -/
def encodeStandard (emit : CtrlEmit) (addresses : List StationAddress) (control protocolId : Byte) (payload : Bytes) :
    Except ErrorKind Bytes :=
  match encodeChain addresses with
  | .error e => .error e
  | .ok chain => .ok (chain ++ standardHeader emit control protocolId ++ payload)

/-- FRM_ENC's structural checks and dispatch (R133). -/
def encodeFrame (emit : CtrlEmit) (format : FrameFormat) (addresses : List StationAddress)
    (control protocolId : Byte) (payload : Bytes) : Except ErrorKind Bytes :=
  match format, addresses with
  | _, [] => .error .notEncodable
  | .shortForm, [a] => encodeShort a payload
  | .shortForm, _ :: _ :: _ => .error .notEncodable
  | .standard, [_] => .error .notEncodable
  | .standard, a :: b :: rest => encodeStandard emit (a :: b :: rest) control protocolId payload

/-- FRM_DEC (R130). -/
def execFrmDec (data : Bytes) (time : Time) (s : State) : StepOutcome :=
  guarded s [data] (finish s ((decodeFrame data time).map .frame))

/-- FRM_ENC (R133). -/
def execFrmEnc (format : FrameFormat) (addresses : List StationAddress) (control protocolId : Byte) (payload : Bytes)
    (s : State) : StepOutcome :=
  guarded s (payload :: addresses.map StationAddress.callsign)
    (finish s ((encodeFrame s.config.ctrlEmit format addresses control protocolId payload).map .out))

end Sys2Proof.Machine
end

