-- ==== Sys2Proof/Machine/Geo.lean ====
section
/-! DEFINITION. The geo coordinate codec (44_records.md section 3): GEO_DEC and GEO_ENC. -/

namespace Sys2Proof.Machine

/-- `GEO_ROUND(q × div)` of R230. Where the product is an integer it is that integer (R7: "It must map every integer to
itself"); elsewhere it is the free value `Config.geoRoundFraction` of the product (log entry 5). -/
def geoRound (q : Rat) (div : Nat) : Int :=
  if q.num * div % q.den = 0 then q.num * div / q.den else Config.geoRoundFraction (q * div)

/-- The signed integer of a geo value (R71, R229): `sext_32(raw)`. -/
def geoSigned (g : GeoValue) : Int := sext32 g.raw

/-- The decimal degrees a geo value stands for (R30): the exact rational `raw / div`. -/
def geoDegrees (g : GeoValue) : Rat := (geoSigned g : Rat) / (g.div : Rat)

/-- The geo value of three bytes at an offset (R71). -/
def geoAt (data : Bytes) (offset div : Nat) : GeoValue :=
  { raw := BitVec.ofNat 24 (beValue (memRead data offset 3)), div := div }

/-- GEO_DEC's pseudocode (R229). -/
def decodeGeo (data : Bytes) (form : GeoForm) : Except ErrorKind (GeoValue × GeoValue) :=
  if data.length < 6 then .error .truncated
  else .ok (geoAt data 0 (geoDivisor form), geoAt data 3 (geoDivisor form))

/-- GEO_ENC's pseudocode (R230), after the rounding. -/
def encodeRaw (lat lon : Int) : Except ErrorKind Bytes :=
  if !inS24 lat then .error .notEncodable
  else if !inS24 lon then .error .notEncodable
  else .ok (memWrite (memWrite (zeros 6) 0 3 (toS24 lat).toNat) 3 3 (toS24 lon).toNat)

/-- GEO_ENC's pseudocode (R230). -/
def encodeGeo (lat lon : Rat) (form : GeoForm) : Except ErrorKind Bytes :=
  encodeRaw (geoRound lat (geoDivisor form)) (geoRound lon (geoDivisor form))

/-- GEO_DEC (R229). -/
def execGeoDec (data : Bytes) (form : GeoForm) (s : State) : StepOutcome :=
  guarded s [data] (finish s ((decodeGeo data form).map fun r => .geo r.1 r.2))

/-- GEO_ENC (R230). -/
def execGeoEnc (lat lon : Rat) (form : GeoForm) (s : State) : StepOutcome :=
  finish s ((encodeGeo lat lon form).map .out)

end Sys2Proof.Machine
end

