-- ==== Sys2Proof/Machine/Record.lean ====
section
/-! DEFINITION. The device record commands (44_records.md section 2): the generic engine of Machine/Layout.lean applied
to one layout parameter each. -/

namespace Sys2Proof.Machine

/-- REC_DECODE (R214). -/
def decodeRecord (L : Layout) (data : Bytes) : Except ErrorKind RecordMap :=
  if data.length < L.minLen then .error .truncated else .ok (decFields L data)

/-- REC_ENCODE (R216) into `n` bytes. -/
def encodeRecord (L : Layout) (n : Nat) (fields : RecordMap) : Bytes := encFields fields L.fields (zeros n)

/-- The layout a record command uses; without one, or with an ill-formed one, the command is refused (R8, R212, R258). -/
def withLayout (s : State) (kind : RecordKind) (k : Layout → StepOutcome) : StepOutcome :=
  match layoutOf s.config kind with
  | none => .refused (.missingLayout kind)
  | some L => if layoutWf L then k L else .refused (.illFormedLayout kind)

/-- A REC_DEC command (R219 to R224). -/
def recordDecode (kind : RecordKind) (data : Bytes) (s : State) : StepOutcome :=
  guarded s [data] <| withLayout s kind fun L =>
    finish s ((decodeRecord L data).map fun fields => .record { kind := kind, fields := fields })

/-- A REC_ENC command (R225 to R227). -/
def recordEncode (kind : RecordKind) (fields : RecordMap) (s : State) : StepOutcome :=
  guarded s (recordBuffers fields) <| withLayout s kind fun L =>
    match L.encLen with
    | none => .refused (.noEncodedLength kind)
    | some n =>
      if recordFits L fields then finish s (.ok (.out (encodeRecord L n fields))) else .refused .illTypedOperand

/-- REC_DEC.CAP (R219). -/
def execRecDecCap (data : Bytes) (s : State) : StepOutcome := recordDecode .capability data s

/-- REC_DEC.STATUS (R220). -/
def execRecDecStatus (data : Bytes) (s : State) : StepOutcome := recordDecode .status data s

/-- REC_DEC.CHAN (R221). -/
def execRecDecChan (data : Bytes) (s : State) : StepOutcome := recordDecode .channel data s

/-- REC_DEC.GLOBAL (R222). -/
def execRecDecGlobal (data : Bytes) (s : State) : StepOutcome := recordDecode .globalSettings data s

/-- REC_DEC.BSS (R223). -/
def execRecDecBss (data : Bytes) (s : State) : StepOutcome := recordDecode .beacon data s

/-- REC_DEC.GPS (R224). -/
def execRecDecGps (data : Bytes) (s : State) : StepOutcome := recordDecode .gps data s

/-- REC_ENC.CHAN (R225). -/
def execRecEncChan (fields : RecordMap) (s : State) : StepOutcome := recordEncode .channel fields s

/-- REC_ENC.GLOBAL (R226). -/
def execRecEncGlobal (fields : RecordMap) (s : State) : StepOutcome := recordEncode .globalSettings fields s

/-- REC_ENC.BSS (R227). -/
def execRecEncBss (fields : RecordMap) (s : State) : StepOutcome := recordEncode .beacon fields s

end Sys2Proof.Machine
end

