-- ==== Sys2Proof/Machine/Dispatch.lean ====
section
/-! DEFINITION. One arm per instruction, each one call of its meaning. -/

namespace Sys2Proof.Machine

def exec (i : Instr) (s : State) : Host.Outcome State Fault Refusal :=
  match i with
  | .addrDec data offset => Sys2Proof.Machine.execAddrDec data offset s
  | .addrEnc addr last => Sys2Proof.Machine.execAddrEnc addr last s
  | .addrParse text => Sys2Proof.Machine.execAddrParse text s
  | .addrFmt addr => Sys2Proof.Machine.execAddrFmt addr s
  | .addrSame a b => Sys2Proof.Machine.execAddrSame a b s
  | .frmDec data time => Sys2Proof.Machine.execFrmDec data time s
  | .frmEnc format addresses control protocolId payload => Sys2Proof.Machine.execFrmEnc format addresses control protocolId payload s
  | .fragDec data => Sys2Proof.Machine.execFragDec data s
  | .fragEnc isFinal fragmentId data channelId => Sys2Proof.Machine.execFragEnc isFinal fragmentId data channelId s
  | .fragPush frag => Sys2Proof.Machine.execFragPush frag s
  | .rd16 data offset => Sys2Proof.Machine.execRd16 data offset s
  | .rd24 data offset => Sys2Proof.Machine.execRd24 data offset s
  | .rd32 data offset => Sys2Proof.Machine.execRd32 data offset s
  | .wr16 data offset value => Sys2Proof.Machine.execWr16 data offset value s
  | .wr24 data offset value => Sys2Proof.Machine.execWr24 data offset value s
  | .wr32 data offset value => Sys2Proof.Machine.execWr32 data offset value s
  | .recDecCap data => Sys2Proof.Machine.execRecDecCap data s
  | .recDecStatus data => Sys2Proof.Machine.execRecDecStatus data s
  | .recDecChan data => Sys2Proof.Machine.execRecDecChan data s
  | .recDecGlobal data => Sys2Proof.Machine.execRecDecGlobal data s
  | .recDecBss data => Sys2Proof.Machine.execRecDecBss data s
  | .recDecGps data => Sys2Proof.Machine.execRecDecGps data s
  | .recEncChan fields => Sys2Proof.Machine.execRecEncChan fields s
  | .recEncGlobal fields => Sys2Proof.Machine.execRecEncGlobal fields s
  | .recEncBss fields => Sys2Proof.Machine.execRecEncBss fields s
  | .geoDec data form => Sys2Proof.Machine.execGeoDec data form s
  | .geoEnc lat lon form => Sys2Proof.Machine.execGeoEnc lat lon form s

end Sys2Proof.Machine
end

