-- ==== Sys2Proof/Machine/Step.lean ====
section
/-! DEFINITION. One step of the unit: the next host input, decoded and performed (00_scope.md R6). -/

namespace Sys2Proof.Machine

/-- Performing a command: its instruction's meaning, IllegalOp for a reserved opcode (30_encoding.md R63) whose operands
are within the limit, or a refusal for operands of another type (60_exceptions.md R258). -/
def perform (c : Command) (s : State) : Host.Outcome State Fault Refusal :=
  match decode c with
  | .instr i => exec i s
  | .reserved => reservedOpcode c.operands s
  | .illTyped => .refused .illTypedOperand

/-- One step. With no input issued the unit waits (70_reset_and_hazards.md R271). -/
def step (s : State) : Host.Outcome State Fault Refusal :=
  match fetch s with
  | none => idle s
  | some (.reset, rest) => .next rest.resetUnit
  | some (.command c, rest) => perform c rest

/-- The state in which the very next step performs the command of an opcode-table word: it is issued ahead of the
pending ones (log entry 8). -/
def State.withFetchWord (s : State) (nbits w : Nat) : State := s.issue (commandOfWord nbits w)

end Sys2Proof.Machine
end

