-- ==== Sys2Proof/WellFormed.lean ====
section
/-! DEFINITION. Well-formedness of operands and commands. A command that is not well-formed for a configuration is
refused by the model (60_exceptions.md R258), and `valid` addresses are the domain of the round-trip laws
(10_state.md R23). -/

namespace Sys2Proof

/-- A valid StationAddress (R23). -/
def StationAddress.valid (a : StationAddress) : Bool :=
  decide (1 ≤ a.callsign.length) && decide (a.callsign.length ≤ 6) && decide (a.ssid.toNat ≤ 15) &&
    a.callsign.all (fun b => decide (0x20 ≤ b) && decide (b ≤ 0x7F) && b != 0x2D) &&
    decide (a.callsign.getLast? ≠ some 0x20)

/-- The byte buffers of a command's operand record, nested ones included (R14; log entry 9). -/
def Instr.buffers (i : Instr) : List Bytes := Machine.operandBuffers (encode i).operands

/-- No buffer is longer than `MAX_BUF_LEN` (R14). -/
def Instr.buffersFit (c : Config) (i : Instr) : Bool :=
  match c.maxBufLen with
  | none => true
  | some m => i.buffers.all fun b => decide (b.length ≤ m)

/-- A record's layout is given and well-formed (R8, R212). -/
def Config.canDecode (c : Config) (k : RecordKind) : Bool :=
  match Machine.layoutOf c k with
  | none => false
  | some L => Machine.layoutWf L

/-- A record operand is typed for a layout that is given, well-formed and has an encoded length (R8, R212, R216,
R225). -/
def Config.canEncode (c : Config) (k : RecordKind) (fields : RecordMap) : Bool :=
  match Machine.layoutOf c k with
  | none => false
  | some L => Machine.layoutWf L && L.encLen.isSome && Machine.recordFits L fields

/-- What a record command needs of the configuration, `true` for every other command. -/
def Instr.layoutReady (c : Config) : Instr → Bool
  | .recDecCap _ => c.canDecode .capability
  | .recDecStatus _ => c.canDecode .status
  | .recDecChan _ => c.canDecode .channel
  | .recDecGlobal _ => c.canDecode .globalSettings
  | .recDecBss _ => c.canDecode .beacon
  | .recDecGps _ => c.canDecode .gps
  | .recEncChan fields => c.canEncode .channel fields
  | .recEncGlobal fields => c.canEncode .globalSettings fields
  | .recEncBss fields => c.canEncode .beacon fields
  | .addrDec _ _ | .addrEnc _ _ | .addrParse _ | .addrFmt _ | .addrSame _ _ | .frmDec _ _ | .frmEnc _ _ _ _ _
  | .fragDec _ | .fragEnc _ _ _ _ | .fragPush _ | .rd16 _ _ | .rd24 _ _ | .rd32 _ _ | .wr16 _ _ _ | .wr24 _ _ _
  | .wr32 _ _ _ | .geoDec _ _ | .geoEnc _ _ _ => true

/-- A command the model gives a meaning under a configuration: none of the refusals of R258 applies. -/
def Instr.wf (c : Config) (i : Instr) : Bool := i.buffersFit c && i.layoutReady c

end Sys2Proof
end

