-- ==== Sys2Proof/Safety.lean ====
section
/-! DEFINITION. What the claims call safe and how they speak of the machine: the store's invariant (10_state.md R26),
runs that meet neither the model fault nor a refusal (60_exceptions.md R258), states no rule can tell apart, and the
spec's own formulas for bytes and bits, written apart from the functions the machine runs. -/

namespace Sys2Proof.Machine

/-- R26(c): no accumulating slot holds more than `REASM_CAPACITY` bytes. -/
def State.Inv (s : State) : Prop :=
  ∀ k : Byte, (s.slot k).st = .accumulating → withinCapacity s.config (s.slot k).buf.length = true

/-- The outcome is a next state: neither the model fault nor a refusal. -/
def completes (o : StepOutcome) : Bool :=
  match o with
  | .next _ => true
  | .fault _ => false
  | .refused _ => false

/-- The outcome is a refusal. -/
def isRefused (o : StepOutcome) : Bool :=
  match o with
  | .next _ => false
  | .fault _ => false
  | .refused _ => true

/-- The status and results an outcome leaves at the port. -/
def repliedWith (o : StepOutcome) : Option Reply :=
  match o with
  | .next t => t.reply
  | .fault _ => none
  | .refused _ => none

/-- The host has issued one FRAG_PUSH for each fragment, in order, and nothing else. -/
def State.withPushes (s : State) (frags : List Fragment) : State :=
  { s with pending := frags.map fun f => .command (encode (.fragPush f)) }

/-- The pushes of a list since the last restart, told from the fragments alone (R26(b), R162, R163): a push goes on with
the run when it is the successor of the run's last and that one was not final, and else begins a new run. -/
def sinceRestart (frags : List Fragment) : List Fragment :=
  frags.foldl (fun run f =>
    match run.getLast? with
    | some g =>
        if f.fragmentId.toNat = (g.fragmentId.toNat + 1) % 64 ∧ g.isFinal = false then run ++ [f] else [f]
    | none => [f]) []

/-- FRAG_PUSH, the only command that writes state (R6). -/
def isPush : Instr → Bool
  | .fragPush _ => true
  | _ => false

/-- Two slots that no rule can tell apart: both Empty (R26(a)), or equal in every field a rule reads. The bytes of a
closed slot are never read again (R31), and the region never (R25). -/
def Slot.agrees (a b : Slot) : Bool :=
  decide (a.st = b.st) &&
    (decide (a.st = .empty) ||
      (decide (a.lastId = b.lastId) && decide (a.closed = b.closed) && (a.closed || decide (a.buf = b.buf))))

/-- Two states that differ only in what no rule reads (R25, R26(a), R31). -/
def State.agrees (s t : State) : Prop :=
  s.pending = t.pending ∧ s.config = t.config ∧ s.reply = t.reply ∧
    ∀ k : Byte, Slot.agrees (s.slot k) (t.slot k) = true

/-- Outcomes of one kind, with agreeing next states or the same reason. -/
def outcomesAgree (a b : StepOutcome) : Prop :=
  match a, b with
  | .next s, .next t => s.agrees t
  | .fault f, .fault g => f = g
  | .refused p, .refused q => p = q
  | _, _ => False

/-- The error statuses R251 lists for a command. -/
def listedErrors : Instr → List ErrorKind
  | .addrDec _ _ => [.invalidLength, .malformedAddress]
  | .addrEnc _ _ => [.invalidAddress]
  | .addrParse _ => [.invalidFormat]
  | .addrFmt _ => []
  | .addrSame _ _ => []
  | .frmDec _ _ => [.truncated, .malformedAddress]
  | .frmEnc _ _ _ _ _ => [.notEncodable, .invalidAddress]
  | .fragDec _ => [.truncated]
  | .fragEnc _ _ _ _ => [.notEncodable]
  | .fragPush _ => []
  | .rd16 _ _ => [.truncated]
  | .rd24 _ _ => [.truncated]
  | .rd32 _ _ => [.truncated]
  | .wr16 _ _ _ => [.truncated]
  | .wr24 _ _ _ => [.truncated]
  | .wr32 _ _ _ => [.truncated]
  | .recDecCap _ => [.truncated]
  | .recDecStatus _ => [.truncated]
  | .recDecChan _ => [.truncated]
  | .recDecGlobal _ => [.truncated]
  | .recDecBss _ => [.truncated]
  | .recDecGps _ => [.truncated]
  | .recEncChan _ => []
  | .recEncGlobal _ => []
  | .recEncBss _ => []
  | .geoDec _ _ => [.truncated]
  | .geoEnc _ _ _ => [.notEncodable]

/-- Byte `i` of a buffer as a number. -/
def natAt (b : Bytes) (i : Nat) : Nat := (b.getD i 0).toNat

/-- R12's formula for `BE` of the `n` bytes at an offset: the sum of `b[i]·256^(n-1-i)`. -/
def beSum (b : Bytes) (off n : Nat) : Nat := ∑ i ∈ Finset.range n, natAt b (off + i) * 256 ^ (n - 1 - i)

/-- R10's formula for the signed reading of a 24-bit number. -/
def signedOf (n : Nat) : Int := if n < 8388608 then n else (n : Int) - 16777216

/-- Bit `j` of byte `i` of a buffer (R9). -/
def bitOf (b : Bytes) (i j : Nat) : Bool := (b.getD i 0).getLsbD j

/-- The address field R64 and R102 lay out, in arithmetic: six doubled characters, padded with spaces, then
cr1·0x80 + cr2·0x40 + cr3·0x20 + ssid·2 + last. -/
def wireField (a : StationAddress) (last : Bool) : Bytes :=
  (List.range 6).map (fun i => BitVec.ofNat 8 (2 * (a.callsign.getD i 0x20).toNat)) ++
    [BitVec.ofNat 8
      (128 * a.cr1.toNat + 64 * a.cr2.toNat + 32 * a.cr3.toNat + 2 * (a.ssid.toNat % 16) + last.toNat)]

/-- Whether ADDR_ENC accepts an address (R102). -/
def encodable (a : StationAddress) : Prop := a.callsign.length ≤ 6 ∧ a.ssid.toNat ≤ 15

/-- Whether a field owns bit `j` of byte `i` (R212, condition 3). Bit `m` of a big-endian word of `width` bytes at
`off` is bit `m mod 8` of byte `off + width - 1 - m/8`. -/
def ownsBit (f : Field) (i j : Nat) : Prop :=
  match f with
  | .bool _ byte bit => i = byte ∧ j = bit.val
  | .uint _ off width shift mask =>
      ∃ m, m < 8 * widthBytes width ∧ (mask.toNat <<< shift).testBit m = true ∧
        i = off + widthBytes width - 1 - m / 8 ∧ j = m % 8
  | .str _ off len _ => off ≤ i ∧ i < off + len ∧ j < 8
  | .geo _ off _ => off ≤ i ∧ i < off + 3 ∧ j < 8

/-- R212's condition 2 for one field. -/
def insideProp (minLen : Nat) (f : Field) : Prop :=
  match f with
  | .bool _ byte _ => byte < minLen
  | .uint _ off width shift mask =>
      off + widthBytes width ≤ minLen ∧ shift < 8 * widthBytes width ∧
        mask.toNat * 2 ^ shift < 2 ^ (8 * widthBytes width)
  | .str _ off len _ => off + len ≤ minLen
  | .geo _ off div => off + 3 ≤ minLen ∧ 1 ≤ div

/-- What encoding leaves of a field's value in the output, in bits and bytes (R215): the flag in its bit, an integer's
bits under the mask in the word's bits, a string cut to its field and padded with 0x00, and a geo value's three bytes. -/
def fieldStored (out : Bytes) (f : Field) (v : FieldValue) : Prop :=
  match f, v with
  | .bool _ byte bit, .bool b => bitOf out byte bit.val = b
  | .uint _ off width shift mask, .uint n =>
      ∀ m, m < 8 * widthBytes width → (mask.toNat <<< shift).testBit m = true →
        bitOf out (off + widthBytes width - 1 - m / 8) (m % 8) = (n <<< shift).testBit m
  | .str _ off len _, .str b => (out.drop off).take len = b.take len ++ List.replicate (len - min len b.length) 0x00
  | .geo _ off _, .geo g =>
      (out.drop off).take 3 =
        [BitVec.ofNat 8 (g.raw.toNat / 65536), BitVec.ofNat 8 (g.raw.toNat / 256), BitVec.ofNat 8 g.raw.toNat]
  | _, _ => False

/-- R212's three conditions on a layout. -/
def layoutConditions (L : Layout) : Prop :=
  (L.fields.map fieldName).Nodup ∧ (∀ f ∈ L.fields, insideProp L.minLen f) ∧
    ∀ n, L.encLen = some n → L.minLen ≤ n ∧
      L.fields.Pairwise (fun f g => ∀ i j, ¬ (ownsBit f i j ∧ ownsBit g i j)) ∧
      ∀ name off len trim, Field.str name off len trim ∈ L.fields → trims trim 0x00 = true

/-- What is left of a canonical value once it has been encoded: an integer's bits under its mask (R215), and every other
value whole. -/
def keptValue : Field → FieldValue → FieldValue
  | .uint _ _ _ _ mask, .uint n => .uint (n &&& mask.toNat)
  | _, v => v

/-- The integers of a record that lie inside their masks bit by bit, as every canonical one (R217) does whose mask has no
hole. -/
def insideMasks (L : Layout) (rec : RecordMap) : Prop :=
  ∀ name off width shift mask n, Field.uint name off width shift mask ∈ L.fields → rec.lookup name = some (.uint n) →
    (∃ k, mask.toNat + 1 = 2 ^ k) ∨ n &&& mask.toNat = n

/-- Every record command, with its record. -/
def recordCommands (data : Bytes) (rec : RecordMap) : List (RecordKind × Instr) :=
  [(.capability, .recDecCap data), (.status, .recDecStatus data), (.channel, .recDecChan data),
    (.globalSettings, .recDecGlobal data), (.beacon, .recDecBss data), (.gps, .recDecGps data),
    (.channel, .recEncChan rec), (.globalSettings, .recEncGlobal rec), (.beacon, .recEncBss rec)]

/-- R213's formula for the value of one field of a window. -/
def fieldFormula (data : Bytes) (f : Field) (v : FieldValue) : Prop :=
  match f with
  | .bool _ byte bit => v = .bool (bitOf data byte bit.val)
  | .uint _ off width shift mask => v = .uint ((beSum data off (widthBytes width) / 2 ^ shift) &&& mask.toNat)
  | .str _ off len trim =>
      ∃ p pad, (data.drop off).take len = p ++ pad ∧ (∀ x ∈ pad, trims trim x = true) ∧
        (∀ x, p.getLast? = some x → trims trim x = false) ∧ v = .str p
  | .geo _ off div => ∃ g : GeoValue, v = .geo g ∧ geoSigned g = signedOf (beSum data off 3) ∧ g.div = div

/-- A REC_DEC command runs as R214 says, under the layout of its record: `Truncated` below the minimum length, and else
the map of every field's name to its value. -/
def RecDecRuns (kind : RecordKind) (op : Byte) (dec : Bytes → Instr) : Prop :=
  ∀ (s : State) (L : Layout) (data : Bytes),
    decode { op := op, operands := .data data } = .instr (dec data) ∧
    (layoutOf s.config kind = some L → layoutWf L = true → withinMax s.config data = true →
      (data.length < L.minLen → exec (dec data) s = .next { s with reply := some (.error .truncated) }) ∧
      (L.minLen ≤ data.length →
        exec (dec data) s =
          .next { s with reply := some (.ok (.record
            { kind := kind, fields := L.fields.map fun f => (fieldName f, decField data f) })) }))

/-- A REC_ENC command runs as R215 and R216 say: exactly `n` bytes, every field stored in its own bits, every bit of no
field 0; and a record value that lacks a field or has one of another kind is refused. -/
def RecEncRuns (kind : RecordKind) (op : Byte) (enc : RecordMap → Instr) : Prop :=
  ∀ (s : State) (L : Layout) (n : Nat) (rec : RecordMap),
    decode { op := op, operands := .record { kind := kind, fields := rec } } = .instr (enc rec) ∧
    (layoutOf s.config kind = some L → layoutWf L = true → L.encLen = some n →
      (recordFits L rec = true → (∀ b ∈ recordBuffers rec, withinMax s.config b = true) →
        ∃ out : Bytes,
          exec (enc rec) s = .next { s with reply := some (.ok (.out out)) } ∧ out.length = n ∧
          (∀ f ∈ L.fields, ∃ v, rec.lookup (fieldName f) = some v ∧ fieldStored out f v) ∧
          (∀ i j, (∀ f ∈ L.fields, ¬ ownsBit f i j) → bitOf out i j = false)) ∧
      (∀ f ∈ L.fields, (∀ v, rec.lookup (fieldName f) = some v → kindFits f v = false) →
        isRefused (exec (enc rec) s) = true))

/-- R218's first law: a canonical record (R217) is encoded, and decoding gives every field the value its encoding keeps,
which is an equal record where its integers lie inside their masks (log entry 19). -/
def RecRoundTrips (kind : RecordKind) (enc : RecordMap → Instr) (dec : Bytes → Instr) : Prop :=
  ∀ (s : State) (L : Layout) (n : Nat) (rec : RecordMap),
    layoutOf s.config kind = some L → layoutWf L = true → L.encLen = some n → recordCanonical L rec = true →
    (∀ b ∈ recordBuffers rec, withinMax s.config b = true) →
    ∃ out : Bytes, exec (enc rec) s = .next { s with reply := some (.ok (.out out)) } ∧
      ∀ s' : State, layoutOf s'.config kind = some L → withinMax s'.config out = true →
        ∃ fields : RecordMap,
          exec (dec out) s' = .next { s' with reply := some (.ok (.record { kind := kind, fields := fields })) } ∧
          (∀ f ∈ L.fields, ∀ v, rec.lookup (fieldName f) = some v →
            fields.lookup (fieldName f) = some (keptValue f v)) ∧
          (insideMasks L rec → sameRecord { kind := kind, fields := fields } { kind := kind, fields := rec } = true)

/-- Encoding what was decoded keeps every bit a Bool, UInt or Geo field owns, turns a string's trimmed padding into 0x00,
and leaves every other bit 0. Where all the trimmed padding is 0x00 the output equals the window on every owned bit, which
is R218's second law; a trimmed space becomes 0x00, as V-D2 has it (log entry 19). -/
def RecReencodes (kind : RecordKind) (enc : RecordMap → Instr) (dec : Bytes → Instr) : Prop :=
  ∀ (s : State) (L : Layout) (n : Nat) (data : Bytes),
    layoutOf s.config kind = some L → layoutWf L = true → L.encLen = some n → L.minLen ≤ data.length →
    withinMax s.config data = true →
    ∃ (fields : RecordMap) (out : Bytes),
      exec (dec data) s = .next { s with reply := some (.ok (.record { kind := kind, fields := fields })) } ∧
      exec (enc fields) s = .next { s with reply := some (.ok (.out out)) } ∧ out.length = n ∧
      (∀ f ∈ L.fields, (∀ name off len trim, f ≠ .str name off len trim) →
        ∀ i j, ownsBit f i j → bitOf out i j = bitOf data i j) ∧
      (∀ name off len trim, Field.str name off len trim ∈ L.fields →
        ∃ p pad, (data.drop off).take len = p ++ pad ∧ (∀ x ∈ pad, trims trim x = true) ∧
          (∀ x, p.getLast? = some x → trims trim x = false) ∧
          (out.drop off).take len = p ++ List.replicate pad.length 0x00) ∧
      ((∀ name off len trim, Field.str name off len trim ∈ L.fields → ∀ p pad, (data.drop off).take len = p ++ pad →
          (∀ x ∈ pad, trims trim x = true) → ∀ x ∈ pad, x = 0x00) →
        ∀ f ∈ L.fields, ∀ i j, ownsBit f i j → bitOf out i j = bitOf data i j) ∧
      (∀ i j, (∀ f ∈ L.fields, ¬ ownsBit f i j) → bitOf out i j = false)

end Sys2Proof.Machine
end

