-- ==== Sys2Proof/Certificates/Slice0/Obligations.lean ====
section
/-! DEFINITION. The statements for the provers. Each docstring names the rule of spec/ it formalises. `withinMax c b`
says that a Bytes operand is within `MAX_BUF_LEN` (R14); under the default configuration it holds of every operand. -/

open Sys2Proof Sys2Proof.Machine

/-! ### Reset, the step and the command port -/

/-- R270: after reset every slot is Empty, whatever the configuration; no command empties a slot; and the first push to
an Empty slot restarts it with its own bytes. -/
def Obligations.ResetLeavesEverySlotEmptyAndNoCommandDoes : Prop :=
  (∀ (c : Config) (k : Byte), ((State.resetWith c).slot k).st = .empty) ∧
  (∀ k : Byte, (State.reset.slot k).st = .empty) ∧
  (∀ (i : Instr) (s t : State) (k : Byte), exec i s = .next t →
    (s.slot k).st = .accumulating → (t.slot k).st = .accumulating) ∧
  (∀ (frag : Fragment) (s t : State), (s.slot frag.channelId).st = .empty → exec (.fragPush frag) s = .next t →
    (t.slot frag.channelId).buf = frag.data)

/-- R271's reset between two commands, in the model's form of it (log entries 1 and 12, the model's choice): a pending
reset makes every slot Empty and returns nothing, and the configuration and the commands after it stay. -/
def Obligations.HostResetBetweenCommandsEmptiesEverySlot : Prop :=
  ∀ (s : State) (rest : List HostInput), s.pending = .reset :: rest →
    ∃ t, step s = .next t ∧ (∀ k : Byte, (t.slot k).st = .empty) ∧ t.config = s.config ∧ t.pending = rest ∧
      t.reply = none

/-- R6, R48: a step whose next input is a command that decodes to an instruction is that instruction's meaning, in the
state from which the command has been taken; operands of another type than the opcode's are refused (R258; under that
name even where one is over `MAX_BUF_LEN` too, which is log entry 15); and with no command issued the unit waits (R271;
the form of waiting is log entry 1). -/
def Obligations.StepPerformsTheNextCommand : Prop :=
  ∀ (s : State) (c : Command) (rest : List HostInput),
    (s.pending = .command c :: rest → ∀ i, decode c = .instr i → step s = exec i { s with pending := rest }) ∧
    (s.pending = .command c :: rest → decode c = .illTyped → step s = .refused .illTypedOperand) ∧
    (s.pending = [] → step s = .next s)

/-- R63: the 229 opcode bytes outside R61's table are reserved, and a command with one ends with status IllegalOp, with
no result and no change of state, whatever operand record comes with it. Only R14's refusal of an operand over
`MAX_BUF_LEN` comes before it, as the last sentence of R253 has it (log entry 10). -/
def Obligations.ReservedOpcodeEndsWithIllegalOp : Prop :=
  (∀ (op : Byte) (o : Operands),
    decode { op := op, operands := o } = .reserved ↔
      (op.toNat = 0x00 ∨ (0x06 ≤ op.toNat ∧ op.toNat ≤ 0x0F) ∨ (0x12 ≤ op.toNat ∧ op.toNat ≤ 0x1F) ∨
        (0x23 ≤ op.toNat ∧ op.toNat ≤ 0x2F) ∨ op.toNat = 0x33 ∨ (0x37 ≤ op.toNat ∧ op.toNat ≤ 0x3F) ∨
        (0x46 ≤ op.toNat ∧ op.toNat ≤ 0x4F) ∨ op.toNat = 0x50 ∨ op.toNat = 0x51 ∨
        (0x55 ≤ op.toNat ∧ op.toNat ≤ 0x5F) ∨ (0x62 ≤ op.toNat ∧ op.toNat ≤ 0xFF))) ∧
  ((List.range 256).countP fun n => decide (decode { op := BitVec.ofNat 8 n, operands := .none } = .reserved)) = 229 ∧
  (∀ (s : State) (c : Command) (rest : List HostInput), s.pending = .command c :: rest → decode c = .reserved →
    ((∀ b ∈ operandBuffers c.operands, withinMax s.config b = true) →
      step s = .next { s with pending := rest, reply := some (.error .illegalOp) }) ∧
    ((∃ b ∈ operandBuffers c.operands, withinMax s.config b = false) → step s = .refused .bufferTooLong))

/-- R60 to R62: a command decodes to an instruction exactly when it is that instruction's encoding: decoding what is
encoded gives it back with every operand, and no other command decodes to it. -/
def Obligations.CommandDecodesExactlyToWhatEncodesIt : Prop :=
  ∀ (c : Command) (i : Instr), decode c = .instr i ↔ encode i = c

/-- R61: a few opcode bytes of the table, one for each family, with the operands their rows give them. -/
def Obligations.TableOpcodesDecodeToTheirRows : Prop :=
  (∀ o data, decode { op := 0x01, operands := .dataOffset data o } = .instr (.addrDec data o)) ∧
  (∀ data t, decode { op := 0x10, operands := .dataTime data t } = .instr (.frmDec data t)) ∧
  (∀ f, decode { op := 0x22, operands := .fragment f } = .instr (.fragPush f)) ∧
  (∀ data o v, decode { op := 0x35, operands := .dataOffsetValue data o v } = .instr (.wr24 data o v)) ∧
  (∀ data, decode { op := 0x45, operands := .data data } = .instr (.recDecGps data)) ∧
  (∀ r, decode { op := 0x53, operands := .record { kind := .globalSettings, fields := r } }
    = .instr (.recEncGlobal r)) ∧
  (∀ x y f, decode { op := 0x61, operands := .latLonForm x y f } = .instr (.geoEnc x y f))

/-! ### Station addresses -/

/-- R101 with R64 and R65: ADDR_DEC. Fewer than 7 bytes from the offset give InvalidLength; a callsign byte with bit 0
set or a character below 0x20 gives MalformedAddress; and else the six characters without their trailing spaces, the
SSID, the three flags and the last marker are returned, with 7 bytes consumed. -/
def Obligations.AddrDecReadsOneAddressField : Prop :=
  ∀ (s : State) (data : Bytes) (offset : Nat), withinMax s.config data = true →
    decode { op := 0x01, operands := .dataOffset data offset } = .instr (.addrDec data offset) ∧
    (data.length < offset + 7 →
      exec (.addrDec data offset) s = .next { s with reply := some (.error .invalidLength) }) ∧
    (offset + 7 ≤ data.length →
      (∃ i, i < 6 ∧ (natAt data (offset + i) % 2 = 1 ∨ natAt data (offset + i) / 2 < 0x20)) →
      exec (.addrDec data offset) s = .next { s with reply := some (.error .malformedAddress) }) ∧
    (offset + 7 ≤ data.length →
      (∀ i, i < 6 → natAt data (offset + i) % 2 = 0 ∧ 0x20 ≤ natAt data (offset + i) / 2) →
      ∀ (call : Bytes) (pad : Nat),
        call ++ List.replicate pad 0x20 = (List.range 6).map (fun i => BitVec.ofNat 8 (natAt data (offset + i) / 2)) →
        call.getLast? ≠ some 0x20 →
        exec (.addrDec data offset) s = .next { s with reply := some (.ok (.address
          { callsign := call, ssid := BitVec.ofNat 8 (natAt data (offset + 6) / 2 % 16),
            cr1 := decide (natAt data (offset + 6) / 128 % 2 = 1),
            cr2 := decide (natAt data (offset + 6) / 64 % 2 = 1),
            cr3 := decide (natAt data (offset + 6) / 32 % 2 = 1) }
          (decide (natAt data (offset + 6) % 2 = 1)) 7)) })

/-- R102 with R64 and R65: ADDR_ENC. A callsign longer than 6 bytes or an SSID above 15 gives InvalidAddress, and every
other address its 7-byte field. -/
def Obligations.AddrEncWritesOneAddressField : Prop :=
  ∀ (s : State) (a : StationAddress) (last : Bool), withinMax s.config a.callsign = true →
    decode { op := 0x02, operands := .addrLast a last } = .instr (.addrEnc a last) ∧
    ((6 < a.callsign.length ∨ 15 < a.ssid.toNat) →
      exec (.addrEnc a last) s = .next { s with reply := some (.error .invalidAddress) }) ∧
    (encodable a → exec (.addrEnc a last) s = .next { s with reply := some (.ok (.out (wireField a last))) })

/-- R103 with R73: ADDR_PARSE. A text of at most 9 bytes that is a callsign of 1 to 6 bytes without a dash gives SSID 0;
one that is such a callsign, a dash and digits of value at most 15 gives that SSID; the flags are false. Every other
text gives InvalidFormat. -/
def Obligations.AddrParseReadsTheTextForm : Prop :=
  ∀ (s : State) (text : Bytes), withinMax s.config text = true →
    decode { op := 0x03, operands := .text text } = .instr (.addrParse text) ∧
    (1 ≤ text.length → text.length ≤ 6 → (0x2D : Byte) ∉ text →
      exec (.addrParse text) s = .next { s with reply := some (.ok (.parsed
        { callsign := text, ssid := 0, cr1 := false, cr2 := false, cr3 := false })) }) ∧
    (∀ call digits : Bytes, text = call ++ 0x2D :: digits → 1 ≤ call.length → call.length ≤ 6 →
      (0x2D : Byte) ∉ call → digits ≠ [] → (∀ d ∈ digits, 0x30 ≤ d.toNat ∧ d.toNat ≤ 0x39) →
      text.length ≤ 9 →
      Nat.ofDigits 10 (digits.reverse.map fun d => d.toNat - 0x30) ≤ 15 →
      exec (.addrParse text) s = .next { s with reply := some (.ok (.parsed
        { callsign := call, ssid := BitVec.ofNat 8 (Nat.ofDigits 10 (digits.reverse.map fun d => d.toNat - 0x30)),
          cr1 := false, cr2 := false, cr3 := false })) }) ∧
    ((¬ (1 ≤ text.length ∧ text.length ≤ 6 ∧ (0x2D : Byte) ∉ text)) →
      (∀ call digits : Bytes, text = call ++ 0x2D :: digits → 1 ≤ call.length → call.length ≤ 6 →
        (0x2D : Byte) ∉ call → digits ≠ [] → (∀ d ∈ digits, 0x30 ≤ d.toNat ∧ d.toNat ≤ 0x39) →
        text.length ≤ 9 → 15 < Nat.ofDigits 10 (digits.reverse.map fun d => d.toNat - 0x30)) →
      exec (.addrParse text) s = .next { s with reply := some (.error .invalidFormat) })

/-- R104: ADDR_FMT never fails. It returns the callsign alone for SSID 0, and else the callsign, a dash and the SSID's
decimal digits with no leading zero. -/
def Obligations.AddrFmtWritesTheTextForm : Prop :=
  ∀ (s : State) (a : StationAddress), withinMax s.config a.callsign = true →
    decode { op := 0x04, operands := .addr a } = .instr (.addrFmt a) ∧
    (a.ssid = 0 → exec (.addrFmt a) s = .next { s with reply := some (.ok (.text a.callsign)) }) ∧
    (a.ssid ≠ 0 → exec (.addrFmt a) s = .next { s with reply := some (.ok (.text
      (a.callsign ++ 0x2D :: (Nat.digits 10 a.ssid.toNat).reverse.map fun d => BitVec.ofNat 8 (0x30 + d)))) })

/-- R105, R100: ADDR_SAME compares callsign and SSID byte by byte and nothing else. -/
def Obligations.AddrSameComparesCallsignAndSsid : Prop :=
  ∀ (s : State) (a b : StationAddress), withinMax s.config a.callsign = true → withinMax s.config b.callsign = true →
    decode { op := 0x05, operands := .addrPair a b } = .instr (.addrSame a b) ∧
    ∃ same : Bool, exec (.addrSame a b) s = .next { s with reply := some (.ok (.same same)) } ∧
      (same = true ↔ a.callsign = b.callsign ∧ a.ssid = b.ssid)

/-- R106 (a rule the spec derives): for every valid address and either marker, ADDR_ENC returns 7 bytes from which
ADDR_DEC returns the address, its flags and the marker. -/
def Obligations.AddressFieldRoundTrips : Prop :=
  ∀ (s : State) (a : StationAddress) (last : Bool), a.valid = true → withinMax s.config a.callsign = true →
    ∃ w : Bytes, exec (.addrEnc a last) s = .next { s with reply := some (.ok (.out w)) } ∧ w.length = 7 ∧
      ∀ s' : State, withinMax s'.config w = true →
        exec (.addrDec w 0) s' = .next { s' with reply := some (.ok (.address a last 7)) }

/-- R107 (a rule the spec derives): for every valid address with its flags false, ADDR_PARSE of ADDR_FMT is the
address. -/
def Obligations.AddressTextRoundTrips : Prop :=
  ∀ (s : State) (a : StationAddress), a.valid = true → a.cr1 = false → a.cr2 = false → a.cr3 = false →
    withinMax s.config a.callsign = true →
    ∃ text : Bytes, exec (.addrFmt a) s = .next { s with reply := some (.ok (.text text)) } ∧ text.length ≤ 9 ∧
      ∀ s' : State, withinMax s'.config text = true →
        exec (.addrParse text) s' = .next { s' with reply := some (.ok (.parsed a)) }

/-! ### Frames -/

/-- R131 with R67 and R68: FRM_DEC of an empty buffer, and of one that begins with 0x01. Three length-prefixed fields
give a ShortForm frame with one leading 0x20 and one leading 0x24 removed where present, the first control byte or 0x00,
SSID 0 and flags false; bytes after them are ignored; and where the fields are not all there, the status is
Truncated. -/
def Obligations.FrmDecReadsShortForm : Prop :=
  ∀ (s : State) (data : Bytes) (time : Time), withinMax s.config data = true →
    decode { op := 0x10, operands := .dataTime data time } = .instr (.frmDec data time) ∧
    (data = [] → exec (.frmDec data time) s = .next { s with reply := some (.error .truncated) }) ∧
    (∀ cf ctlf pf rest : Bytes, cf.length ≤ 255 → ctlf.length ≤ 255 → pf.length ≤ 255 →
      data = 0x01 :: BitVec.ofNat 8 cf.length :: cf ++ BitVec.ofNat 8 ctlf.length :: ctlf
        ++ BitVec.ofNat 8 pf.length :: pf ++ rest →
      exec (.frmDec data time) s = .next { s with reply := some (.ok (.frame (.shortForm
        { callsign := if cf.head? = some 0x20 then cf.tail else cf, ssid := 0, cr1 := false, cr2 := false,
          cr3 := false }
        (ctlf.headD 0x00) (if pf.head? = some 0x24 then pf.tail else pf) time))) }) ∧
    (data.head? = some 0x01 →
      (∀ cf ctlf pf rest : Bytes, cf.length ≤ 255 → ctlf.length ≤ 255 → pf.length ≤ 255 →
        data ≠ 0x01 :: BitVec.ofNat 8 cf.length :: cf ++ BitVec.ofNat 8 ctlf.length :: ctlf
          ++ BitVec.ofNat 8 pf.length :: pf ++ rest) →
      exec (.frmDec data time) s = .next { s with reply := some (.error .truncated) })

/-- R132 with R66: FRM_DEC of a buffer that does not begin with 0x01. `chain` are the fields before the last-marked one,
`tail` the bytes after it. Two or more addresses followed by a control byte give the Standard frame, with protocol_id 0
where no byte is left for it; no control byte gives Truncated; a chain of one address gives MalformedAddress, and so
does a field that ADDR_DEC refuses or that is not all there. -/
def Obligations.FrmDecReadsStandardForm : Prop :=
  ∀ (s : State) (time : Time) (chain : List (Bytes × StationAddress)),
    (∀ p ∈ chain, p.1.length = 7 ∧ decodeAddress p.1 0 = .ok (p.2, false)) →
    (∀ (field tail : Bytes) (a : StationAddress) (data : Bytes),
      field.length = 7 → decodeAddress field 0 = .ok (a, true) →
      data = (chain.map Prod.fst).flatten ++ field ++ tail → withinMax s.config data = true →
      (chain = [] → exec (.frmDec data time) s = .next { s with reply := some (.error .malformedAddress) }) ∧
      (chain ≠ [] → tail = [] →
        exec (.frmDec data time) s = .next { s with reply := some (.error .truncated) }) ∧
      (∀ control : Byte, chain ≠ [] → tail = [control] →
        exec (.frmDec data time) s = .next { s with reply := some (.ok (.frame (.standard
          (chain.map Prod.snd ++ [a]) control 0x00 [] time))) }) ∧
      (∀ (control protocolId : Byte) (payload : Bytes), chain ≠ [] → tail = control :: protocolId :: payload →
        exec (.frmDec data time) s = .next { s with reply := some (.ok (.frame (.standard
          (chain.map Prod.snd ++ [a]) control protocolId payload time))) })) ∧
    (∀ (bad data : Bytes) (e : ErrorKind), decodeAddress bad 0 = .error e →
      data = (chain.map Prod.fst).flatten ++ bad → data ≠ [] → data.head? ≠ some 0x01 →
      withinMax s.config data = true →
      exec (.frmDec data time) s = .next { s with reply := some (.error .malformedAddress) })

/-- R133: FRM_ENC answers NotEncodable for no address, for a ShortForm frame with another number of addresses than one,
and for a Standard frame with fewer than two, before any other check. -/
def Obligations.FrmEncChecksTheAddressCountFirst : Prop :=
  ∀ (s : State) (format : FrameFormat) (addresses : List StationAddress) (control protocolId : Byte) (payload : Bytes),
    withinMax s.config payload = true → (∀ a ∈ addresses, withinMax s.config a.callsign = true) →
    (addresses.length = 0 ∨ (format = .shortForm ∧ addresses.length ≠ 1) ∨
      (format = .standard ∧ addresses.length < 2)) →
    exec (.frmEnc format addresses control protocolId payload) s =
      .next { s with reply := some (.error .notEncodable) }

/-- R134 with R67: the ShortForm encoder. A callsign over 6 bytes gives InvalidAddress, else a payload over 254 bytes
gives NotEncodable, and else the frame has the fixed bytes 0x01, 0x20, 0x01, 0x21 and 0x24 at their places; SSID, flags
and the control and protocol operands are not emitted. -/
def Obligations.FrmEncWritesShortForm : Prop :=
  ∀ (s : State) (a : StationAddress) (control protocolId : Byte) (payload : Bytes),
    withinMax s.config payload = true → withinMax s.config a.callsign = true →
    (6 < a.callsign.length →
      exec (.frmEnc .shortForm [a] control protocolId payload) s =
        .next { s with reply := some (.error .invalidAddress) }) ∧
    (a.callsign.length ≤ 6 → 254 < payload.length →
      exec (.frmEnc .shortForm [a] control protocolId payload) s =
        .next { s with reply := some (.error .notEncodable) }) ∧
    (a.callsign.length ≤ 6 → payload.length ≤ 254 →
      exec (.frmEnc .shortForm [a] control protocolId payload) s = .next { s with reply := some (.ok (.out
        ([0x01, BitVec.ofNat 8 (1 + a.callsign.length), 0x20] ++ a.callsign ++
          [0x01, 0x21, BitVec.ofNat 8 (1 + payload.length), 0x24] ++ payload))) })

/-- R135 with R66: the Standard encoder, for the addresses `init` followed by `final`, at least two together. An address
that ADDR_ENC refuses gives InvalidAddress; else every field is emitted in order, only the last marked, then the two
header bytes `CTRL_EMIT` selects, then the payload. -/
def Obligations.FrmEncWritesStandardForm : Prop :=
  ∀ (s : State) (init : List StationAddress) (final : StationAddress) (control protocolId : Byte) (payload : Bytes),
    init ≠ [] → withinMax s.config payload = true →
    (∀ a ∈ init ++ [final], withinMax s.config a.callsign = true) →
    decode { op := 0x11, operands := .frame .standard (init ++ [final]) control protocolId payload } =
      .instr (.frmEnc .standard (init ++ [final]) control protocolId payload) ∧
    ((∃ a ∈ init ++ [final], ¬ encodable a) →
      exec (.frmEnc .standard (init ++ [final]) control protocolId payload) s =
        .next { s with reply := some (.error .invalidAddress) }) ∧
    ((∀ a ∈ init ++ [final], encodable a) →
      exec (.frmEnc .standard (init ++ [final]) control protocolId payload) s = .next { s with reply := some (.ok (.out
        ((init.map fun a => wireField a false).flatten ++ wireField final true ++
          (if s.config.ctrlEmit = .ctrlPid then [control, protocolId] else [0x00, control]) ++ payload))) })

/-- R136 (a rule the spec derives): under `CTRL_PID`, encoding two or more valid addresses with any control,
protocol_id and payload gives bytes that decode to the same frame, every flag and the order of addresses included.
Under `CTRL16_BE` the law fails as 90_conflicts.md C1 says: control 0x00 and protocol_id = the control come back. -/
def Obligations.StandardFrameRoundTrips : Prop :=
  ∀ (s : State) (addresses : List StationAddress) (control protocolId : Byte) (payload : Bytes),
    2 ≤ addresses.length → (∀ a ∈ addresses, a.valid = true) → withinMax s.config payload = true →
    (∀ a ∈ addresses, withinMax s.config a.callsign = true) →
    ∃ w : Bytes,
      exec (.frmEnc .standard addresses control protocolId payload) s =
        .next { s with reply := some (.ok (.out w)) } ∧
      ∀ (s' : State) (time : Time), withinMax s'.config w = true →
        (s.config.ctrlEmit = .ctrlPid →
          exec (.frmDec w time) s' =
            .next { s' with reply := some (.ok (.frame (.standard addresses control protocolId payload time))) }) ∧
        (s.config.ctrlEmit = .ctrl16be →
          exec (.frmDec w time) s' =
            .next { s' with reply := some (.ok (.frame (.standard addresses 0x00 control payload time))) })

/-- R137 (a rule the spec derives): a ShortForm frame of a callsign of at most 6 bytes and a payload of at most 254
decodes to that callsign and payload, with SSID 0, flags false and control 0x21. -/
def Obligations.ShortFrameRoundTrips : Prop :=
  ∀ (s : State) (a : StationAddress) (control protocolId : Byte) (payload : Bytes),
    a.callsign.length ≤ 6 → payload.length ≤ 254 → withinMax s.config payload = true →
    withinMax s.config a.callsign = true →
    ∃ w : Bytes,
      exec (.frmEnc .shortForm [a] control protocolId payload) s = .next { s with reply := some (.ok (.out w)) } ∧
      w.head? = some 0x01 ∧
      ∀ (s' : State) (time : Time), withinMax s'.config w = true →
        exec (.frmDec w time) s' = .next { s' with reply := some (.ok (.frame (.shortForm
          { callsign := a.callsign, ssid := 0, cr1 := false, cr2 := false, cr3 := false } 0x21 payload time))) }

/-- R27: FRM_DEC never returns a Standard frame with fewer than two addresses, and the timestamp of every frame it
returns is its operand. -/
def Obligations.DecodedStandardFrameHasTwoAddresses : Prop :=
  ∀ (s t : State) (data : Bytes) (time : Time), exec (.frmDec data time) s = .next t →
    (∀ addresses control protocolId payload stamp,
      t.reply = some (.ok (.frame (.standard addresses control protocolId payload stamp))) →
        2 ≤ addresses.length ∧ stamp = time) ∧
    (∀ address control payload stamp,
      t.reply = some (.ok (.frame (.shortForm address control payload stamp))) → stamp = time)

/-! ### Fragments and reassembly -/

/-- R160 with R70: FRAG_DEC. An empty buffer, and a lone header with bit 6 set, give Truncated; with bit 6 clear the data
are all the bytes after the header; with bit 6 set the last byte is the channel id. -/
def Obligations.FragDecReadsOneFragment : Prop :=
  ∀ (s : State) (data : Bytes), withinMax s.config data = true →
    decode { op := 0x20, operands := .data data } = .instr (.fragDec data) ∧
    (data = [] → exec (.fragDec data) s = .next { s with reply := some (.error .truncated) }) ∧
    (∀ (h : Byte) (body : Bytes), data = h :: body → h.toNat / 64 % 2 = 0 →
      exec (.fragDec data) s = .next { s with reply := some (.ok (.fragment
        (decide (128 ≤ h.toNat)) (BitVec.ofNat 6 (h.toNat % 64)) body none)) }) ∧
    (∀ h : Byte, data = [h] → h.toNat / 64 % 2 = 1 →
      exec (.fragDec data) s = .next { s with reply := some (.error .truncated) }) ∧
    (∀ (h channel : Byte) (body : Bytes), data = h :: (body ++ [channel]) → h.toNat / 64 % 2 = 1 →
      exec (.fragDec data) s = .next { s with reply := some (.ok (.fragment
        (decide (128 ≤ h.toNat)) (BitVec.ofNat 6 (h.toNat % 64)) body (some channel))) })

/-- R161 with R70: FRAG_ENC. An id above 63 gives NotEncodable; else the header, the data and the channel id where
there is one. The last clause is the inverse law the rule derives: FRAG_DEC gives the operands back. -/
def Obligations.FragEncWritesOneFragment : Prop :=
  ∀ (s : State) (isFinal : Bool) (id : Byte) (data : Bytes) (channel : Option Byte), withinMax s.config data = true →
    decode { op := 0x21, operands := .wireFragment isFinal id data channel } =
      .instr (.fragEnc isFinal id data channel) ∧
    (63 < id.toNat →
      exec (.fragEnc isFinal id data channel) s = .next { s with reply := some (.error .notEncodable) }) ∧
    (id.toNat ≤ 63 → ∃ w : Bytes,
      w = BitVec.ofNat 8 (128 * isFinal.toNat + 64 * channel.isSome.toNat + id.toNat) :: data ++ channel.toList ∧
      exec (.fragEnc isFinal id data channel) s = .next { s with reply := some (.ok (.out w)) } ∧
      ∀ s' : State, withinMax s'.config w = true →
        exec (.fragDec w) s' = .next { s' with reply := some (.ok (.fragment
          isFinal (BitVec.ofNat 6 id.toNat) data channel)) })

/-- R162, R163: FRAG_PUSH. The bytes are appended when the slot accumulates, is not closed and the id is the successor
modulo 64, and else they replace the slot's. Within `REASM_CAPACITY` the slot adopts the fragment, every other slot and
everything else is unchanged, and the result is the bytes exactly when the fragment is final; beyond it the model
faults. -/
def Obligations.FragPushContinuesOrRestarts : Prop :=
  ∀ (s : State) (frag : Fragment) (joined : Bytes), withinMax s.config frag.data = true →
    joined = (if (s.slot frag.channelId).st = .accumulating ∧
        frag.fragmentId.toNat = ((s.slot frag.channelId).lastId.toNat + 1) % 64 ∧
        (s.slot frag.channelId).closed = false
      then (s.slot frag.channelId).buf ++ frag.data else frag.data) →
    decode { op := 0x22, operands := .fragment frag } = .instr (.fragPush frag) ∧
    ((∀ m, s.config.reasmCapacity = some m → joined.length ≤ m) →
      ∃ t, exec (.fragPush frag) s = .next t ∧
        t.slot frag.channelId =
          { st := .accumulating, lastId := frag.fragmentId, closed := frag.isFinal, region := frag.regionId,
            buf := joined } ∧
        (∀ k : Byte, k ≠ frag.channelId → t.slot k = s.slot k) ∧
        t.pending = s.pending ∧ t.config = s.config ∧
        t.reply = some (.ok (.complete (if frag.isFinal = true then some joined else none)))) ∧
    (∀ m, s.config.reasmCapacity = some m → m < joined.length →
      exec (.fragPush frag) s = .fault .reasmOverflow)

/-- R164 with R26(b), R165 (rules the spec derives): a run of pushes with one key, the first of which does not continue
the slot, each other continuing the one before, and only the last final, returns `none` at every push but the last, and
there all the bytes in order: what the slot held before is gone without a signal. -/
def Obligations.ReassemblyReturnsTheWholeMessageOnce : Prop :=
  ∀ (s : State) (k : Byte) (first : Fragment) (rest : List Fragment) (final : Fragment) (frags : List Fragment),
    frags = first :: rest → frags.getLast? = some final →
    (∀ f ∈ frags, f.channelId = k ∧ withinMax s.config f.data = true) →
    List.IsChain (fun a b : Fragment => b.fragmentId.toNat = (a.fragmentId.toNat + 1) % 64) frags →
    (∀ f ∈ frags.dropLast, f.isFinal = false) → final.isFinal = true →
    ((s.slot k).st = .empty ∨ (s.slot k).closed = true ∨
      first.fragmentId.toNat ≠ ((s.slot k).lastId.toNat + 1) % 64) →
    (∀ m, s.config.reasmCapacity = some m → (frags.map Fragment.data).flatten.length ≤ m) →
    (∃ t : State, Host.Core.run Sys2Proof.core frags.length (s.withPushes frags) = .next t ∧
      t.reply = some (.ok (.complete (some (frags.map Fragment.data).flatten))) ∧
      t.slot k = { st := .accumulating, lastId := final.fragmentId, closed := true, region := final.regionId,
                   buf := (frags.map Fragment.data).flatten } ∧
      (∀ k' : Byte, k' ≠ k → t.slot k' = s.slot k') ∧ t.pending = [] ∧ t.config = s.config) ∧
    (∀ n, 0 < n → n < frags.length →
      ∃ u : State, Host.Core.run Sys2Proof.core n (s.withPushes frags) = .next u ∧
        u.reply = some (.ok (.complete none)))

/-- R46, R275 (rules the spec derives): a push to a slot that holds the same id, and a push to a closed slot, restart
it: the slot then holds the pushed bytes alone. -/
def Obligations.DuplicateAndClosedPushesRestart : Prop :=
  ∀ (s t : State) (frag : Fragment), exec (.fragPush frag) s = .next t →
    ((s.slot frag.channelId).lastId = frag.fragmentId ∨ (s.slot frag.channelId).closed = true) →
    (t.slot frag.channelId).buf = frag.data

/-- R49 (a rule the spec derives): two commands that are no pushes on one key commute. Where they run in one order they
run in the other, with the same replies, and end in the same store. -/
def Obligations.CommandsThatShareNoStateCommute : Prop :=
  ∀ (i j : Instr) (s a b : State),
    (∀ f g : Fragment, i = .fragPush f → j = .fragPush g → f.channelId ≠ g.channelId) →
    exec i s = .next a → exec j a = .next b →
    ∃ a' b' : State, exec j s = .next a' ∧ exec i a' = .next b' ∧
      b'.store = b.store ∧ a'.reply = b.reply ∧ b'.reply = a.reply

/-- R26(b) (a rule the spec derives), for every key and every list of pushes from an Empty slot: the slot holds the
metadata of the last push on its key and the bytes of every push since the last restart, in order; a key no push names
keeps its slot; and the last push of all is answered with its key's bytes exactly when it is final. -/
def Obligations.SlotHoldsThePushesSinceItsRestart : Prop :=
  ∀ (s t : State) (k : Byte) (frags : List Fragment), (s.slot k).st = .empty →
    Host.Core.run Sys2Proof.core frags.length (s.withPushes frags) = .next t →
    ((∀ f ∈ frags, f.channelId ≠ k) → t.slot k = s.slot k) ∧
    (∀ f ∈ (frags.filter fun f => f.channelId = k).getLast?,
      t.slot k =
        { st := .accumulating, lastId := f.fragmentId, closed := f.isFinal, region := f.regionId,
          buf := ((sinceRestart (frags.filter fun f => f.channelId = k)).map Fragment.data).flatten }) ∧
    (∀ f ∈ frags.getLast?, f.channelId = k →
      t.reply = some (.ok (.complete (if f.isFinal = true then some (t.slot k).buf else none))))

/-- R166 (the host's side, log entry 13): the host pushes a wire fragment under its trailing channel id, or under
`HOST_CHANNEL_KEY` where it has none and the host has chosen a key; with neither it has no key to push under. The push
writes that key's slot and no other. -/
def Obligations.WireFragmentIsPushedUnderItsChannel : Prop :=
  ∀ (s : State) (isFinal : Bool) (id : U6) (data : Bytes) (channel : Option Byte) (region : Region),
    (channel = none → s.config.hostChannelKey = none →
      hostFragment s.config isFinal id data channel region = none) ∧
    (∀ key : Byte, channel = some key ∨ (channel = none ∧ s.config.hostChannelKey = some key) →
      withinMax s.config data = true → s.config.reasmCapacity = none →
      ∃ (frag : Fragment) (t : State), hostFragment s.config isFinal id data channel region = some frag ∧
        exec (.fragPush frag) s = .next t ∧
        (t.slot key).lastId = id ∧ (t.slot key).closed = isFinal ∧ (t.slot key).region = region ∧
        ∀ k : Byte, k ≠ key → t.slot k = s.slot k)

/-! ### Byte helpers -/

/-- R190, R191, R192: the three reads. Truncated where fewer bytes remain than are read, and else the unsigned
big-endian value. -/
def Obligations.ReadsReturnTheBigEndianValue : Prop :=
  ∀ (s : State) (data : Bytes) (off : Nat), withinMax s.config data = true →
    decode { op := 0x30, operands := .dataOffset data off } = .instr (.rd16 data off) ∧
    decode { op := 0x31, operands := .dataOffset data off } = .instr (.rd24 data off) ∧
    decode { op := 0x32, operands := .dataOffset data off } = .instr (.rd32 data off) ∧
    (data.length < off + 2 → exec (.rd16 data off) s = .next { s with reply := some (.error .truncated) }) ∧
    (data.length < off + 3 → exec (.rd24 data off) s = .next { s with reply := some (.error .truncated) }) ∧
    (data.length < off + 4 → exec (.rd32 data off) s = .next { s with reply := some (.error .truncated) }) ∧
    (off + 2 ≤ data.length → ∃ v : U16, exec (.rd16 data off) s = .next { s with reply := some (.ok (.value16 v)) } ∧
      v.toNat = natAt data off * 256 + natAt data (off + 1)) ∧
    (off + 3 ≤ data.length → ∃ v : U24, exec (.rd24 data off) s = .next { s with reply := some (.ok (.value24 v)) } ∧
      v.toNat = natAt data off * 65536 + natAt data (off + 1) * 256 + natAt data (off + 2)) ∧
    (off + 4 ≤ data.length → ∃ v : U32, exec (.rd32 data off) s = .next { s with reply := some (.ok (.value32 v)) } ∧
      v.toNat = natAt data off * 16777216 + natAt data (off + 1) * 65536 + natAt data (off + 2) * 256 +
        natAt data (off + 3))

/-- R193, R194, R195: the three writes. Truncated where fewer bytes remain than are written, and else a copy of the
buffer with the value's low bytes at the offset, most significant first, and every other byte unchanged. -/
def Obligations.WritesReturnAPatchedCopy : Prop :=
  ∀ (s : State) (data : Bytes) (off : Nat) (v : U32), withinMax s.config data = true →
    decode { op := 0x34, operands := .dataOffsetValue data off v } = .instr (.wr16 data off v) ∧
    decode { op := 0x35, operands := .dataOffsetValue data off v } = .instr (.wr24 data off v) ∧
    decode { op := 0x36, operands := .dataOffsetValue data off v } = .instr (.wr32 data off v) ∧
    (data.length < off + 2 → exec (.wr16 data off v) s = .next { s with reply := some (.error .truncated) }) ∧
    (data.length < off + 3 → exec (.wr24 data off v) s = .next { s with reply := some (.error .truncated) }) ∧
    (data.length < off + 4 → exec (.wr32 data off v) s = .next { s with reply := some (.error .truncated) }) ∧
    (off + 2 ≤ data.length → exec (.wr16 data off v) s = .next { s with reply := some (.ok (.out
      (data.take off ++ [BitVec.ofNat 8 (v.toNat / 256), BitVec.ofNat 8 v.toNat] ++ data.drop (off + 2)))) }) ∧
    (off + 3 ≤ data.length → exec (.wr24 data off v) s = .next { s with reply := some (.ok (.out
      (data.take off ++ [BitVec.ofNat 8 (v.toNat / 65536), BitVec.ofNat 8 (v.toNat / 256), BitVec.ofNat 8 v.toNat] ++
        data.drop (off + 3)))) }) ∧
    (off + 4 ≤ data.length → exec (.wr32 data off v) s = .next { s with reply := some (.ok (.out
      (data.take off ++ [BitVec.ofNat 8 (v.toNat / 16777216), BitVec.ofNat 8 (v.toNat / 65536),
        BitVec.ofNat 8 (v.toNat / 256), BitVec.ofNat 8 v.toNat] ++ data.drop (off + 4)))) })

/-- R196 (a rule the spec derives): reading what was written at the same offset and width gives the value cut to that
width, and every byte outside is unchanged. -/
def Obligations.ReadAfterWriteReturnsTheValue : Prop :=
  ∀ (s s' : State) (data : Bytes) (off : Nat) (v : U32), withinMax s.config data = true →
    withinMax s'.config data = true →
    (off + 2 ≤ data.length → ∃ w : Bytes, exec (.wr16 data off v) s = .next { s with reply := some (.ok (.out w)) } ∧
      exec (.rd16 w off) s' = .next { s' with reply := some (.ok (.value16 (BitVec.ofNat 16 v.toNat))) } ∧
      w.length = data.length ∧ ∀ i, (i < off ∨ off + 2 ≤ i) → natAt w i = natAt data i) ∧
    (off + 3 ≤ data.length → ∃ w : Bytes, exec (.wr24 data off v) s = .next { s with reply := some (.ok (.out w)) } ∧
      exec (.rd24 w off) s' = .next { s' with reply := some (.ok (.value24 (BitVec.ofNat 24 v.toNat))) } ∧
      w.length = data.length ∧ ∀ i, (i < off ∨ off + 3 ≤ i) → natAt w i = natAt data i) ∧
    (off + 4 ≤ data.length → ∃ w : Bytes, exec (.wr32 data off v) s = .next { s with reply := some (.ok (.out w)) } ∧
      exec (.rd32 w off) s' = .next { s' with reply := some (.ok (.value32 v)) } ∧
      w.length = data.length ∧ ∀ i, (i < off ∨ off + 4 ≤ i) → natAt w i = natAt data i)

/-! ### Device records -/

/-- R212: the model accepts a layout exactly when its field names are distinct, every field lies inside the minimum
length, and, where it has an encoded length, that is no shorter, no bit belongs to two fields, and 0x00 is in every
string's trim set; and it refuses the record's commands under every other layout. -/
def Obligations.LayoutIsAcceptedExactlyWhenWellFormed : Prop :=
  ∀ L : Layout, (layoutWf L = true ↔ layoutConditions L) ∧
    (¬ layoutConditions L → ∀ (s : State) (data : Bytes) (rec : RecordMap), ∀ p ∈ recordCommands data rec,
      layoutOf s.config p.1 = some L → isRefused (exec p.2 s) = true)

/-- R213: the value decode gives a field of a well-formed layout in a window that is long enough, kind by kind. -/
def Obligations.FieldDecodeFollowsItsDescriptor : Prop :=
  ∀ (L : Layout) (data : Bytes), layoutWf L = true → L.minLen ≤ data.length →
    ∀ f ∈ L.fields, fieldFormula data f (decField data f)

/-- R214 with R219 to R224: under a well-formed layout of its record each of the six REC_DEC commands answers Truncated
below the minimum length and else the map of the layout's fields. -/
def Obligations.RecordDecodeReturnsEveryField : Prop :=
  RecDecRuns .capability 0x40 .recDecCap ∧ RecDecRuns .status 0x41 .recDecStatus ∧
  RecDecRuns .channel 0x42 .recDecChan ∧ RecDecRuns .globalSettings 0x43 .recDecGlobal ∧
  RecDecRuns .beacon 0x44 .recDecBss ∧ RecDecRuns .gps 0x45 .recDecGps

/-- R215 and R216, for the three records with an encoder (R225 to R227): under a well-formed layout with an encoded length
the command completes with exactly that many bytes; an integer is cut to its mask, a string to its field and padded with
0x00, and every bit no field owns is 0; a record value without one of the fields is refused (R216), and so is one with a
value of another kind (R258; that R216 covers it is DEDUCED, log entry 11). -/
def Obligations.RecordEncodeStoresEveryField : Prop :=
  RecEncRuns .channel 0x52 .recEncChan ∧ RecEncRuns .globalSettings 0x53 .recEncGlobal ∧
  RecEncRuns .beacon 0x54 .recEncBss

/-- R218's first law (a rule the spec derives) for the three records with an encoder: decoding an encoded canonical
record (R217) gives an equal record (R228) where its integers lie inside their masks, as they do for masks without
holes; in every case each field comes back as its encoding keeps it (R215; log entry 19). -/
def Obligations.CanonicalRecordsRoundTrip : Prop :=
  RecRoundTrips .channel .recEncChan .recDecChan ∧ RecRoundTrips .globalSettings .recEncGlobal .recDecGlobal ∧
  RecRoundTrips .beacon .recEncBss .recDecBss

/-- R218's second law (a rule the spec derives) for the three records with an encoder: encoding what was decoded gives
the window back on every bit a field owns where all trimmed padding is 0x00, and in every case on every bit a Bool, UInt
or Geo field owns, and 0 on every bit no field owns; a trimmed space comes back as 0x00 (V-D2; log entry 19). -/
def Obligations.ReencodedWindowsKeepTheirOwnedBits : Prop :=
  RecReencodes .channel .recEncChan .recDecChan ∧ RecReencodes .globalSettings .recEncGlobal .recDecGlobal ∧
  RecReencodes .beacon .recEncBss .recDecBss

/-- R217's last sentence (a rule the spec derives): every record REC_DECODE returns is canonical for its layout. -/
def Obligations.DecodedRecordsAreCanonical : Prop :=
  ∀ (L : Layout) (data : Bytes), layoutWf L = true → L.minLen ≤ data.length →
    ∃ fields : RecordMap, decodeRecord L data = .ok fields ∧ recordCanonical L fields = true

/-- R8: without a value for its layout a record command is refused, whatever its operand. Within `MAX_BUF_LEN` the
refusal names the layout; an ill-formed layout (R212) and, for REC_ENC, one with no encoded length (R225) are refused under their own names. The names, and the order among the refusals, are the model's (log entry 15). -/
def Obligations.RecordCommandsNeedAWellFormedLayout : Prop :=
  ∀ (s : State) (data : Bytes) (rec : RecordMap),
    (∀ p ∈ recordCommands data rec, layoutOf s.config p.1 = none → isRefused (exec p.2 s) = true) ∧
    (withinMax s.config data = true → (∀ b ∈ recordBuffers rec, withinMax s.config b = true) →
      (∀ p ∈ recordCommands data rec,
        (layoutOf s.config p.1 = none → exec p.2 s = .refused (.missingLayout p.1)) ∧
        (∀ L, layoutOf s.config p.1 = some L → layoutWf L = false → exec p.2 s = .refused (.illFormedLayout p.1))) ∧
      (∀ p ∈ [(RecordKind.channel, Instr.recEncChan rec), (.globalSettings, .recEncGlobal rec),
          (.beacon, .recEncBss rec)],
        ∀ L, layoutOf s.config p.1 = some L → layoutWf L = true → L.encLen = none →
          exec p.2 s = .refused (.noEncodedLength p.1)))

/-- R228: two record values are equal when they are of one type and every field is equal. -/
def Obligations.RecordsAreEqualByTypeAndField : Prop :=
  ∀ a b : DeviceRecord, sameRecord a b = true ↔
    a.kind = b.kind ∧ ∀ name : String, a.fields.lookup name = b.fields.lookup name

/-! ### Geo coordinates -/

/-- R229 with R71: GEO_DEC. Fewer than 6 bytes give Truncated; else latitude from bytes 0 to 2 and longitude from bytes
3 to 5, each the signed big-endian 24-bit value over the divisor 30000, whichever form. -/
def Obligations.GeoDecReadsTwoSignedValues : Prop :=
  ∀ (s : State) (data : Bytes) (form : GeoForm), withinMax s.config data = true →
    decode { op := 0x60, operands := .dataForm data form } = .instr (.geoDec data form) ∧
    (data.length < 6 → exec (.geoDec data form) s = .next { s with reply := some (.error .truncated) }) ∧
    (6 ≤ data.length → ∃ lat lon : GeoValue,
      exec (.geoDec data form) s = .next { s with reply := some (.ok (.geo lat lon)) } ∧
      lat.div = 30000 ∧ lon.div = 30000 ∧
      geoSigned lat = signedOf (natAt data 0 * 65536 + natAt data 1 * 256 + natAt data 2) ∧
      geoSigned lon = signedOf (natAt data 3 * 65536 + natAt data 4 * 256 + natAt data 5) ∧
      geoDegrees lat = (geoSigned lat : Rat) / 30000 ∧ geoDegrees lon = (geoSigned lon : Rat) / 30000)

/-- R230: GEO_ENC. The scaled values are the products with 30000, rounded where they are no integers; the rounding is
the free value `Config.geoRoundFraction`, and the statement holds whatever it is (log entry 5). A scaled value outside
-2^23 .. 2^23 - 1 gives NotEncodable, and else the six bytes are the two values modulo 2^24, big-endian. -/
def Obligations.GeoEncWritesTwoScaledValues : Prop :=
  ∀ (s : State) (lat lon : Rat) (form : GeoForm) (rl rn : Int),
    rl = (if (lat * 30000).den = 1 then (lat * 30000).num else Config.geoRoundFraction (lat * 30000)) →
    rn = (if (lon * 30000).den = 1 then (lon * 30000).num else Config.geoRoundFraction (lon * 30000)) →
    decode { op := 0x61, operands := .latLonForm lat lon form } = .instr (.geoEnc lat lon form) ∧
    ((rl < -8388608 ∨ 8388607 < rl ∨ rn < -8388608 ∨ 8388607 < rn) →
      exec (.geoEnc lat lon form) s = .next { s with reply := some (.error .notEncodable) }) ∧
    (-8388608 ≤ rl → rl ≤ 8388607 → -8388608 ≤ rn → rn ≤ 8388607 →
      exec (.geoEnc lat lon form) s = .next { s with reply := some (.ok (.out
        [BitVec.ofInt 8 (rl % 16777216 / 65536), BitVec.ofInt 8 (rl % 16777216 / 256), BitVec.ofInt 8 rl,
          BitVec.ofInt 8 (rn % 16777216 / 65536), BitVec.ofInt 8 (rn % 16777216 / 256), BitVec.ofInt 8 rn])) })

/-- R231 (a rule the spec derives): every 6-byte buffer decodes to a coordinate whose degrees encode to that buffer
again, in either form. -/
def Obligations.GeoBytesRoundTrip : Prop :=
  ∀ (s s' : State) (data : Bytes) (form form' : GeoForm), data.length = 6 → withinMax s.config data = true →
    ∃ lat lon : GeoValue, exec (.geoDec data form) s = .next { s with reply := some (.ok (.geo lat lon)) } ∧
      exec (.geoEnc (geoDegrees lat) (geoDegrees lon) form') s' =
        .next { s' with reply := some (.ok (.out data)) }

/-- R231 (a rule the spec derives): every pair of signed 24-bit values over 30000 encodes, and decodes to itself. -/
def Obligations.GeoValuesRoundTrip : Prop :=
  ∀ (s s' : State) (lat lon : S24) (form form' : GeoForm), (∀ b : Bytes, b.length = 6 → withinMax s'.config b = true) →
    ∃ w : Bytes,
      exec (.geoEnc (geoDegrees { raw := lat, div := 30000 }) (geoDegrees { raw := lon, div := 30000 }) form) s =
        .next { s with reply := some (.ok (.out w)) } ∧ w.length = 6 ∧
      exec (.geoDec w form') s' =
        .next { s' with reply := some (.ok (.geo { raw := lat, div := 30000 } { raw := lon, div := 30000 })) }

/-! ### The whole machine -/

/-- R6, R46, R22: a command other than FRAG_PUSH changes nothing but the reply, and what it answers depends on nothing
but its operands and the configuration. -/
def Obligations.PureCommandsReadAndWriteNoState : Prop :=
  ∀ (i : Instr) (s s' : State), isPush i = false → s.config = s'.config →
    (∀ t, exec i s = .next t → t = { s with reply := t.reply }) ∧
    repliedWith (exec i s) = repliedWith (exec i s') ∧ completes (exec i s) = completes (exec i s')

/-- R252 (a rule the spec derives): a command that ends with an error status changes nothing but the reply, which is
that status alone. -/
def Obligations.ErrorChangesNoState : Prop :=
  ∀ (i : Instr) (s t : State) (e : ErrorKind), exec i s = .next t → t.reply = some (.error e) →
    t = { s with reply := some (.error e) }

/-- R251 (a rule the spec derives): the statuses other than OK that each command can return are the listed ones. -/
def Obligations.OnlyListedStatusesOccur : Prop :=
  ∀ (i : Instr) (s t : State), exec i s = .next t →
    (∃ r, t.reply = some (.ok r)) ∨ (∃ e, t.reply = some (.error e) ∧ e ∈ listedErrors i)

/-- R258 and the rules it rests on, and no other reason to stop: the model refuses a command exactly when it is not
well-formed for the configuration (R14, R8, R212, R225, R216; that nested buffers count is log entry 9, and which record
operands are ill-typed beside one that misses a field is log entry 11), and faults exactly when a push would pass
`REASM_CAPACITY` (R162); in every other case the command completes. -/
def Obligations.CommandsCompleteUnlessR258Stops : Prop :=
  ∀ (i : Instr) (s : State),
    (isRefused (exec i s) = true ↔ i.wf s.config = false) ∧
    (exec i s = .fault .reasmOverflow ↔
      i.wf s.config = true ∧ ∃ frag, i = .fragPush frag ∧
        withinCapacity s.config (joinedBuffer (s.slot frag.channelId) frag).length = false) ∧
    (i.wf s.config = true →
      (∀ frag, i = .fragPush frag →
        withinCapacity s.config (joinedBuffer (s.slot frag.channelId) frag).length = true) →
      ∃ t, exec i s = .next t)

/-- R14: a command with a Bytes operand longer than `MAX_BUF_LEN` is refused: an instruction's meaning, under the name
bufferTooLong even where another refusal applies as well (the order among refusals is log entry 15), and every step that
takes such a command, with a reserved opcode (log entry 10) or an ill-typed operand record too. That nested buffers count
as operands is the model's choice (log entry 9). -/
def Obligations.OversizedOperandIsRefused : Prop :=
  ∀ (s : State) (m : Nat) (b : Bytes), s.config.maxBufLen = some m → m < b.length →
    (∀ i : Instr, b ∈ i.buffers → exec i s = .refused .bufferTooLong) ∧
    (∀ (c : Command) (rest : List HostInput), s.pending = .command c :: rest → b ∈ operandBuffers c.operands →
      isRefused (step s) = true)

/-- R6, R48, R272: no step changes the configuration, and a step takes at most the first pending input. That the
configuration and the issued inputs stand in State is the model's form of it (log entries 1, 3, 12). -/
def Obligations.StepKeepsTheConfiguration : Prop :=
  ∀ s t : State, step s = .next t → t.config = s.config ∧ t.pending = s.pending.tail

/-- R26(c), with R162: every step keeps every accumulating slot within `REASM_CAPACITY`. -/
def Obligations.StepKeepsSlotsWithinCapacity : Prop :=
  ∀ s t : State, s.Inv → step s = .next t → t.Inv

/-- R26(c) at reset, under every configuration: no slot accumulates yet. -/
def Obligations.ResetMeetsTheCapacityInvariant : Prop :=
  ∀ c : Config, (State.resetWith c).Inv

/-- R26(a), R31, R25 (R31 a rule the spec derives): the fields of an Empty slot, the bytes of a closed slot and every
region are never read. Two states that differ only there answer every step alike, and stay so. -/
def Obligations.UnreadSlotFieldsAreInvisible : Prop :=
  ∀ s t : State, s.agrees t → outcomesAgree (step s) (step t)

/-- R224 with R213: under a well-formed GPS layout REC_DEC.GPS completes on every window that is long enough, and its
record holds latitude and longitude, each the signed big-endian 24-bit value of its three bytes with the divisor 30000.
That the layout names the two fields is the model's form of it (log entry 21). -/
def Obligations.GpsRecordHoldsItsPosition : Prop :=
  ∀ (s : State) (l : GpsLayout) (data : Bytes), s.config.layoutGps = some l → layoutWf (gpsLayout l) = true →
    withinMax s.config data = true → l.minLen ≤ data.length →
    ∃ (fields : RecordMap) (lat lon : GeoValue),
      exec (.recDecGps data) s = .next { s with reply := some (.ok (.record { kind := .gps, fields := fields })) } ∧
      fields.lookup l.latitude.name = some (.geo lat) ∧ fields.lookup l.longitude.name = some (.geo lon) ∧
      lat.div = 30000 ∧ lon.div = 30000 ∧ geoSigned lat = signedOf (beSum data l.latitude.off 3) ∧
      geoSigned lon = signedOf (beSum data l.longitude.off 3)
end

