-- ==== Sys2Proof/Laws/Bytes.lean ====
section
/-! SUPPORT. The byte operations: lengths, what a read returns after a write, the value of written bytes, and trimming. -/

namespace Sys2Proof.Machine

@[simp] theorem length_beBytes (n v : Nat) : (beBytes n v).length = n := by
  induction n with
  | zero => rfl
  | succ n ih => simp [beBytes, ih]

@[simp] theorem length_zeros (n : Nat) : (zeros n).length = n := by simp [zeros]

theorem length_memRead (b : Bytes) (off n : Nat) (h : off + n ≤ b.length) : (memRead b off n).length = n := by
  simp [memRead]; omega

/-- A write keeps the buffer's length. -/
theorem length_memWrite (b : Bytes) (off n v : Nat) (h : off + n ≤ b.length) : (memWrite b off n v).length = b.length := by
  simp [memWrite]; omega

/-- Reading where a write went gives the written bytes. -/
theorem memRead_memWrite (b : Bytes) (off n v : Nat) (h : off + n ≤ b.length) :
    memRead (memWrite b off n v) off n = beBytes n v := by
  have hoff : (b.take off).length = off := by simp; omega
  unfold memRead memWrite
  rw [List.append_assoc, List.drop_append_of_le_length (by omega), List.drop_of_length_le (by omega), List.nil_append,
    List.take_append_of_le_length (by simp), List.take_of_length_le (by simp)]

/-- A byte outside a write is unchanged. -/
theorem byteAt_memWrite_outside (b : Bytes) (off n v i : Nat) (h : off + n ≤ b.length) (hi : i < off ∨ off + n ≤ i) :
    byteAt (memWrite b off n v) i = byteAt b i := by
  have hoff : (b.take off).length = off := by simp; omega
  unfold byteAt memWrite
  simp only [List.getD_eq_getElem?_getD, List.append_assoc]
  rcases hi with hi | hi
  · rw [List.getElem?_append_left (by omega), List.getElem?_take_of_lt hi]
  · rw [List.getElem?_append_right (by omega), List.getElem?_append_right (by simp; omega), List.getElem?_drop]
    simp only [hoff, length_beBytes]
    congr 2; omega

/-- A byte inside a write is that byte of the written value. -/
theorem byteAt_memWrite_inside (b : Bytes) (off n v i : Nat) (h : off + n ≤ b.length) (hi : off ≤ i) (hn : i < off + n) :
    byteAt (memWrite b off n v) i = byteAt (beBytes n v) (i - off) := by
  have hoff : (b.take off).length = off := by simp; omega
  unfold byteAt memWrite
  simp only [List.getD_eq_getElem?_getD, List.append_assoc]
  rw [List.getElem?_append_right (by omega), List.getElem?_append_left (by simp; omega), hoff]

theorem beValue_foldl (b : Bytes) (acc : Nat) :
    b.foldl (fun acc x => acc * 256 + x.toNat) acc = acc * 256 ^ b.length + beValue b := by
  induction b generalizing acc with
  | nil => simp [beValue]
  | cons x xs ih =>
    simp only [List.foldl_cons, beValue, List.length_cons, Nat.zero_mul, Nat.zero_add]
    rw [ih, ih x.toNat]; ring

/-- The first byte is the most significant (R41). -/
@[simp] theorem beValue_cons (x : Byte) (xs : Bytes) : beValue (x :: xs) = x.toNat * 256 ^ xs.length + beValue xs := by
  rw [← beValue_foldl]; simp [beValue]

@[simp] theorem beValue_nil : beValue [] = 0 := rfl

/-- The value of the bytes written for `v` is `v`, cut to their width. -/
theorem beValue_beBytes (n v : Nat) : beValue (beBytes n v) = v % 256 ^ n := by
  induction n with
  | zero => simp [beBytes, Nat.mod_one]
  | succ n ih =>
    rw [beBytes, beValue_cons, ih, length_beBytes, BitVec.toNat_ofNat, show (2 : Nat) ^ 8 = 256 from rfl, pow_succ,
      Nat.mod_mul, Nat.mul_comm, Nat.add_comm]

/-- The value of a buffer is below `256 ^ length`. -/
theorem beValue_lt (b : Bytes) : beValue b < 256 ^ b.length := by
  induction b with
  | nil => simp
  | cons x xs ih =>
    have hx : x.toNat < 256 := x.isLt
    rw [beValue_cons, List.length_cons, pow_succ]
    nlinarith

/-- Writing the value of a buffer writes the buffer. -/
theorem beBytes_beValue (b : Bytes) : beBytes b.length (beValue b) = b := by
  induction b with
  | nil => rfl
  | cons x xs ih =>
    have hlt := beValue_lt xs
    have hpos : 0 < 256 ^ xs.length := Nat.pow_pos (by decide)
    have key : ∀ n v c, beBytes n (c * 256 ^ n + v) = beBytes n v := by
      intro n
      induction n with
      | zero => intros; rfl
      | succ n ihn =>
        intro v c
        have e : c * 256 ^ (n + 1) + v = (c * 256) * 256 ^ n + v := by ring
        rw [beBytes, beBytes, e, ihn, Nat.add_comm, Nat.add_mul_div_right _ _ (Nat.pow_pos (by decide))]
        congr 1
        apply BitVec.eq_of_toNat_eq
        simp
    rw [List.length_cons, beBytes, beValue_cons, key, ih, Nat.add_comm,
      Nat.add_mul_div_right _ _ hpos, Nat.div_eq_of_lt hlt, Nat.zero_add]
    congr 1
    apply BitVec.eq_of_toNat_eq
    simp

/-- `rtrim` is the longest prefix after which every byte is trimmed (R213): the prefix before the padding, when it does
not end in a trimmed byte itself. -/
theorem rtrim_append (p : Byte → Bool) (a pad : Bytes) (hpad : ∀ x ∈ pad, p x = true)
    (hlast : ∀ x, a.getLast? = some x → p x = false) : rtrim p (a ++ pad) = a := by
  unfold rtrim
  rw [List.reverse_append, List.dropWhile_append_of_pos (by simpa using hpad)]
  cases h : a.reverse with
  | nil => simp_all
  | cons x xs =>
    have hx : a.getLast? = some x := by rw [← List.head?_reverse, h]; rfl
    rw [List.dropWhile_cons, hlast x hx]
    simp [← h]

/-- Every buffer is its trimmed prefix and its padding. -/
theorem rtrim_split (p : Byte → Bool) (b : Bytes) :
    ∃ pad, b = rtrim p b ++ pad ∧ (∀ x ∈ pad, p x = true) ∧ ∀ x, (rtrim p b).getLast? = some x → p x = false := by
  refine ⟨(b.reverse.takeWhile p).reverse, ?_, ?_, ?_⟩
  · unfold rtrim
    rw [← List.reverse_append, List.takeWhile_append_dropWhile, List.reverse_reverse]
  · intro x hx
    exact List.mem_takeWhile_imp (by simpa using hx)
  · intro x hx
    unfold rtrim at hx
    rw [List.getLast?_reverse] at hx
    have := List.head?_dropWhile_not p b.reverse
    rw [hx] at this
    simpa using this

end Sys2Proof.Machine
end

