-- ==== Sys2Proof/Laws/State.lean ====
section
/-! SUPPORT. The small lemmas of State: reading a slot after each update, and each field under each update. -/

namespace Sys2Proof.Machine

@[simp] theorem State.slot_setSlot_same (s : State) (k : Byte) (v : Slot) : (s.setSlot k v).slot k = v := by
  simp [State.slot, State.setSlot]

theorem State.slot_setSlot_other (s : State) {k j : Byte} (v : Slot) (h : j ≠ k) : (s.setSlot k v).slot j = s.slot j := by
  have hn : k.toNat ≠ j.toNat := fun e => h (BitVec.eq_of_toNat_eq e.symm)
  simp [State.slot, State.setSlot, hn]

theorem State.slot_setSlot (s : State) (k j : Byte) (v : Slot) :
    (s.setSlot k v).slot j = if j = k then v else s.slot j := by
  split
  · subst_vars; exact s.slot_setSlot_same _ v
  · exact s.slot_setSlot_other v ‹_›

@[simp] theorem State.setSlot_pending (s : State) (k : Byte) (v : Slot) : (s.setSlot k v).pending = s.pending := rfl
@[simp] theorem State.setSlot_reply (s : State) (k : Byte) (v : Slot) : (s.setSlot k v).reply = s.reply := rfl
@[simp] theorem State.setSlot_config (s : State) (k : Byte) (v : Slot) : (s.setSlot k v).config = s.config := rfl

@[simp] theorem State.answer_store (s : State) (r : Reply) : (s.answer r).store = s.store := rfl
@[simp] theorem State.answer_slot (s : State) (r : Reply) (k : Byte) : (s.answer r).slot k = s.slot k := rfl
@[simp] theorem State.answer_pending (s : State) (r : Reply) : (s.answer r).pending = s.pending := rfl
@[simp] theorem State.answer_reply (s : State) (r : Reply) : (s.answer r).reply = some r := rfl
@[simp] theorem State.answer_config (s : State) (r : Reply) : (s.answer r).config = s.config := rfl

@[simp] theorem State.issue_store (s : State) (c : Command) : (s.issue c).store = s.store := rfl
@[simp] theorem State.issue_pending (s : State) (c : Command) : (s.issue c).pending = .command c :: s.pending := rfl
@[simp] theorem State.issue_reply (s : State) (c : Command) : (s.issue c).reply = s.reply := rfl
@[simp] theorem State.issue_config (s : State) (c : Command) : (s.issue c).config = s.config := rfl

@[simp] theorem State.slot_withPending (s : State) (p : List HostInput) (k : Byte) :
    ({ s with pending := p } : State).slot k = s.slot k := rfl
@[simp] theorem State.slot_withReply (s : State) (r : Option Reply) (k : Byte) :
    ({ s with reply := r } : State).slot k = s.slot k := rfl
@[simp] theorem State.setSlot_withPending (s : State) (p : List HostInput) (k : Byte) (v : Slot) :
    ({ s with pending := p } : State).setSlot k v = { s.setSlot k v with pending := p } := rfl

@[simp] theorem State.slot_resetWith (c : Config) (k : Byte) : (State.resetWith c).slot k = Slot.reset := by
  simp [State.slot, State.resetWith]
@[simp] theorem State.resetWith_pending (c : Config) : (State.resetWith c).pending = [] := rfl
@[simp] theorem State.resetWith_reply (c : Config) : (State.resetWith c).reply = none := rfl
@[simp] theorem State.resetWith_config (c : Config) : (State.resetWith c).config = c := rfl

@[simp] theorem State.slot_resetUnit (s : State) (k : Byte) : s.resetUnit.slot k = Slot.reset :=
  State.slot_resetWith s.config k
@[simp] theorem State.resetUnit_pending (s : State) : s.resetUnit.pending = s.pending := rfl
@[simp] theorem State.resetUnit_reply (s : State) : s.resetUnit.reply = none := rfl
@[simp] theorem State.resetUnit_config (s : State) : s.resetUnit.config = s.config := rfl

/-- States are equal when every slot and the three other fields are. -/
theorem State.ext_slots {s t : State} (hs : ∀ k : Byte, s.slot k = t.slot k) (hp : s.pending = t.pending)
    (hr : s.reply = t.reply) (hc : s.config = t.config) : s = t := by
  have hstore : s.store = t.store := by
    apply Vector.ext
    intro i hi
    have := hs (BitVec.ofNat 8 i)
    have hm : i % 256 = i := Nat.mod_eq_of_lt hi
    simpa [State.slot, hm] using this
  cases s; cases t; simp_all

end Sys2Proof.Machine
end

