-- ==== Sys2Proof/Laws/Ops.lean ====
section
/-! SUPPORT. What each shared operation can do, said once: `guarded`, `finish`, `withLayout`, `fetch`, the push, and one
step. Later proofs cite these and do not unfold the operations. -/

namespace Sys2Proof.Machine

theorem guarded_of_fits {s : State} {bs : List Bytes} (h : ∀ b ∈ bs, withinMax s.config b = true) (k : StepOutcome) :
    guarded s bs k = k := by
  simp [guarded, List.all_eq_true.mpr h]

/-- Either every buffer fits and the command goes on, or it is refused (R14). -/
theorem guarded_cases (s : State) (bs : List Bytes) (k : StepOutcome) :
    ((∀ b ∈ bs, withinMax s.config b = true) ∧ guarded s bs k = k) ∨
      ((∃ b ∈ bs, withinMax s.config b = false) ∧ guarded s bs k = .refused .bufferTooLong) := by
  by_cases h : ∀ b ∈ bs, withinMax s.config b = true
  · exact .inl ⟨h, guarded_of_fits h k⟩
  · refine .inr ⟨by simpa using h, ?_⟩
    simp only [guarded]
    rw [if_neg (fun hall => h (List.all_eq_true.mp hall))]

theorem guarded_next {s t : State} {bs : List Bytes} {k : StepOutcome} (h : guarded s bs k = .next t) : k = .next t := by
  rcases guarded_cases s bs k with ⟨-, e⟩ | ⟨-, e⟩ <;> simp_all

@[simp] theorem finish_ok (s : State) (r : Result) : finish s (.ok r) = .next (s.answer (.ok r)) := rfl
@[simp] theorem finish_error (s : State) (e : ErrorKind) : finish s (.error e) = .next (s.answer (.error e)) := rfl
@[simp] theorem raise_eq (s : State) (e : ErrorKind) : raise s e = .next (s.answer (.error e)) := rfl

/-- Ending a command always gives a next state, which differs from the one before in the reply alone (R252). -/
theorem finish_next {s t : State} {r : Except ErrorKind Result} (h : finish s r = .next t) : t = s.answer (replyOf r) := by
  simpa [finish] using h.symm

/-- A record command goes on with a well-formed layout, and is refused without one (R8, R212). -/
theorem withLayout_cases (s : State) (kind : RecordKind) (k : Layout → StepOutcome) :
    (∃ L, layoutOf s.config kind = some L ∧ layoutWf L = true ∧ withLayout s kind k = k L) ∨
      (layoutOf s.config kind = none ∧ withLayout s kind k = .refused (.missingLayout kind)) ∨
      ∃ L, layoutOf s.config kind = some L ∧ layoutWf L = false ∧
        withLayout s kind k = .refused (.illFormedLayout kind) := by
  unfold withLayout
  cases h : layoutOf s.config kind with
  | none => exact .inr (.inl ⟨rfl, rfl⟩)
  | some L =>
    cases hw : layoutWf L with
    | true => exact .inl ⟨L, rfl, hw, by simp [hw]⟩
    | false => exact .inr (.inr ⟨L, rfl, hw, by simp [hw]⟩)

@[simp] theorem fetch_nil {s : State} (h : s.pending = []) : fetch s = none := by simp [fetch, h]
@[simp] theorem fetch_cons {s : State} {i : HostInput} {rest : List HostInput} (h : s.pending = i :: rest) :
    fetch s = some (i, { s with pending := rest }) := by simp [fetch, h]

/-- The push either adopts the fragment into its slot and answers, or meets the model fault (R162, R258). -/
theorem pushFragment_cases (frag : Fragment) (s : State) :
    (withinCapacity s.config (joinedBuffer (s.slot frag.channelId) frag).length = true ∧
      pushFragment frag s = .next ((s.setSlot frag.channelId
        (adoptedSlot frag (joinedBuffer (s.slot frag.channelId) frag))).answer
          (.ok (.complete (if frag.isFinal then some (joinedBuffer (s.slot frag.channelId) frag) else none))))) ∨
    (withinCapacity s.config (joinedBuffer (s.slot frag.channelId) frag).length = false ∧
      pushFragment frag s = .fault .reasmOverflow) := by
  unfold pushFragment
  cases h : withinCapacity s.config (joinedBuffer (s.slot frag.channelId) frag).length
  · exact .inr ⟨rfl, by simp [h]⟩
  · exact .inl ⟨rfl, by simp [h]⟩

/-- R163's continuation test in numbers. -/
theorem continuesSlot_iff (slot : Slot) (frag : Fragment) :
    continuesSlot slot frag = true ↔
      slot.st = .accumulating ∧ frag.fragmentId.toNat = (slot.lastId.toNat + 1) % 64 ∧ slot.closed = false := by
  have : frag.fragmentId = slot.lastId + 1 ↔ frag.fragmentId.toNat = (slot.lastId.toNat + 1) % 64 := by
    rw [← BitVec.toNat_inj, BitVec.toNat_add]; rfl
  rw [← this]
  simp [continuesSlot, and_assoc]

/-- The waiting unit, the host's reset, and a command: what one step can be (R6, R271). -/
theorem step_cases (s : State) :
    (s.pending = [] ∧ step s = .next s) ∨
    (∃ rest, s.pending = .reset :: rest ∧ step s = .next ({ s with pending := rest } : State).resetUnit) ∨
    ∃ c rest, s.pending = .command c :: rest ∧ step s = perform c { s with pending := rest } := by
  cases h : s.pending with
  | nil => exact .inl ⟨rfl, by simp [step, h, idle]⟩
  | cons i rest =>
    cases i with
    | reset => exact .inr (.inl ⟨rest, rfl, by simp [step, fetch_cons h]⟩)
    | command c => exact .inr (.inr ⟨c, rest, rfl, by simp [step, fetch_cons h]⟩)

/-- A reserved opcode ends with IllegalOp, or is refused for an operand over the limit (R63, R14). -/
theorem reservedOpcode_cases (o : Operands) (s : State) :
    ((∀ b ∈ operandBuffers o, withinMax s.config b = true) ∧
      reservedOpcode o s = .next (s.answer (.error .illegalOp))) ∨
    ((∃ b ∈ operandBuffers o, withinMax s.config b = false) ∧ reservedOpcode o s = .refused .bufferTooLong) :=
  guarded_cases s (operandBuffers o) (raise s .illegalOp)

/-- Performing a command: an instruction's meaning, what a reserved opcode gives, or a refusal (R63, R258). -/
theorem perform_cases (c : Command) (s : State) :
    (∃ i, decode c = .instr i ∧ perform c s = exec i s) ∨
    (decode c = .reserved ∧ perform c s = reservedOpcode c.operands s) ∨
    (decode c = .illTyped ∧ perform c s = .refused .illTypedOperand) := by
  cases h : decode c with
  | instr i => exact .inl ⟨i, rfl, by simp [perform, h]⟩
  | reserved => exact .inr (.inl ⟨rfl, by simp [perform, h]⟩)
  | illTyped => exact .inr (.inr ⟨rfl, by simp [perform, h]⟩)

end Sys2Proof.Machine
end

