-- ==== Sys2Proof/Laws/Codec.lean ====
section
/-! SUPPORT. What the codecs' small operations compute: the opcode table, byte checks and header bits in arithmetic, one
ShortForm field, one link of an address chain, and the signed 24-bit reading. -/

namespace Sys2Proof

/-- The table row of an operation's opcode byte is the operation (R61). -/
theorem Opcode.ofByte_toByte (op : Opcode) : Opcode.ofByte op.toByte = some op := by cases op <;> rfl

/-- An opcode byte with a row is that row's byte. -/
theorem Opcode.toByte_of_ofByte {b : Byte} {op : Opcode} (h : Opcode.ofByte b = some op) : op.toByte = b := by
  have rows : ∀ n : Fin 256, ∀ op, Opcode.ofByte (BitVec.ofFin n) = some op → op.toByte = BitVec.ofFin n := by
    intro n op; revert n; cases op <;> decide +kernel
  exact rows b.toFin op h

namespace Machine

/-- A statement about a byte, from its 256 values. -/
theorem forall_byte {P : Byte → Prop} (h : ∀ n : Fin 256, P (BitVec.ofFin n)) (b : Byte) : P b := h b.toFin

theorem natAt_eq_byteAt (b : Bytes) (i : Nat) : natAt b i = (byteAt b i).toNat := rfl

/-- The bytes a read gives, one by one. -/
theorem memRead_eq_map {b : Bytes} {off n : Nat} (h : off + n ≤ b.length) :
    memRead b off n = (List.range n).map fun i => byteAt b (off + i) := by
  unfold memRead byteAt
  apply List.ext_getElem
  · simp; omega
  · intro i h1 h2
    simp at h1 h2
    simp [List.getElem?_eq_getElem (show off + i < b.length by omega)]

/-- R101's check of a callsign byte, in arithmetic. -/
theorem callsignByteOk_iff (b : Byte) : callsignByteOk b = true ↔ b.toNat % 2 = 0 ∧ 0x20 ≤ b.toNat / 2 := by
  revert b; exact forall_byte (by decide +kernel)

theorem isDigit_iff (b : Byte) : isDigit b = true ↔ 0x30 ≤ b.toNat ∧ b.toNat ≤ 0x39 := by
  revert b; exact forall_byte (by decide +kernel)

theorem shiftRight_one (b : Byte) : b >>> 1 = BitVec.ofNat 8 (b.toNat / 2) := by
  revert b; exact forall_byte (by decide +kernel)

theorem shiftLeft_one (b : Byte) : b <<< 1 = BitVec.ofNat 8 (2 * b.toNat) := by
  revert b; exact forall_byte (by decide +kernel)

/-- The fields of an address trailer byte, in arithmetic (R64). -/
theorem trailer_fields (b : Byte) :
    trailerSsid b = BitVec.ofNat 8 (b.toNat / 2 % 16) ∧ trailerCr1 b = decide (b.toNat / 128 % 2 = 1) ∧
      trailerCr2 b = decide (b.toNat / 64 % 2 = 1) ∧ trailerCr3 b = decide (b.toNat / 32 % 2 = 1) ∧
      trailerIsLast b = decide (b.toNat % 2 = 1) := by
  revert b; exact forall_byte (by decide +kernel)

/-- The address trailer byte as a sum (R102). -/
theorem addressTrailer_eq (a : StationAddress) (last : Bool) :
    addressTrailer a last = BitVec.ofNat 8
      (128 * a.cr1.toNat + 64 * a.cr2.toNat + 32 * a.cr3.toNat + 2 * (a.ssid.toNat % 16) + last.toNat) := by
  obtain ⟨call, ssid, c1, c2, c3⟩ := a
  have bits : ∀ ssid : Byte, ∀ c1 c2 c3 last : Bool,
      (flagBit c1 0x80 ||| flagBit c2 0x40 ||| flagBit c3 0x20 ||| ((ssid &&& 0x0F) <<< 1) ||| flagBit last 0x01) =
        BitVec.ofNat 8
          (128 * c1.toNat + 64 * c2.toNat + 32 * c3.toNat + 2 * (ssid.toNat % 16) + last.toNat) := by
    apply forall_byte; decide +kernel
  exact bits ssid c1 c2 c3 last

/-- The fields of a fragment header byte, in arithmetic (R70). -/
theorem header_fields (h : Byte) :
    headerIsFinal h = decide (128 ≤ h.toNat) ∧ headerHasChannelId h = decide (h.toNat / 64 % 2 = 1) ∧
      headerFragmentId h = BitVec.ofNat 6 (h.toNat % 64) := by
  revert h; exact forall_byte (by decide +kernel)

/-- The fragment header byte as a sum, for an id that fits (R70). -/
theorem fragmentHeader_eq {id : Byte} (isFinal hasChannelId : Bool) (h : id.toNat ≤ 63) :
    fragmentHeader isFinal hasChannelId id =
      BitVec.ofNat 8 (128 * isFinal.toNat + 64 * hasChannelId.toNat + id.toNat) := by
  have bits : ∀ id : Byte, ∀ f c : Bool, id.toNat ≤ 63 →
      fragmentHeader f c id = BitVec.ofNat 8 (128 * f.toNat + 64 * c.toNat + id.toNat) := by
    apply forall_byte; decide +kernel
  exact bits id isFinal hasChannelId h

/-- `sext32` by R10's formula. -/
theorem sext32_eq_signedOf (v : S24) : sext32 v = signedOf v.toNat := by
  have sign : v.getLsbD 23 = decide (8388608 ≤ v.toNat) := by
    have := BitVec.msb_eq_decide v
    simpa [BitVec.msb, BitVec.getMsbD] using this
  have := v.isLt
  unfold sext32 signedOf
  rw [sign]
  by_cases h : 8388608 ≤ v.toNat
  · simp [h, show ¬ v.toNat < 8388608 by omega]
  · simp [h, show v.toNat < 8388608 by omega]

/-- A ShortForm field that is all there is read whole (R131). -/
theorem takeField_ok (before field after : Bytes) (h : field.length ≤ 255) :
    takeField (before ++ BitVec.ofNat 8 field.length :: field ++ after) before.length =
      .ok (field, before.length + 1 + field.length) := by
  have length_byte : byteAt (before ++ BitVec.ofNat 8 field.length :: field ++ after) before.length =
      BitVec.ofNat 8 field.length := by simp [byteAt]
  have length_value : (BitVec.ofNat 8 field.length : Byte).toNat = field.length := by simp; omega
  unfold takeField
  rw [if_neg (by simp), length_byte, length_value]
  simp only
  rw [if_neg (by simp; omega)]
  congr 2
  simp [memRead]

/-- A ShortForm field that was read stands in the buffer with its length byte (R131). -/
theorem takeField_eq_ok {before d : Bytes} {r : Bytes × Nat} (h : takeField (before ++ d) before.length = .ok r) :
    ∃ field after, d = BitVec.ofNat 8 field.length :: field ++ after ∧ field.length ≤ 255 ∧
      r = (field, before.length + 1 + field.length) := by
  cases d with
  | nil => simp [takeField] at h
  | cons b d =>
    have length_byte : byteAt (before ++ b :: d) before.length = b := by simp [byteAt]
    have hlt := b.isLt
    unfold takeField at h
    rw [if_neg (by simp), length_byte] at h
    simp only at h
    split at h
    · cases h
    · rename_i hl
      simp at hl
      have field_bytes : memRead (before ++ b :: d) (before.length + 1) b.toNat = d.take b.toNat := by simp [memRead]
      have field_length : (d.take b.toNat).length = b.toNat := by simp; omega
      rw [field_bytes] at h
      refine ⟨d.take b.toNat, d.drop b.toNat, ?_, by omega, ?_⟩
      · rw [field_length]; simp
      · cases h; rw [field_length]

/-- A ShortForm field fails with Truncated alone (R131). -/
theorem takeField_error {d : Bytes} {i : Nat} {e : ErrorKind} (h : takeField d i = .error e) : e = .truncated := by
  unfold takeField at h
  split at h
  · cases h; rfl
  · simp only at h
    split at h <;> cases h
    rfl

/-- One link of an address chain (R132). -/
theorem decodeChain_field {field : Bytes} (rest : Bytes) (h : field.length = 7) :
    decodeChain (field ++ rest) =
      match decodeAddress field 0 with
      | .error _ => .error .malformedAddress
      | .ok (a, true) => .ok ([a], rest)
      | .ok (a, false) =>
        match decodeChain rest with
        | .error e => .error e
        | .ok (more, tail) => .ok (a :: more, tail) := by
  match field, h with
  | [b0, b1, b2, b3, b4, b5, b6], _ =>
    simp only [List.cons_append, List.nil_append]
    exact decodeChain.eq_1 b0 b1 b2 b3 b4 b5 b6 rest

end Machine

end Sys2Proof
end

