-- ==== Sys2Proof/Laws/Exec.lean ====
section
/-! SUPPORT. What a command can do, said once for all commands: a command other than FRAG_PUSH ends with a reply or is
refused; FRAG_PUSH writes its slot. And one step of a run, with the induction over runs. -/

namespace Sys2Proof.Machine

/-- A command other than FRAG_PUSH, for two states with one configuration: both runs end with one reply, or both are
refused for one reason (R6, R46). -/
theorem exec_pure_cases {i : Instr} (hi : isPush i = false) {s s' : State} (hc : s.config = s'.config) :
    (∃ r, exec i s = finish s r ∧ exec i s' = finish s' r) ∨
      ∃ r, exec i s = .refused r ∧ exec i s' = .refused r := by
  have G : ∀ bs (k k' : StepOutcome),
      ((∃ r, k = finish s r ∧ k' = finish s' r) ∨ ∃ r, k = .refused r ∧ k' = .refused r) →
      (∃ r, guarded s bs k = finish s r ∧ guarded s' bs k' = finish s' r) ∨
        ∃ r, guarded s bs k = .refused r ∧ guarded s' bs k' = .refused r := by
    intro bs k k' h
    unfold guarded
    rw [← hc]
    split
    · exact h
    · exact .inr ⟨_, rfl, rfl⟩
  have F : ∀ r, (∃ q, finish s r = finish s q ∧ finish s' r = finish s' q) ∨
      ∃ q, finish s r = .refused q ∧ finish s' r = .refused q := fun r => .inl ⟨r, rfl, rfl⟩
  have W : ∀ kind (k k' : Layout → StepOutcome),
      (∀ L, (∃ r, k L = finish s r ∧ k' L = finish s' r) ∨ ∃ r, k L = .refused r ∧ k' L = .refused r) →
      (∃ r, withLayout s kind k = finish s r ∧ withLayout s' kind k' = finish s' r) ∨
        ∃ r, withLayout s kind k = .refused r ∧ withLayout s' kind k' = .refused r := by
    intro kind k k' h
    unfold withLayout
    rw [← hc]
    split
    · exact .inr ⟨_, rfl, rfl⟩
    · rename_i L _
      by_cases hw : layoutWf L = true
      · rw [if_pos hw, if_pos hw]; exact h L
      · rw [if_neg hw, if_neg hw]; exact .inr ⟨_, rfl, rfl⟩
  have D : ∀ kind d, (∃ r, recordDecode kind d s = finish s r ∧ recordDecode kind d s' = finish s' r) ∨
      ∃ r, recordDecode kind d s = .refused r ∧ recordDecode kind d s' = .refused r :=
    fun _ _ => G _ _ _ (W _ _ _ fun _ => F _)
  have E : ∀ kind rec, (∃ r, recordEncode kind rec s = finish s r ∧ recordEncode kind rec s' = finish s' r) ∨
      ∃ r, recordEncode kind rec s = .refused r ∧ recordEncode kind rec s' = .refused r := by
    intro kind rec
    refine G _ _ _ (W _ _ _ fun L => ?_)
    cases L.encLen with
    | none => exact .inr ⟨_, rfl, rfl⟩
    | some n =>
      by_cases hf : recordFits L rec = true
      · simp only [if_pos hf]; exact F _
      · simp only [if_neg hf]; exact .inr ⟨_, rfl, rfl⟩
  cases i with
  | fragPush => simp [isPush] at hi
  | frmEnc format addresses control protocolId payload =>
    have h := G (payload :: addresses.map StationAddress.callsign) _ _
      (F ((encodeFrame s.config.ctrlEmit format addresses control protocolId payload).map .out))
    have e : exec (.frmEnc format addresses control protocolId payload) s' =
        guarded s' (payload :: addresses.map StationAddress.callsign)
          (finish s' ((encodeFrame s.config.ctrlEmit format addresses control protocolId payload).map .out)) := by
      rw [hc]; rfl
    rw [e]; exact h
  | geoEnc => exact F _
  | recDecCap => exact D _ _
  | recDecStatus => exact D _ _
  | recDecChan => exact D _ _
  | recDecGlobal => exact D _ _
  | recDecBss => exact D _ _
  | recDecGps => exact D _ _
  | recEncChan => exact E _ _
  | recEncGlobal => exact E _ _
  | recEncBss => exact E _ _
  | _ => exact G _ _ _ (F _)

/-- A command other than FRAG_PUSH that completes changes the reply alone. -/
theorem exec_pure_next {i : Instr} (hi : isPush i = false) {s t : State} (h : exec i s = .next t) :
    ∃ r, t = s.answer r := by
  rcases exec_pure_cases hi (rfl : s.config = s.config) with ⟨r, e, -⟩ | ⟨r, e, -⟩
  · exact ⟨_, finish_next (e ▸ h)⟩
  · rw [e] at h; cases h

theorem isPush_cases (i : Instr) : isPush i = false ∨ ∃ frag, i = .fragPush frag := by
  cases i <;> simp [isPush]

/-- FRAG_PUSH that completes: its operand fits, the joined bytes fit, and it writes its slot and the reply. -/
theorem exec_push_next {frag : Fragment} {s t : State} (h : exec (.fragPush frag) s = .next t) :
    withinMax s.config frag.data = true ∧
      withinCapacity s.config (joinedBuffer (s.slot frag.channelId) frag).length = true ∧
      t = (s.setSlot frag.channelId (adoptedSlot frag (joinedBuffer (s.slot frag.channelId) frag))).answer
        (.ok (.complete (if frag.isFinal then some (joinedBuffer (s.slot frag.channelId) frag) else none))) := by
  have e : exec (.fragPush frag) s = guarded s [frag.data] (pushFragment frag s) := rfl
  rw [e] at h
  rcases guarded_cases s [frag.data] (pushFragment frag s) with ⟨hb, e⟩ | ⟨-, e⟩
  · rw [e] at h
    rcases pushFragment_cases frag s with ⟨hc, e⟩ | ⟨-, e⟩ <;> rw [e] at h
    · cases h; exact ⟨hb _ (by simp), hc, rfl⟩
    · cases h
  · rw [e] at h; cases h

/-- FRAG_PUSH whose operand and joined bytes fit completes. -/
theorem exec_push_of {frag : Fragment} {s : State} (hd : withinMax s.config frag.data = true)
    (hc : withinCapacity s.config (joinedBuffer (s.slot frag.channelId) frag).length = true) :
    exec (.fragPush frag) s =
      .next ((s.setSlot frag.channelId (adoptedSlot frag (joinedBuffer (s.slot frag.channelId) frag))).answer
        (.ok (.complete (if frag.isFinal then some (joinedBuffer (s.slot frag.channelId) frag) else none)))) := by
  have e : exec (.fragPush frag) s = guarded s [frag.data] (pushFragment frag s) := rfl
  rw [e, guarded_of_fits (by simpa using hd)]
  rcases pushFragment_cases frag s with ⟨-, e⟩ | ⟨h, -⟩
  · exact e
  · rw [hc] at h; cases h

/-- What one step that goes on has done: waited, reset, answered IllegalOp, or performed an instruction. -/
theorem step_next_cases {s t : State} (h : step s = .next t) :
    (s.pending = [] ∧ t = s) ∨
      (∃ rest, s.pending = .reset :: rest ∧ t = ({ s with pending := rest } : State).resetUnit) ∨
      (∃ c rest, s.pending = .command c :: rest ∧ decode c = .reserved ∧
        t = ({ s with pending := rest } : State).answer (.error .illegalOp)) ∨
      ∃ c rest i, s.pending = .command c :: rest ∧ decode c = .instr i ∧ exec i { s with pending := rest } = .next t := by
  rcases step_cases s with ⟨hp, e⟩ | ⟨rest, hp, e⟩ | ⟨c, rest, hp, e⟩ <;> rw [e] at h
  · cases h; exact .inl ⟨hp, rfl⟩
  · cases h; exact .inr (.inl ⟨rest, hp, rfl⟩)
  · rcases perform_cases c { s with pending := rest } with ⟨i, hd, e⟩ | ⟨hd, e⟩ | ⟨-, e⟩ <;> rw [e] at h
    · exact .inr (.inr (.inr ⟨c, rest, i, hp, hd, h⟩))
    · rcases reservedOpcode_cases c.operands { s with pending := rest } with ⟨-, e⟩ | ⟨-, e⟩ <;> rw [e] at h <;> cases h
      exact .inr (.inr (.inl ⟨c, rest, hp, hd, rfl⟩))
    · cases h

/-- The first step of a run that goes on. -/
theorem run_succ {n : Nat} {s s' : State} (h : step s = .next s') :
    (Host.Core.run Sys2Proof.core (n + 1) s : StepOutcome) = Host.Core.run Sys2Proof.core n s' := by
  have general : ∀ (M : Host.Core) (n : Nat) (s s' : M.State), M.step s = .next s' → M.run (n + 1) s = M.run n s' := by
    intro M n s s' h
    rw [Host.Core.run, h]
  exact general Sys2Proof.core n s s' h

/-- A run stops where its first step stops. -/
theorem run_fault {n : Nat} {s : State} {r : Fault} (h : step s = .fault r) :
    (Host.Core.run Sys2Proof.core (n + 1) s : StepOutcome) = .fault r := by
  have general : ∀ (M : Host.Core) (n : Nat) (s : M.State) (r : M.Fault), M.step s = .fault r →
      M.run (n + 1) s = .fault r := by
    intro M n s r h
    rw [Host.Core.run, h]
  exact general Sys2Proof.core n s r h

theorem run_refused {n : Nat} {s : State} {r : Refusal} (h : step s = .refused r) :
    (Host.Core.run Sys2Proof.core (n + 1) s : StepOutcome) = .refused r := by
  have general : ∀ (M : Host.Core) (n : Nat) (s : M.State) (r : M.Refusal), M.step s = .refused r →
      M.run (n + 1) s = .refused r := by
    intro M n s r h
    rw [Host.Core.run, h]
  exact general Sys2Proof.core n s r h

theorem run_zero (s : State) : (Host.Core.run Sys2Proof.core 0 s : StepOutcome) = .next s := rfl

@[simp] theorem State.withPushes_slot (s : State) (frags : List Fragment) (k : Byte) :
    (s.withPushes frags).slot k = s.slot k := rfl
@[simp] theorem State.withPushes_reply (s : State) (frags : List Fragment) : (s.withPushes frags).reply = s.reply := rfl
@[simp] theorem State.withPushes_config (s : State) (frags : List Fragment) :
    (s.withPushes frags).config = s.config := rfl
@[simp] theorem State.withPushes_pending (s : State) (frags : List Fragment) :
    (s.withPushes frags).pending = frags.map fun f => .command (encode (.fragPush f)) := rfl

/-- The first step of a program of pushes is its first push. -/
theorem step_withPushes_cons (s : State) (f : Fragment) (fs : List Fragment) :
    step (s.withPushes (f :: fs)) = exec (.fragPush f) (s.withPushes fs) := rfl

/-- A property every step keeps holds at the end of every run that does not stop. -/
theorem run_keeps (P : State → Prop) (keep : ∀ s t, P s → step s = .next t → P t) :
    ∀ (n : Nat) (s t : State), P s → (Host.Core.run Sys2Proof.core n s : StepOutcome) = .next t → P t := by
  intro n
  induction n with
  | zero =>
    intro s t hs h
    rw [run_zero] at h; cases h; exact hs
  | succ n ih =>
    intro s t hs h
    cases hstep : step s with
    | next s' => rw [run_succ hstep] at h; exact ih s' t (keep s s' hs hstep) h
    | fault r => rw [run_fault hstep] at h; cases h
    | refused r => rw [run_refused hstep] at h; cases h

end Sys2Proof.Machine
end

