-- ==== Sys2Proof/Laws/Layout.lean ====
section
/-! SUPPORT. The layout engine bit by bit: the bits of a big-endian word in its bytes, the bits a field owns, and what
encoding one field does (its length, its frame, what it stores). -/

namespace Sys2Proof.Machine

theorem bitOf_of_eight_le {b : Bytes} {i j : Nat} (h : 8 ≤ j) : bitOf b i j = false :=
  BitVec.getLsbD_of_ge _ _ h

theorem bitOf_zeros (n i j : Nat) : bitOf (zeros n) i j = false := by
  unfold bitOf zeros
  simp only [List.getD_eq_getElem?_getD, List.getElem?_replicate]
  split <;> simp

/-- Byte `k` of the `n` bytes of a number. -/
theorem byteAt_beBytes {n k : Nat} (v : Nat) (h : k < n) : byteAt (beBytes n v) k = BitVec.ofNat 8 (v / 256 ^ (n - 1 - k)) := by
  induction n generalizing k with
  | zero => omega
  | succ n ih =>
    cases k with
    | zero => simp [beBytes, byteAt]
    | succ k =>
      have rest := ih (k := k) (by omega)
      simp only [byteAt] at rest ⊢
      simp only [beBytes, List.getD_cons_succ]
      rw [rest]
      congr 3; omega

/-- Bit `j` of byte `k` of the `n` bytes of a number is bit `8 (n - 1 - k) + j` of the number. -/
theorem bit_beBytes {n k j : Nat} (v : Nat) (h : k < n) (hj : j < 8) :
    (byteAt (beBytes n v) k).getLsbD j = v.testBit (8 * (n - 1 - k) + j) := by
  rw [byteAt_beBytes v h, show (256 : Nat) = 2 ^ 8 from rfl, ← pow_mul, BitVec.getLsbD_ofNat]
  simp only [hj, decide_true, Bool.true_and, Nat.testBit_div_two_pow]
  rw [Nat.add_comm]

theorem byteAt_memRead {b : Bytes} {off n k : Nat} (h : off + n ≤ b.length) (hk : k < n) :
    byteAt (memRead b off n) k = byteAt b (off + k) := by
  rw [memRead_eq_map h]
  simp [byteAt, hk]

/-- Bit `m` of the big-endian word of `n` bytes at `off` (R212's numbering). -/
theorem testBit_memRead {b : Bytes} {off n m : Nat} (h : off + n ≤ b.length) (hm : m < 8 * n) :
    (beValue (memRead b off n)).testBit m = bitOf b (off + n - 1 - m / 8) (m % 8) := by
  have hl := length_memRead b off n h
  have bit := bit_beBytes (n := (memRead b off n).length) (k := n - 1 - m / 8) (j := m % 8)
    (beValue (memRead b off n)) (by omega) (by omega)
  rw [beBytes_beValue, byteAt_memRead h (by omega), hl,
    show 8 * (n - 1 - (n - 1 - m / 8)) + m % 8 = m by omega] at bit
  rw [← bit]
  unfold bitOf byteAt
  congr 2; omega

/-- A bit of a buffer after a write: a bit of the value inside, the bit before outside. -/
theorem bitOf_memWrite {b : Bytes} {off n v i j : Nat} (h : off + n ≤ b.length) (hj : j < 8) :
    bitOf (memWrite b off n v) i j =
      if off ≤ i ∧ i < off + n then v.testBit (8 * (off + n - 1 - i) + j) else bitOf b i j := by
  show (byteAt (memWrite b off n v) i).getLsbD j = _
  split
  · rename_i hi
    rw [byteAt_memWrite_inside _ _ _ _ _ h hi.1 hi.2, bit_beBytes v (by omega) hj]
    congr 1; omega
  · rename_i hi
    rw [byteAt_memWrite_outside _ _ _ _ _ h (by omega)]
    rfl

theorem bitOf_set {out : Bytes} {byte : Nat} (x : Byte) (i j : Nat) (h : byte < out.length) :
    bitOf (out.set byte x) i j = if i = byte then x.getLsbD j else bitOf out i j := by
  unfold bitOf
  simp only [List.getD_eq_getElem?_getD, List.getElem?_set]
  by_cases e : i = byte
  · subst e; simp [h]
  · simp [e, Ne.symm e]

/-- R211's range of a width. -/
theorem widthBytes_bounds (w : Width) : 1 ≤ widthBytes w ∧ widthBytes w ≤ 4 := by cases w <;> decide

/-- A GPS layout has its latitude and its longitude among its fields (R224). -/
theorem latitude_mem (l : GpsLayout) :
    Field.geo l.latitude.name l.latitude.off positionDivisor ∈ (gpsLayout l).fields := List.mem_cons_self

theorem longitude_mem (l : GpsLayout) :
    Field.geo l.longitude.name l.longitude.off positionDivisor ∈ (gpsLayout l).fields :=
  List.mem_cons_of_mem _ List.mem_cons_self

/-- The model's list of a field's bits holds bit `x % 8` of byte `x / 8` exactly when the field owns it. -/
theorem mem_fieldBits_iff (f : Field) (x : Nat) : x ∈ fieldBits f ↔ ownsBit f (x / 8) (x % 8) := by
  cases f with
  | bool name byte bit =>
    have := bit.isLt
    simp [fieldBits, ownsBit]; omega
  | uint name off width shift mask =>
    simp only [fieldBits, ownsBit, List.mem_map, List.mem_filter, List.mem_range]
    constructor
    · rintro ⟨m, ⟨h1, h2⟩, rfl⟩; exact ⟨m, h1, h2, by omega, by omega⟩
    · rintro ⟨m, h1, h2, h3, h4⟩; exact ⟨m, ⟨h1, h2⟩, by omega⟩
  | str name off len trim =>
    simp only [fieldBits, ownsBit, List.mem_map, List.mem_range]
    constructor
    · rintro ⟨m, h1, rfl⟩; omega
    · rintro ⟨h1, h2, -⟩; exact ⟨x - 8 * off, by omega, by omega⟩
  | geo name off div =>
    simp only [fieldBits, ownsBit, List.mem_map, List.mem_range]
    constructor
    · rintro ⟨m, h1, rfl⟩; omega
    · rintro ⟨h1, h2, -⟩; exact ⟨x - 8 * off, by omega, by omega⟩

theorem ownsBit_lt {f : Field} {i j : Nat} (h : ownsBit f i j) : j < 8 := by
  cases f with
  | bool name byte bit => have := bit.isLt; simp only [ownsBit] at h; omega
  | uint name off width shift mask => obtain ⟨m, -, -, -, h⟩ := h; omega
  | str name off len trim => exact h.2.2
  | geo name off div => exact h.2.2

/-- The bytes of a buffer outside a region that is replaced by as many bytes. -/
theorem getD_replaced {out mid : Bytes} {off len i : Nat} (h : off + len ≤ out.length) (hm : mid.length = len)
    (hi : i < off ∨ off + len ≤ i) : (out.take off ++ mid ++ out.drop (off + len)).getD i 0 = out.getD i 0 := by
  have hoff : (out.take off).length = off := by simp; omega
  simp only [List.getD_eq_getElem?_getD, List.append_assoc]
  rcases hi with hi | hi
  · rw [List.getElem?_append_left (by omega), List.getElem?_take_of_lt hi]
  · rw [List.getElem?_append_right (by omega), List.getElem?_append_right (by omega), List.getElem?_drop]
    congr 2; omega

theorem length_padded (v : Bytes) (len : Nat) : (v.take len ++ zeros (len - min len v.length)).length = len := by simp

/-- Encoding a field inside the window keeps the output's length (R215). -/
theorem length_encField {minLen n : Nat} {out : Bytes} {f : Field} (v : FieldValue) (hi : insideProp minLen f)
    (hm : minLen ≤ n) (ho : out.length = n) : (encField out f v).length = n := by
  cases f <;> cases v <;> simp only [encField, insideProp] at hi ⊢ <;> try exact ho
  · simpa using ho
  · rw [length_memWrite _ _ _ _ (by omega)]; exact ho
  · simp; omega
  · rw [length_memWrite _ _ _ _ (by omega)]; exact ho

/-- Encoding a field changes no bit the field does not own (R215). -/
theorem encField_frame {minLen n : Nat} {out : Bytes} {f : Field} {i j : Nat} (v : FieldValue)
    (hi : insideProp minLen f) (hm : minLen ≤ n) (ho : out.length = n) (hn : ¬ ownsBit f i j) :
    bitOf (encField out f v) i j = bitOf out i j := by
  by_cases hj : 8 ≤ j
  · rw [bitOf_of_eight_le hj, bitOf_of_eight_le hj]
  push Not at hj
  cases f with
  | bool name byte bit =>
    cases v <;> simp only [encField]
    rename_i b
    simp only [insideProp, ownsBit] at hi hn
    rw [bitOf_set _ _ _ (by omega)]
    split
    · rename_i e
      subst e
      have hne : j ≠ bit.val := fun e => hn ⟨rfl, e⟩
      cases b
      · simp; rfl
      · rw [show bitOf out i j = (byteAt out i).getLsbD j from rfl]
        simp [BitVec.getLsbD_one]; omega
    · rfl
  | uint name off width shift mask =>
    cases v <;> simp only [encField]
    simp only [insideProp] at hi
    rw [bitOf_memWrite (by omega) hj]
    split
    · rename_i hr
      have unowned : ¬ (mask.toNat <<< shift).testBit (8 * (off + widthBytes width - 1 - i) + j) = true := fun h =>
        hn ⟨8 * (off + widthBytes width - 1 - i) + j, by omega, h, by omega, by omega⟩
      rw [Nat.testBit_or, testBit_memRead (by omega) (by omega), Nat.testBit_shiftLeft, Nat.testBit_and,
        show off + widthBytes width - 1 - (8 * (off + widthBytes width - 1 - i) + j) / 8 = i by omega,
        show (8 * (off + widthBytes width - 1 - i) + j) % 8 = j by omega]
      rw [Nat.testBit_shiftLeft] at unowned
      revert unowned
      cases decide (8 * (off + widthBytes width - 1 - i) + j ≥ shift) <;>
        cases mask.toNat.testBit (8 * (off + widthBytes width - 1 - i) + j - shift) <;> simp
    · rfl
  | str name off len trim =>
    cases v <;> simp only [encField]
    rename_i x
    simp only [insideProp, ownsBit] at hi hn
    unfold bitOf
    rw [List.append_assoc (out.take off), getD_replaced (by omega) (length_padded x len) (by omega)]
  | geo name off div =>
    cases v <;> simp only [encField]
    simp only [insideProp, ownsBit] at hi hn
    rw [bitOf_memWrite (by omega) hj, if_neg (by omega)]

/-- Encoding a value of the field's kind into bits that are still zero stores it (R215). -/
theorem encField_stores {minLen n : Nat} {out : Bytes} {f : Field} {v : FieldValue} (hi : insideProp minLen f)
    (hm : minLen ≤ n) (ho : out.length = n) (hk : kindFits f v = true)
    (hz : ∀ i j, ownsBit f i j → bitOf out i j = false) : fieldStored (encField out f v) f v := by
  cases f with
  | bool name byte bit =>
    cases v <;> simp [kindFits] at hk
    rename_i b
    simp only [insideProp, ownsBit] at hi hz
    have zero := hz byte bit.val ⟨rfl, rfl⟩
    rw [show bitOf out byte bit.val = (byteAt out byte).getLsbD bit.val from rfl] at zero
    have := bit.isLt
    simp only [fieldStored, encField]
    rw [bitOf_set _ _ _ (by omega), if_pos rfl, BitVec.getLsbD_or, zero]
    cases b <;> simp
  | uint name off width shift mask =>
    cases v <;> simp [kindFits] at hk
    simp only [insideProp] at hi
    intro m hlt hmask
    have owned : ownsBit (.uint name off width shift mask) (off + widthBytes width - 1 - m / 8) (m % 8) :=
      ⟨m, hlt, hmask, rfl, rfl⟩
    simp only [encField]
    rw [bitOf_memWrite (by omega) (by omega), if_pos (by omega),
      show 8 * (off + widthBytes width - 1 - (off + widthBytes width - 1 - m / 8)) + m % 8 = m by omega, Nat.testBit_or,
      testBit_memRead (by omega) hlt, hz _ _ owned, Bool.false_or, Nat.testBit_shiftLeft, Nat.testBit_and,
      Nat.testBit_shiftLeft]
    rw [Nat.testBit_shiftLeft] at hmask
    simp at hmask
    simp [hmask]
  | str name off len trim =>
    cases v <;> simp [kindFits] at hk
    rename_i x
    simp only [insideProp] at hi
    have hoff : (out.take off).length = off := by simp; omega
    have hlen := length_padded x len
    simp only [fieldStored, encField]
    rw [List.append_assoc (out.take off), List.append_assoc, List.drop_append_of_le_length (by omega),
      List.drop_of_length_le (by omega), List.nil_append, List.take_append_of_le_length (by omega),
      List.take_of_length_le (by omega)]
    rfl
  | geo name off div =>
    cases v <;> simp [kindFits] at hk
    rename_i g
    simp only [insideProp] at hi
    have written := memRead_memWrite out off 3 g.raw.toNat (by omega)
    unfold memRead at written
    simp only [fieldStored, encField]
    rw [written]
    simp [beBytes]

end Sys2Proof.Machine
end

