-- ==== Sys2Proof/Laws/PerInstr.lean ====
section
/-! SUPPORT. Facts stated of each instruction as syntax, one lemma a constructor. -/

namespace Sys2Proof.Laws.PortRoundTrip

/-- Decoding the command that encodes an instruction gives the instruction, with every operand (R60, R61). -/
def Statement (i : Instr) : Prop := decode (encode i) = .instr i

theorem addrDec data offset : Statement (.addrDec data offset) := rfl
theorem addrEnc addr last : Statement (.addrEnc addr last) := rfl
theorem addrParse text : Statement (.addrParse text) := rfl
theorem addrFmt addr : Statement (.addrFmt addr) := rfl
theorem addrSame a b : Statement (.addrSame a b) := rfl
theorem frmDec data time : Statement (.frmDec data time) := rfl
theorem frmEnc format addresses control protocolId payload : Statement (.frmEnc format addresses control protocolId payload) := rfl
theorem fragDec data : Statement (.fragDec data) := rfl
theorem fragEnc isFinal fragmentId data channelId : Statement (.fragEnc isFinal fragmentId data channelId) := rfl
theorem fragPush frag : Statement (.fragPush frag) := rfl
theorem rd16 data offset : Statement (.rd16 data offset) := rfl
theorem rd24 data offset : Statement (.rd24 data offset) := rfl
theorem rd32 data offset : Statement (.rd32 data offset) := rfl
theorem wr16 data offset value : Statement (.wr16 data offset value) := rfl
theorem wr24 data offset value : Statement (.wr24 data offset value) := rfl
theorem wr32 data offset value : Statement (.wr32 data offset value) := rfl
theorem recDecCap data : Statement (.recDecCap data) := rfl
theorem recDecStatus data : Statement (.recDecStatus data) := rfl
theorem recDecChan data : Statement (.recDecChan data) := rfl
theorem recDecGlobal data : Statement (.recDecGlobal data) := rfl
theorem recDecBss data : Statement (.recDecBss data) := rfl
theorem recDecGps data : Statement (.recDecGps data) := rfl
theorem recEncChan fields : Statement (.recEncChan fields) := rfl
theorem recEncGlobal fields : Statement (.recEncGlobal fields) := rfl
theorem recEncBss fields : Statement (.recEncBss fields) := rfl
theorem geoDec data form : Statement (.geoDec data form) := rfl
theorem geoEnc lat lon form : Statement (.geoEnc lat lon form) := rfl

end Sys2Proof.Laws.PortRoundTrip
end

