-- ==== Sys2Proof/Tests/Slice0.lean ====
section
/-! SUPPORT. Tests. Every expected value comes from spec/95_test_vectors.md (the vector is named in the comment), from
the rule named there, or from the opcode table; none is the model's own answer. First the decoder, row by row, and the
well-formedness checks; then one step per command; then one witness for the hypotheses of each obligation. -/

namespace Sys2Proof.Tests

open Sys2Proof Sys2Proof.Machine

/-! ### Helpers -/

/-- "N0CALL". -/
def n0call : Bytes := [0x4E, 0x30, 0x43, 0x41, 0x4C, 0x4C]

/-- An address by callsign and SSID, flags false. -/
def address (call : Bytes) (ssid : Byte) : StationAddress :=
  { callsign := call, ssid := ssid, cr1 := false, cr2 := false, cr3 := false }

/-- "APRS". -/
def aprs : StationAddress := address [0x41, 0x50, 0x52, 0x53] 0

/-- "N0CALL-7". -/
def n0call7 : StationAddress := address n0call 7

/-- APRS as an address field with is_last 0 (V-A1), and N0CALL-7 with is_last 1 (V-A2). -/
def aprsField : Bytes := [0x82, 0xA0, 0xA4, 0xA6, 0x40, 0x40, 0x00]
def n0call7Last : Bytes := [0x9C, 0x60, 0x86, 0x82, 0x98, 0x98, 0x0F]

/-- The illustrative layout `L_EX` of 95_test_vectors.md section 2.6. -/
def layoutEx : Layout where
  minLen := 8
  encLen := some 8
  fields := [.bool "rx" 0 7, .bool "tx" 0 6, .uint "power" 0 .one 0 0x0F, .uint "freq" 1 .four 0 0xFFFFFFFF,
    .str "name" 5 3 .nulSpace]

/-- `L_EX` for a record without an encoder, whose layout has no encoded length (R211). -/
def layoutDec : DecodeLayout := { minLen := layoutEx.minLen, fields := layoutEx.fields }

/-- An illustrative GPS layout: latitude and longitude (R224), and an integer across two bytes. -/
def layoutPos : GpsLayout where
  minLen := 8
  latitude := { name := "latitude", off := 0 }
  longitude := { name := "longitude", off := 3 }
  others := [.uint "v" 6 .two 4 0xFF]

/-- An illustrative layout for every record. -/
def exConfig : Config :=
  { Config.default with
    layoutCap := some layoutDec, layoutStatus := some layoutDec, layoutChan := some layoutEx,
    layoutGlobal := some layoutEx, layoutBss := some layoutEx, layoutGps := some layoutPos }

/-- The default configuration with a finite `REASM_CAPACITY`. -/
def capacity (n : Nat) : Config := { Config.default with reasmCapacity := some n }

/-- A state right after reset with some slots written. -/
def stateOf (c : Config) (slots : List (Byte × Slot)) : State :=
  slots.foldl (fun s p => s.setSlot p.1 p.2) (State.resetWith c)

/-- The region `r0` of the vectors. -/
def r0 : Region := { token := 7 }

/-- A fragment written `{final, id, data}` on a key, with region r0. -/
def fragOn (k : Byte) (isFinal : Bool) (id : U6) (data : Bytes) : Fragment :=
  { isFinal := isFinal, fragmentId := id, data := data, channelId := k, regionId := r0 }

/-- A slot that accumulates, not closed. -/
def accumulating (id : U6) (data : Bytes) : Slot :=
  { st := .accumulating, lastId := id, closed := false, region := r0, buf := data }

/-- A closed slot. -/
def closedSlot (id : U6) (data : Bytes) : Slot := { accumulating id data with closed := true }

/-- The bytes and the record of V-D1. -/
def exBytes : Bytes := [0xC5, 0x08, 0x8F, 0x2C, 0x40, 0x41, 0x42, 0x00]
def exRecord : RecordMap :=
  [("rx", .bool true), ("tx", .bool true), ("power", .uint 5), ("freq", .uint 143600704), ("name", .str [0x41, 0x42])]

/-- 47.6, -122.3 and 280 as exact rationals. -/
def lat476 : Rat := ⟨238, 5, by decide, by decide⟩
def lonMinus1223 : Rat := ⟨-1223, 10, by decide, by decide⟩
def deg280 : Rat := ⟨280, 1, by decide, by decide⟩

/-- A slot after a step that goes on. -/
def slotAfter (o : StepOutcome) (k : Byte) : Option Slot :=
  match o with
  | .next t => some (t.slot k)
  | .fault _ => none
  | .refused _ => none

/-- Why a step stops. -/
def stopOf (o : StepOutcome) : Option (Fault ⊕ Refusal) :=
  match o with
  | .next _ => none
  | .fault f => some (.inl f)
  | .refused r => some (.inr r)

/-! ### Decoding: the opcode byte of every row of spec/opcode_table.json -/

theorem test_decode_addrDec : decode ⟨0x01, .dataOffset [1] 2⟩ = .instr (.addrDec [1] 2) := by decide
theorem test_decode_addrEnc : decode ⟨0x02, .addrLast aprs true⟩ = .instr (.addrEnc aprs true) := by decide
theorem test_decode_addrParse : decode ⟨0x03, .text [1]⟩ = .instr (.addrParse [1]) := by decide
theorem test_decode_addrFmt : decode ⟨0x04, .addr aprs⟩ = .instr (.addrFmt aprs) := by decide
theorem test_decode_addrSame : decode ⟨0x05, .addrPair aprs n0call7⟩ = .instr (.addrSame aprs n0call7) := by decide
theorem test_decode_frmDec : decode ⟨0x10, .dataTime [1] ⟨5⟩⟩ = .instr (.frmDec [1] ⟨5⟩) := by decide
theorem test_decode_frmEnc :
    decode ⟨0x11, .frame .shortForm [aprs] 1 2 [3]⟩ = .instr (.frmEnc .shortForm [aprs] 1 2 [3]) := by decide
theorem test_decode_fragDec : decode ⟨0x20, .data [1]⟩ = .instr (.fragDec [1]) := by decide
theorem test_decode_fragEnc :
    decode ⟨0x21, .wireFragment true 2 [3] (some 4)⟩ = .instr (.fragEnc true 2 [3] (some 4)) := by decide
theorem test_decode_fragPush : decode ⟨0x22, .fragment (fragOn 1 true 2 [3])⟩ = .instr (.fragPush (fragOn 1 true 2 [3])) := by
  decide
theorem test_decode_rd16 : decode ⟨0x30, .dataOffset [1] 2⟩ = .instr (.rd16 [1] 2) := by decide
theorem test_decode_rd24 : decode ⟨0x31, .dataOffset [1] 2⟩ = .instr (.rd24 [1] 2) := by decide
theorem test_decode_rd32 : decode ⟨0x32, .dataOffset [1] 2⟩ = .instr (.rd32 [1] 2) := by decide
theorem test_decode_wr16 : decode ⟨0x34, .dataOffsetValue [1] 2 3⟩ = .instr (.wr16 [1] 2 3) := by decide
theorem test_decode_wr24 : decode ⟨0x35, .dataOffsetValue [1] 2 3⟩ = .instr (.wr24 [1] 2 3) := by decide
theorem test_decode_wr32 : decode ⟨0x36, .dataOffsetValue [1] 2 3⟩ = .instr (.wr32 [1] 2 3) := by decide
theorem test_decode_recDecCap : decode ⟨0x40, .data [1]⟩ = .instr (.recDecCap [1]) := by decide
theorem test_decode_recDecStatus : decode ⟨0x41, .data [1]⟩ = .instr (.recDecStatus [1]) := by decide
theorem test_decode_recDecChan : decode ⟨0x42, .data [1]⟩ = .instr (.recDecChan [1]) := by decide
theorem test_decode_recDecGlobal : decode ⟨0x43, .data [1]⟩ = .instr (.recDecGlobal [1]) := by decide
theorem test_decode_recDecBss : decode ⟨0x44, .data [1]⟩ = .instr (.recDecBss [1]) := by decide
theorem test_decode_recDecGps : decode ⟨0x45, .data [1]⟩ = .instr (.recDecGps [1]) := by decide
theorem test_decode_recEncChan : decode ⟨0x52, .record ⟨.channel, exRecord⟩⟩ = .instr (.recEncChan exRecord) := by decide
theorem test_decode_recEncGlobal :
    decode ⟨0x53, .record ⟨.globalSettings, exRecord⟩⟩ = .instr (.recEncGlobal exRecord) := by decide
theorem test_decode_recEncBss : decode ⟨0x54, .record ⟨.beacon, exRecord⟩⟩ = .instr (.recEncBss exRecord) := by decide
theorem test_decode_geoDec : decode ⟨0x60, .dataForm [1] .posrep⟩ = .instr (.geoDec [1] .posrep) := by decide
theorem test_decode_geoEnc : decode ⟨0x61, .latLonForm lat476 deg280 .compact⟩ = .instr (.geoEnc lat476 deg280 .compact) := by
  decide

/-- V-X1, V-X2, V-X3 and the edges of R63's ranges: no row. -/
theorem test_decode_reserved :
    ([0x00, 0x06, 0x0F, 0x12, 0x1F, 0x23, 0x2F, 0x33, 0x37, 0x3F, 0x46, 0x4F, 0x50, 0x51, 0x55, 0x5F, 0x62,
      0xFF] : List Byte).all (fun op => decide (decode ⟨op, .none⟩ = .reserved)) = true := by decide

/-- An operand record of another type than the opcode's, a record of another type among them, is ill-typed (R258). -/
theorem test_decode_illTyped :
    decode ⟨0x01, .data []⟩ = .illTyped ∧ decode ⟨0x22, .none⟩ = .illTyped ∧
      decode ⟨0x52, .record ⟨.beacon, []⟩⟩ = .illTyped ∧ decode ⟨0x30, .dataOffsetValue [] 0 0⟩ = .illTyped := by decide

/-- The table word of a row decodes to its instruction with all operands zero; a reserved byte decodes to none. -/
theorem test_tableWord :
    decodeTableWord 8 0x01 = some (.addrDec [] 0) ∧ decodeTableWord 8 0x35 = some (.wr24 [] 0 0) ∧
      decodeTableWord 8 0x54 = some (.recEncBss []) ∧ decodeTableWord 8 0x33 = none := by decide

/-- The next step after `withFetchWord` performs the table word's command: RD16 of an empty buffer is Truncated
(R190), ADDR_FMT of an empty address is the empty text (R104), and a reserved byte is IllegalOp (R63). -/
theorem test_withFetchWord :
    repliedWith (step (State.reset.withFetchWord 8 0x30)) = some (.error .truncated) ∧
      repliedWith (step (State.reset.withFetchWord 8 0x04)) = some (.ok (.text [])) ∧
      repliedWith (step (State.reset.withFetchWord 8 0xFF)) = some (.error .illegalOp) := by decide

/-- R63, R14, R253: a reserved opcode with three bytes is IllegalOp, and is refused where `MAX_BUF_LEN` is two. -/
theorem test_reserved_operands :
    repliedWith (step (State.reset.issue ⟨0xFF, .data [1, 2, 3]⟩)) = some (.error .illegalOp) ∧
      stopOf (step ((State.resetWith { Config.default with maxBufLen := some 2 }).issue ⟨0xFF, .data [1, 2, 3]⟩)) =
        some (.inr .bufferTooLong) := by decide

/-! ### Well-formedness: one ill-formed term for each check, refused by it -/

/-- R23's conditions: an empty callsign, seven bytes, SSID 16, a byte below 0x20, a byte above 0x7F, a dash, a trailing
space; and N0CALL-7, which meets them all. -/
theorem test_valid_conditions :
    (address [] 0).valid = false ∧ (address (n0call ++ [0x41]) 0).valid = false ∧ (address n0call 16).valid = false ∧
      (address [0x1F] 0).valid = false ∧ (address [0x80] 0).valid = false ∧ (address [0x41, 0x2D] 0).valid = false ∧
      (address [0x41, 0x20] 0).valid = false ∧ n0call7.valid = true := by decide

/-- R14: a data buffer, a callsign, a payload and a record's string that are one byte too long. -/
theorem test_wf_buffers :
    let c : Config := { exConfig with maxBufLen := some 3 }
    Instr.wf c (.fragDec [0, 0, 0, 0]) = false ∧ Instr.wf c (.addrFmt aprs) = false ∧
      Instr.wf c (.frmEnc .standard [address [] 0] 0 0 [0, 0, 0, 0]) = false ∧
      Instr.wf c (.recEncChan [("name", .str [0, 0, 0, 0])]) = false ∧ Instr.wf c (.fragDec [0, 0, 0]) = true := by decide

/-- R8 and R212: no layout, and one with a field outside the window. -/
theorem test_wf_layout :
    Instr.wf Config.default (.recDecCap exBytes) = false ∧
      Instr.wf { exConfig with layoutCap := some { layoutDec with minLen := 7 } } (.recDecCap exBytes) = false ∧
      Instr.wf exConfig (.recDecCap exBytes) = true := by decide

/-- R216, R225: no encoded length; a missing field, one too many, and one of another kind. -/
theorem test_wf_record :
    Instr.wf { exConfig with layoutChan := some { layoutEx with encLen := none } } (.recEncChan exRecord) = false ∧
      Instr.wf exConfig (.recEncChan exRecord.tail) = false ∧
      Instr.wf exConfig (.recEncChan (("more", .uint 0) :: exRecord)) = false ∧
      Instr.wf exConfig (.recEncChan (("rx", .uint 1) :: exRecord.tail)) = false ∧
      Instr.wf exConfig (.recEncChan exRecord) = true := by decide

/-- R212, condition by condition: two equal names; a Bool, a UInt (end, shift, mask), a Str and a Geo outside the window or out of range, and a Geo with divisor 0; an encoded length below `min_len`; two fields on one bit;
a Str without 0x00 in its trim set. -/
theorem test_layout_conditions :
    let one (f : Field) : Layout := { minLen := 4, encLen := none, fields := [f] }
    let two (n : Option Nat) (f g : Field) : Layout := { minLen := 4, encLen := n, fields := [f, g] }
    layoutWf (two none (.bool "a" 0 0) (.bool "a" 0 1)) = false ∧ layoutWf (one (.bool "a" 4 0)) = false ∧
      layoutWf (one (.uint "a" 3 .two 0 1)) = false ∧ layoutWf (one (.uint "a" 0 .one 8 0)) = false ∧
      layoutWf (one (.uint "a" 0 .one 4 0x1F)) = false ∧ layoutWf (one (.uint "a" 0 .one 4 0x0A)) = true ∧
      layoutWf (one (.str "a" 2 3 .nul)) = false ∧ layoutWf (one (.geo "a" 2 30000)) = false ∧
      layoutWf (one (.geo "a" 1 0)) = false ∧ layoutWf (two (some 3) (.bool "a" 0 0) (.bool "b" 0 1)) = false ∧
      layoutWf (two (some 4) (.bool "a" 0 3) (.uint "b" 0 .one 3 1)) = false ∧
      layoutWf (two (some 4) (.bool "a" 0 0) (.str "b" 1 1 .space)) = false ∧
      layoutWf (two none (.bool "a" 0 3) (.uint "b" 0 .one 3 1)) = true ∧ layoutWf layoutEx = true := by decide

/-- R211, R224: a record without an encoder has no encoded length, and a GPS layout is accepted with its position, whatever
its other Geo fields, and refused with a position outside the window. -/
theorem test_layout_record :
    (decodeLayout layoutDec).encLen = none ∧ (gpsLayout layoutPos).encLen = none ∧
      layoutWf (decodeLayout layoutDec) = true ∧ layoutWf (gpsLayout layoutPos) = true ∧
      layoutWf (gpsLayout { layoutPos with minLen := 11, others := [.geo "other" 8 100] }) = true ∧
      layoutWf (gpsLayout { layoutPos with longitude := { name := "longitude", off := 6 } }) = false ∧
      (gpsLayout layoutPos).fields.take 2 = [.geo "latitude" 0 30000, .geo "longitude" 3 30000] := by decide

/-- R217: an integer is canonical up to its mask, holes or not, and not beyond. -/
theorem test_canonical :
    valueCanonical (.uint "a" 0 .one 0 5) (.uint 2) = true ∧ valueCanonical (.uint "a" 0 .one 0 5) (.uint 5) = true ∧
      valueCanonical (.uint "a" 0 .one 0 5) (.uint 6) = false := by decide

/-! ### One command each -/

/-- V-A7, V-A8: the offset is honoured; the empty callsign is accepted and byte 6 is never checked. -/
theorem test_addrDec :
    repliedWith (exec (.addrDec (0x00 :: aprsField) 1) State.reset) = some (.ok (.address aprs false 7)) ∧
      repliedWith (exec (.addrDec [0x40, 0x40, 0x40, 0x40, 0x40, 0x40, 0xFF] 0) State.reset) =
        some (.ok (.address { callsign := [], ssid := 15, cr1 := true, cr2 := true, cr3 := true } true 7)) := by decide

/-- V-A4, V-A6, V-L3: each error, the length first. -/
theorem test_addrDec_errors :
    repliedWith (exec (.addrDec (0x83 :: aprsField.tail) 0) State.reset) = some (.error .malformedAddress) ∧
      repliedWith (exec (.addrDec aprsField 1) State.reset) = some (.error .invalidLength) ∧
      repliedWith (exec (.addrDec [0x9C, 0x60, 0x02, 0x82, 0x98, 0x98, 0x0F] 0) State.reset) =
        some (.error .malformedAddress) := by decide

/-- V-A2, V-A3, V-A14: the marker, the flags, and the lost bit 7 of a callsign byte. -/
theorem test_addrEnc :
    repliedWith (exec (.addrEnc n0call7 true) State.reset) = some (.ok (.out n0call7Last)) ∧
      repliedWith (exec (.addrEnc { n0call7 with cr1 := true, cr3 := true } false) State.reset) =
        some (.ok (.out [0x9C, 0x60, 0x86, 0x82, 0x98, 0x98, 0xAE])) ∧
      repliedWith (exec (.addrEnc (address [0xC1] 0) false) State.reset) =
        some (.ok (.out [0x82, 0x40, 0x40, 0x40, 0x40, 0x40, 0x00])) := by decide

/-- V-A11, V-A12. -/
theorem test_addrEnc_errors :
    repliedWith (exec (.addrEnc (address (n0call ++ [0x41]) 0) false) State.reset) = some (.error .invalidAddress) ∧
      repliedWith (exec (.addrEnc (address n0call 16) false) State.reset) = some (.error .invalidAddress) := by decide

/-- V-L4, V-P5: "N0CALL-15" and "A-015". -/
theorem test_addrParse :
    repliedWith (exec (.addrParse (n0call ++ [0x2D, 0x31, 0x35])) State.reset) = some (.ok (.parsed (address n0call 15))) ∧
      repliedWith (exec (.addrParse [0x41, 0x2D, 0x30, 0x31, 0x35]) State.reset) =
        some (.ok (.parsed (address [0x41] 15))) := by decide

/-- V-L4, V-P3, V-P4, V-P10: "N0CALL-16", "-7", "N0CALL-015", "N0CALL--1". -/
theorem test_addrParse_errors :
    repliedWith (exec (.addrParse (n0call ++ [0x2D, 0x31, 0x36])) State.reset) = some (.error .invalidFormat) ∧
      repliedWith (exec (.addrParse [0x2D, 0x37]) State.reset) = some (.error .invalidFormat) ∧
      repliedWith (exec (.addrParse (n0call ++ [0x2D, 0x30, 0x31, 0x35])) State.reset) = some (.error .invalidFormat) ∧
      repliedWith (exec (.addrParse (n0call ++ [0x2D, 0x2D, 0x31])) State.reset) = some (.error .invalidFormat) := by decide

/-- V-T1, V-T2, V-T3: "N0CALL-7", "APRS", "AB-200". -/
theorem test_addrFmt :
    repliedWith (exec (.addrFmt n0call7) State.reset) = some (.ok (.text (n0call ++ [0x2D, 0x37]))) ∧
      repliedWith (exec (.addrFmt aprs) State.reset) = some (.ok (.text aprs.callsign)) ∧
      repliedWith (exec (.addrFmt (address [0x41, 0x42] 200)) State.reset) =
        some (.ok (.text [0x41, 0x42, 0x2D, 0x32, 0x30, 0x30])) := by decide

/-- V-S1, V-S2, V-S3. -/
theorem test_addrSame :
    repliedWith (exec (.addrSame { n0call7 with cr1 := true } n0call7) State.reset) = some (.ok (.same true)) ∧
      repliedWith (exec (.addrSame n0call7 (address n0call 0)) State.reset) = some (.ok (.same false)) ∧
      repliedWith (exec (.addrSame (address [0x6E] 0) (address [0x4E] 0)) State.reset) = some (.ok (.same false)) := by decide

/-- V-F1, V-F13: the Standard scenario, and a ShortForm frame whose prefixes and long control field are special. -/
theorem test_frmDec :
    repliedWith (exec (.frmDec (aprsField ++ n0call7Last ++ [0x03, 0xF0, 0x74, 0x65, 0x73, 0x74]) ⟨9⟩) State.reset) =
        some (.ok (.frame (.standard [aprs, n0call7] 0x03 0xF0 [0x74, 0x65, 0x73, 0x74] ⟨9⟩))) ∧
      repliedWith (exec (.frmDec [0x01, 0x06, 0x41, 0x42, 0x43, 0x44, 0x45, 0x46, 0x02, 0x03, 0x04, 0x03, 0x24, 0x24,
          0x24] ⟨9⟩) State.reset) =
        some (.ok (.frame (.shortForm (address [0x41, 0x42, 0x43, 0x44, 0x45, 0x46] 0) 0x03 [0x24, 0x24] ⟨9⟩))) := by decide

/-- V-F4, V-F6, V-F7, V-F9: no control byte, one address, no last marker, a field past the end. -/
theorem test_frmDec_errors :
    repliedWith (exec (.frmDec (aprsField ++ n0call7Last) ⟨0⟩) State.reset) = some (.error .truncated) ∧
      repliedWith (exec (.frmDec [0x82, 0xA0, 0xA4, 0xA6, 0x40, 0x40, 0x01, 0x03, 0xF0] ⟨0⟩) State.reset) =
        some (.error .malformedAddress) ∧
      repliedWith (exec (.frmDec (aprsField ++ [0x9C, 0x60, 0x86, 0x82, 0x98, 0x98, 0x0E, 0x03, 0xF0]) ⟨0⟩)
        State.reset) = some (.error .malformedAddress) ∧
      repliedWith (exec (.frmDec [0x01, 0x07, 0x20, 0x4E, 0x30] ⟨0⟩) State.reset) = some (.error .truncated) := by decide

/-- V-F1, V-F1b, V-F2: both header forms and the ShortForm frame. -/
theorem test_frmEnc :
    repliedWith (exec (.frmEnc .standard [aprs, n0call7] 0x03 0xF0 [0x74]) State.reset) =
        some (.ok (.out (aprsField ++ n0call7Last ++ [0x03, 0xF0, 0x74]))) ∧
      repliedWith (exec (.frmEnc .standard [aprs, n0call7] 0x03 0xF0 [0x74])
          (State.resetWith { Config.default with ctrlEmit := .ctrl16be })) =
        some (.ok (.out (aprsField ++ n0call7Last ++ [0x00, 0x03, 0x74]))) ∧
      repliedWith (exec (.frmEnc .shortForm [address n0call 0] 0 0 [0x68, 0x65, 0x6C, 0x6C, 0x6F]) State.reset) =
        some (.ok (.out ([0x01, 0x07, 0x20] ++ n0call ++
          [0x01, 0x21, 0x06, 0x24, 0x68, 0x65, 0x6C, 0x6C, 0x6F]))) := by decide

/-- V-F16, V-F17, V-F18, V-F22. -/
theorem test_frmEnc_errors :
    repliedWith (exec (.frmEnc .standard [] 0 0 []) State.reset) = some (.error .notEncodable) ∧
      repliedWith (exec (.frmEnc .shortForm [aprs, aprs] 0 0 []) State.reset) = some (.error .notEncodable) ∧
      repliedWith (exec (.frmEnc .standard [aprs] 0 0 []) State.reset) = some (.error .notEncodable) ∧
      repliedWith (exec (.frmEnc .standard [aprs, address n0call 16] 3 0xF0 []) State.reset) =
        some (.error .invalidAddress) := by decide

/-- V-R5: bit 6 clear and set. -/
theorem test_fragDec :
    repliedWith (exec (.fragDec [0x82, 0x43, 0x44, 0x00]) State.reset) =
        some (.ok (.fragment true 2 [0x43, 0x44, 0x00] none)) ∧
      repliedWith (exec (.fragDec [0xC2, 0x43, 0x44, 0x00]) State.reset) =
        some (.ok (.fragment true 2 [0x43, 0x44] (some 0x00))) := by decide

/-- V-R2, V-R3, V-R6. -/
theorem test_fragDec_short :
    repliedWith (exec (.fragDec []) State.reset) = some (.error .truncated) ∧
      repliedWith (exec (.fragDec [0x40]) State.reset) = some (.error .truncated) ∧
      repliedWith (exec (.fragDec [0x3F]) State.reset) = some (.ok (.fragment false 63 [] none)) := by decide

/-- V-R7, V-R9, V-R10. -/
theorem test_fragEnc :
    repliedWith (exec (.fragEnc true 2 [0x43, 0x44] (some 0x00)) State.reset) =
        some (.ok (.out [0xC2, 0x43, 0x44, 0x00])) ∧
      repliedWith (exec (.fragEnc true 63 [] (some 0xFF)) State.reset) = some (.ok (.out [0xFF, 0xFF])) ∧
      repliedWith (exec (.fragEnc false 64 [] none) State.reset) = some (.error .notEncodable) := by decide

/-- V-R11's second push, and V-R13's: id 0 continues id 63, and a closed slot never continues. -/
theorem test_fragPush :
    slotAfter (exec (.fragPush (fragOn 0 false 0 [0x42])) (stateOf Config.default [(0, accumulating 63 [0x41])])) 0 =
        some (accumulating 0 [0x41, 0x42]) ∧
      slotAfter (exec (.fragPush (fragOn 0 false 1 [0x42])) (stateOf Config.default [(0, closedSlot 0 [0x41])])) 0 =
        some (accumulating 1 [0x42]) ∧
      repliedWith (exec (.fragPush (fragOn 0 true 0 [0x42])) (stateOf Config.default [(0, accumulating 63 [0x41])])) =
        some (.ok (.complete (some [0x41, 0x42]))) := by decide

/-- V-R17's second push, and V-R14: the capacity fault, and a lone final fragment. -/
theorem test_fragPush_ends :
    stopOf (exec (.fragPush (fragOn 0 true 1 [0x43, 0x44])) (stateOf (capacity 3) [(0, accumulating 0 [0x41, 0x42])])) =
        some (.inl .reasmOverflow) ∧
      slotAfter (exec (.fragPush (fragOn 0 true 9 [0x51])) State.reset) 0 = some (closedSlot 9 [0x51]) ∧
      repliedWith (exec (.fragPush (fragOn 0 true 9 [0x51])) State.reset) = some (.ok (.complete (some [0x51]))) := by
  decide

/-- V-B1, V-B2. -/
theorem test_rd16 :
    repliedWith (exec (.rd16 [0x01, 0x02] 0) State.reset) = some (.ok (.value16 0x0102)) ∧
      repliedWith (exec (.rd16 [0x01, 0x02, 0x03] 2) State.reset) = some (.error .truncated) := by decide

/-- V-B3; two bytes are too few (R191). -/
theorem test_rd24 :
    repliedWith (exec (.rd24 [0x80, 0x00, 0x00] 0) State.reset) = some (.ok (.value24 0x800000)) ∧
      repliedWith (exec (.rd24 [0x80, 0x00] 0) State.reset) = some (.error .truncated) := by decide

/-- V-B4, V-B5. -/
theorem test_rd32 :
    repliedWith (exec (.rd32 [0xDE, 0xAD, 0xBE, 0xEF] 0) State.reset) = some (.ok (.value32 0xDEADBEEF)) ∧
      repliedWith (exec (.rd32 [0xDE, 0xAD, 0xBE] 0) State.reset) = some (.error .truncated) := by decide

/-- V-B6, V-B7. -/
theorem test_wr16 :
    repliedWith (exec (.wr16 [0, 0, 0] 1 0x1234) State.reset) = some (.ok (.out [0x00, 0x12, 0x34])) ∧
      repliedWith (exec (.wr16 [0, 0] 0 0xABCD1234) State.reset) = some (.ok (.out [0x12, 0x34])) := by decide

/-- V-B11, V-B9. -/
theorem test_wr24 :
    repliedWith (exec (.wr24 [0xAA, 0xAA, 0xAA, 0xAA] 1 0x123456) State.reset) =
        some (.ok (.out [0xAA, 0x12, 0x34, 0x56])) ∧
      repliedWith (exec (.wr24 [0, 0] 0 1) State.reset) = some (.error .truncated) := by decide

/-- V-B10; three bytes are too few (R195). -/
theorem test_wr32 :
    repliedWith (exec (.wr32 [0, 0, 0, 0] 0 0xDEADBEEF) State.reset) = some (.ok (.out [0xDE, 0xAD, 0xBE, 0xEF])) ∧
      repliedWith (exec (.wr32 [0, 0, 0] 0 1) State.reset) = some (.error .truncated) := by decide

/-- V-D1, V-D1b, V-D1e with `L_EX` as the capability layout. -/
theorem test_recDecCap :
    repliedWith (exec (.recDecCap exBytes) (State.resetWith exConfig)) = some (.ok (.record ⟨.capability, exRecord⟩)) ∧
      repliedWith (exec (.recDecCap (exBytes.take 7)) (State.resetWith exConfig)) = some (.error .truncated) ∧
      stopOf (exec (.recDecCap exBytes) State.reset) = some (.inr (.missingLayout .capability)) := by decide

/-- V-D1c's name with `L_EX`: an embedded NUL is kept. -/
theorem test_recDecStatus :
    repliedWith (exec (.recDecStatus [0xC5, 0x08, 0x8F, 0x2C, 0x40, 0x00, 0x41, 0x00]) (State.resetWith exConfig)) =
      some (.ok (.record ⟨.status, exRecord.take 4 ++ [("name", .str [0x00, 0x41])]⟩)) := by decide

/-- V-D1a: unowned bits are ignored and trailing spaces trimmed. -/
theorem test_recDecChan :
    repliedWith (exec (.recDecChan [0xF5, 0x08, 0x8F, 0x2C, 0x40, 0x41, 0x20, 0x20]) (State.resetWith exConfig)) =
      some (.ok (.record ⟨.channel, exRecord.take 4 ++ [("name", .str [0x41])]⟩)) := by decide

/-- V-D1d: the byte past the window is ignored. -/
theorem test_recDecGlobal :
    repliedWith (exec (.recDecGlobal [0xC5, 0x08, 0x8F, 0x2C, 0x40, 0x41, 0x42, 0x43, 0x99])
        (State.resetWith exConfig)) =
      some (.ok (.record ⟨.globalSettings, exRecord.take 4 ++ [("name", .str [0x41, 0x42, 0x43])]⟩)) := by decide

/-- A geo field of a record: L2's most negative value (R213). -/
theorem test_recDecBss :
    repliedWith (exec (.recDecBss [0xFF, 0x80, 0x00, 0x00])
        (State.resetWith { Config.default with
          layoutBss := some { minLen := 4, encLen := none, fields := [.geo "lat" 1 30000] } })) =
      some (.ok (.record ⟨.beacon, [("lat", .geo ⟨0x800000, 30000⟩)]⟩)) := by decide

/-- V-G4's position in a record (R224), and a shifted field across two bytes (R213): bits 11..4 of 0x1234 are 0x23. -/
theorem test_recDecGps :
    repliedWith (exec (.recDecGps [0x15, 0xCA, 0x20, 0xC8, 0x03, 0xF8, 0x12, 0x34]) (State.resetWith exConfig)) =
      some (.ok (.record ⟨.gps, [("latitude", .geo ⟨BitVec.ofInt 24 1428000, 30000⟩),
        ("longitude", .geo ⟨BitVec.ofInt 24 (-3669000), 30000⟩), ("v", .uint 0x23)]⟩)) := by decide

/-- V-D2's first two commands: the round trip, and the two truncations. -/
theorem test_recEncChan :
    repliedWith (exec (.recEncChan exRecord) (State.resetWith exConfig)) = some (.ok (.out exBytes)) ∧
      repliedWith (exec (.recEncChan [("rx", .bool true), ("tx", .bool false), ("power", .uint 0x1F),
          ("freq", .uint 0x01020304), ("name", .str [0x41, 0x42, 0x43, 0x44])]) (State.resetWith exConfig)) =
        some (.ok (.out [0x8F, 0x01, 0x02, 0x03, 0x04, 0x41, 0x42, 0x43])) := by decide

/-- V-D2's third command: padding becomes 0x00 and unowned bits 0. -/
theorem test_recEncGlobal :
    repliedWith (exec (.recEncGlobal (exRecord.take 4 ++ [("name", .str [0x41])])) (State.resetWith exConfig)) =
      some (.ok (.out [0xC5, 0x08, 0x8F, 0x2C, 0x40, 0x41, 0x00, 0x00])) := by decide

/-- V-D2's third command whole, which 95_test_vectors.md section 1 (V-L1) lists among R218's instances: the window's
trimmed space in byte 6 comes back as 0x00, and its bit 5 is a bit the name owns (log entry 19). -/
theorem test_recEncChan_vD2 :
    let window : Bytes := [0xF5, 0x08, 0x8F, 0x2C, 0x40, 0x41, 0x20, 0x20]
    let out : Bytes := [0xC5, 0x08, 0x8F, 0x2C, 0x40, 0x41, 0x00, 0x00]
    let fields : RecordMap := exRecord.take 4 ++ [("name", .str [0x41])]
    repliedWith (exec (.recDecChan window) (State.resetWith exConfig)) = some (.ok (.record ⟨.channel, fields⟩)) ∧
      repliedWith (exec (.recEncChan fields) (State.resetWith exConfig)) = some (.ok (.out out)) ∧
      8 * 6 + 5 ∈ fieldBits (.str "name" 5 3 .nulSpace) ∧ bitOf window 6 5 = true ∧ bitOf out 6 5 = false := by decide

/-- R215 and R213 by hand for a mask with a hole: 2 is at most the mask 5 (R217), `2 & 5 = 0` is written, and 0 is read
(log entry 19). -/
theorem test_recEncBss_maskHole :
    let L : Layout := { minLen := 1, encLen := some 1, fields := [.uint "a" 0 .one 0 5] }
    let s := State.resetWith { Config.default with layoutBss := some L }
    layoutWf L = true ∧ recordCanonical L [("a", .uint 2)] = true ∧
      repliedWith (exec (.recEncBss [("a", .uint 2)]) s) = some (.ok (.out [0x00])) ∧
      repliedWith (exec (.recDecBss [0x00]) s) = some (.ok (.record ⟨.beacon, [("a", .uint 0)]⟩)) := by decide

/-- R225's refusal with no encoded length, and R216's of a record without a field. -/
theorem test_recEncBss :
    stopOf (exec (.recEncBss exRecord)
        (State.resetWith { exConfig with layoutBss := some { layoutEx with encLen := none } })) =
        some (.inr (.noEncodedLength .beacon)) ∧
      stopOf (exec (.recEncBss exRecord.tail) (State.resetWith exConfig)) = some (.inr .illTypedOperand) := by decide

/-- V-G1, V-G2, V-L2. -/
theorem test_geoDec :
    repliedWith (exec (.geoDec [0x00, 0x00, 0x01, 0xFF, 0xFF, 0xFF] .compact) State.reset) =
        some (.ok (.geo ⟨1, 30000⟩ ⟨0xFFFFFF, 30000⟩)) ∧
      geoSigned ⟨0xFFFFFF, 30000⟩ = -1 ∧ geoSigned ⟨0x800000, 30000⟩ = -8388608 ∧
      geoSigned ⟨0x7FFFFF, 30000⟩ = 8388607 ∧
      repliedWith (exec (.geoDec [0x00, 0x00, 0x01, 0x00, 0x00] .posrep) State.reset) = some (.error .truncated) := by decide

/-- V-G3, V-G6. -/
theorem test_geoEnc :
    repliedWith (exec (.geoEnc lat476 lonMinus1223 .compact) State.reset) =
        some (.ok (.out [0x15, 0xCA, 0x20, 0xC8, 0x03, 0xF8])) ∧
      repliedWith (exec (.geoEnc deg280 0 .posrep) State.reset) = some (.error .notEncodable) := by decide

/-- A status is returned under its number (R250). -/
theorem test_statusCode :
    ([.truncated, .malformedAddress, .invalidAddress, .invalidFormat, .notEncodable, .invalidLength, .illegalOp] :
      List ErrorKind).map (fun e => statusCode (.error e)) = [1, 2, 3, 4, 5, 6, 7] ∧
      statusCode (.ok (.same true)) = 0 := by decide

/-! ### Witnesses: a concrete state and operands that meet each obligation's hypotheses, clause by clause, at the edges of
the ranges the clauses name -/

/-- ResetLeavesEverySlotEmptyAndNoCommandDoes, HostResetBetweenCommandsEmptiesEverySlot: a pending reset; a completing push to an accumulating and to an Empty slot. -/
theorem witness_reset :
    ({ stateOf Config.default [(0, accumulating 3 [1])] with pending := [.reset, .reset] } : State).pending =
        .reset :: [.reset] ∧
      ((stateOf Config.default [(0, accumulating 3 [1])]).slot 0).st = .accumulating ∧
      completes (exec (.fragPush (fragOn 0 false 9 [2])) (stateOf Config.default [(0, accumulating 3 [1])])) = true ∧
      (State.reset.slot 255).st = .empty ∧ completes (exec (.fragPush (fragOn 255 false 63 [2])) State.reset) = true := by
  decide

/-- StepPerformsTheNextCommand: a pending command that decodes, one that is ill-typed, and none. -/
theorem witness_step :
    (State.reset.issue ⟨0x30, .dataOffset [1, 2] 0⟩).pending = [.command ⟨0x30, .dataOffset [1, 2] 0⟩] ∧
      decode ⟨0x30, .dataOffset [1, 2] 0⟩ = .instr (.rd16 [1, 2] 0) ∧
      (State.reset.issue ⟨0x30, .none⟩).pending = [.command ⟨0x30, .none⟩] ∧ decode ⟨0x30, .none⟩ = .illTyped ∧
      State.reset.pending = [] := by decide

/-- ReservedOpcodeEndsWithIllegalOp: a pending reserved command, with an operand of the greatest length and one byte over. -/
theorem witness_reserved :
    let s (n : Nat) := (State.resetWith { Config.default with maxBufLen := some n }).issue ⟨0x62, .data [1, 2]⟩
    (s 2).pending = [.command ⟨0x62, .data [1, 2]⟩] ∧ decode ⟨0x62, .data [1, 2]⟩ = .reserved ∧
      (∀ b ∈ operandBuffers (.data [1, 2]), withinMax (s 2).config b = true) ∧
      (s 1).pending = [.command ⟨0x62, .data [1, 2]⟩] ∧
      (∃ b ∈ operandBuffers (.data [1, 2]), withinMax (s 1).config b = false) := by decide

/-- AddrDecReadsOneAddressField: one byte too few; a bad last callsign byte (bit 0 set, and 0x1F); six good characters
with a padding of two, of none and of six. -/
theorem witness_addrDec :
    withinMax State.reset.config aprsField = true ∧ aprsField.length < 1 + 7 ∧ 0 + 7 ≤ aprsField.length ∧
      (∃ i, i < 6 ∧ (natAt [0x82, 0xA0, 0xA4, 0xA6, 0x40, 0x41, 0x00] (0 + i) % 2 = 1 ∨
        natAt [0x82, 0xA0, 0xA4, 0xA6, 0x40, 0x41, 0x00] (0 + i) / 2 < 0x20)) ∧
      (∃ i, i < 6 ∧ (natAt [0x82, 0xA0, 0xA4, 0xA6, 0x40, 0x3E, 0x00] (0 + i) % 2 = 1 ∨
        natAt [0x82, 0xA0, 0xA4, 0xA6, 0x40, 0x3E, 0x00] (0 + i) / 2 < 0x20)) ∧
      (∀ i, i < 6 → natAt aprsField (0 + i) % 2 = 0 ∧ 0x20 ≤ natAt aprsField (0 + i) / 2) ∧
      aprs.callsign ++ List.replicate 2 0x20 = (List.range 6).map (fun i => BitVec.ofNat 8 (natAt aprsField (0 + i) / 2)) ∧
      aprs.callsign.getLast? ≠ some 0x20 ∧
      n0call ++ List.replicate 0 0x20 = (List.range 6).map (fun i => BitVec.ofNat 8 (natAt n0call7Last (0 + i) / 2)) ∧
      [] ++ List.replicate 6 0x20 =
        (List.range 6).map (fun i => BitVec.ofNat 8 (natAt [0x40, 0x40, 0x40, 0x40, 0x40, 0x40, 0xFF] (0 + i) / 2)) := by
  decide

/-- AddrEncWritesOneAddressField: 7 bytes, SSID 16, and the largest encodable address. -/
theorem witness_addrEnc :
    withinMax State.reset.config (n0call ++ [0x41]) = true ∧ 6 < (address (n0call ++ [0x41]) 0).callsign.length ∧
      15 < (address n0call 16).ssid.toNat ∧ encodable (address n0call 15) := by
  unfold encodable; decide

/-- AddrParseReadsTheTextForm, the clauses that parse: texts of one and of six bytes, and "N0CALL-15" of nine. -/
theorem witness_addrParse :
    withinMax State.reset.config n0call = true ∧ 1 ≤ [(0x41 : Byte)].length ∧ (0x2D : Byte) ∉ n0call ∧
      n0call.length ≤ 6 ∧ n0call ++ [0x2D, 0x31, 0x35] = n0call ++ 0x2D :: [0x31, 0x35] ∧
      (n0call ++ [0x2D, 0x31, 0x35]).length ≤ 9 ∧
      (∀ d ∈ ([0x31, 0x35] : Bytes), 0x30 ≤ d.toNat ∧ d.toNat ≤ 0x39) ∧
      Nat.ofDigits 10 (([0x31, 0x35] : Bytes).reverse.map fun d => d.toNat - 0x30) ≤ 15 := by decide

/-- AddrParseReadsTheTextForm, the clause that refuses: the empty text, and "A-16", whose one split has value 16. -/
theorem witness_addrParse_refused :
    (¬ (1 ≤ ([] : Bytes).length ∧ ([] : Bytes).length ≤ 6 ∧ (0x2D : Byte) ∉ ([] : Bytes))) ∧
      (∀ call digits : Bytes, ([] : Bytes) ≠ call ++ 0x2D :: digits) ∧
      (¬ (1 ≤ [(0x41 : Byte), 0x2D, 0x31, 0x36].length ∧ [(0x41 : Byte), 0x2D, 0x31, 0x36].length ≤ 6 ∧
        (0x2D : Byte) ∉ [(0x41 : Byte), 0x2D, 0x31, 0x36])) ∧
      ∀ call digits : Bytes, [0x41, 0x2D, 0x31, 0x36] = call ++ 0x2D :: digits → (0x2D : Byte) ∉ call →
        15 < Nat.ofDigits 10 (digits.reverse.map fun d => d.toNat - 0x30) := by
  refine ⟨by decide, by simp, by decide, ?_⟩
  intro call digits h hn
  match call with
  | [] => simp at h
  | [a] => simp at h; obtain ⟨-, rfl⟩ := h; decide
  | a :: b :: rest => simp at h; obtain ⟨-, rfl, -⟩ := h; simp at hn

/-- AddrFmtWritesTheTextForm: SSID 0, and the largest SSID the port carries. -/
theorem witness_addrFmt :
    withinMax State.reset.config n0call = true ∧ (address n0call 0).ssid = 0 ∧ (address n0call 255).ssid ≠ 0 := by decide

/-- AddrSameComparesCallsignAndSsid. -/
theorem witness_addrSame :
    withinMax { Config.default with maxBufLen := some 6 } n0call = true ∧
      withinMax { Config.default with maxBufLen := some 6 } aprs.callsign = true := by decide

/-- AddressFieldRoundTrips and AddressTextRoundTrips: valid addresses of one and of six bytes, SSID 0 and 15. -/
theorem witness_addressRoundTrips :
    (address n0call 15).valid = true ∧ (address [0x7F] 0).valid = true ∧ (address n0call 15).cr1 = false ∧
      (address n0call 15).cr2 = false ∧ (address n0call 15).cr3 = false ∧ withinMax State.reset.config n0call = true ∧
      withinMax State.reset.config n0call7Last = true := by decide

/-- FrmDecReadsShortForm: the empty buffer; three fields of lengths 255, 0 and 0; and a buffer whose control-length byte
is missing, which is no such triple. -/
theorem witness_frmDecShort :
    withinMax State.reset.config ([] : Bytes) = true ∧ (List.replicate 255 (0x20 : Byte)).length ≤ 255 ∧
      ([0x01, 0x01, 0x20] : Bytes).head? = some 0x01 ∧
      ∀ cf ctlf pf rest : Bytes, cf.length ≤ 255 →
        ([0x01, 0x01, 0x20] : Bytes) ≠ 0x01 :: BitVec.ofNat 8 cf.length :: cf ++ BitVec.ofNat 8 ctlf.length :: ctlf
          ++ BitVec.ofNat 8 pf.length :: pf ++ rest := by
  refine ⟨by decide, (List.length_replicate ..).le, by decide, ?_⟩
  intro cf ctlf pf rest hl h
  have total := congrArg List.length h
  simp only [List.cons_append, List.cons.injEq, true_and] at h
  have first := congrArg BitVec.toNat h.1
  simp at total first
  omega

/-- FrmDecReadsStandardForm: a chain of one link before the last-marked field, the empty chain, the three tails, and a
field that ADDR_DEC refuses. -/
theorem witness_frmDecStandard :
    (∀ p ∈ [(aprsField, aprs)], p.1.length = 7 ∧ (decodeAddress p.1 0).toOption = some (p.2, false)) ∧
      n0call7Last.length = 7 ∧ (decodeAddress n0call7Last 0).toOption = some (n0call7, true) ∧
      withinMax State.reset.config (aprsField ++ n0call7Last ++ [0x03, 0xF0, 0x74]) = true ∧
      [(aprsField, aprs)] ≠ [] ∧ (decodeAddress [0x03, 0xF0] 0).toOption = none ∧
      (aprsField ++ [0x03, 0xF0] : Bytes) ≠ [] ∧ (aprsField ++ [0x03, 0xF0] : Bytes).head? ≠ some 0x01 := by decide

/-- FrmEncChecksTheAddressCountFirst: its three cases. -/
theorem witness_frmEncCount :
    withinMax State.reset.config ([] : Bytes) = true ∧ (∀ a ∈ [aprs, n0call7], withinMax State.reset.config a.callsign = true) ∧
      ([] : List StationAddress).length = 0 ∧ [aprs, n0call7].length ≠ 1 ∧ [aprs].length < 2 := by decide

/-- FrmEncWritesShortForm: 7 bytes; 6 bytes with 255 and with 254 bytes of payload. -/
theorem witness_frmEncShort :
    withinMax State.reset.config (List.replicate 255 (0 : Byte)) = true ∧ 6 < (n0call ++ [0x41]).length ∧
      n0call.length ≤ 6 ∧ 254 < (List.replicate 255 (0 : Byte)).length ∧ (List.replicate 254 (0 : Byte)).length ≤ 254 := by
  exact ⟨rfl, by decide, by decide, by rw [List.length_replicate]; omega, by rw [List.length_replicate]⟩

/-- FrmEncWritesStandardForm: two addresses, the last with SSID 16, and both encodable. -/
theorem witness_frmEncStandard :
    [aprs] ≠ [] ∧ withinMax State.reset.config ([] : Bytes) = true ∧
      (∀ a ∈ [aprs] ++ [address n0call 16], withinMax State.reset.config a.callsign = true) ∧
      (∃ a ∈ [aprs] ++ [address n0call 16], ¬ encodable a) ∧ ∀ a ∈ [aprs] ++ [n0call7], encodable a := by
  unfold encodable; decide

/-- StandardFrameRoundTrips: two valid addresses, under either `CTRL_EMIT`. -/
theorem witness_standardRoundTrip :
    2 ≤ [aprs, n0call7].length ∧ (∀ a ∈ [aprs, n0call7], a.valid = true) ∧
      withinMax State.reset.config ([] : Bytes) = true ∧
      (∀ a ∈ [aprs, n0call7], withinMax State.reset.config a.callsign = true) ∧ State.reset.config.ctrlEmit = .ctrlPid ∧
      (State.resetWith { Config.default with ctrlEmit := .ctrl16be }).config.ctrlEmit = .ctrl16be := by decide

/-- ShortFrameRoundTrips: six bytes, and a payload that begins with "$". -/
theorem witness_shortRoundTrip :
    n0call.length ≤ 6 ∧ ([0x24, 0x78] : Bytes).length ≤ 254 ∧ withinMax State.reset.config [0x24, 0x78] = true ∧
      withinMax State.reset.config n0call = true := by decide

/-- DecodedStandardFrameHasTwoAddresses: a frame of each form is returned. -/
theorem witness_decodedFrame :
    repliedWith (exec (.frmDec (aprsField ++ n0call7Last ++ [0x03]) ⟨4⟩) State.reset) =
        some (.ok (.frame (.standard [aprs, n0call7] 0x03 0x00 [] ⟨4⟩))) ∧
      repliedWith (exec (.frmDec [0x01, 0x00, 0x00, 0x00] ⟨4⟩) State.reset) =
        some (.ok (.frame (.shortForm (address [] 0) 0x00 [] ⟨4⟩))) := by decide

/-- FragDecReadsOneFragment: no byte; headers 0x3F and 0x80 (bit 6 clear); 0x40 alone; 0xC2 with a channel byte. -/
theorem witness_fragDec :
    withinMax State.reset.config [0xC2, 0x07] = true ∧ (0x3F : Byte).toNat / 64 % 2 = 0 ∧ (0x80 : Byte).toNat / 64 % 2 = 0 ∧
      (0x40 : Byte).toNat / 64 % 2 = 1 ∧ ([0xC2, 0x07] : Bytes) = 0xC2 :: ([] ++ [0x07]) ∧
      (0xC2 : Byte).toNat / 64 % 2 = 1 := by decide

/-- FragEncWritesOneFragment: ids 64 and 63. -/
theorem witness_fragEnc :
    withinMax State.reset.config [0x41] = true ∧ 63 < (64 : Byte).toNat ∧ (63 : Byte).toNat ≤ 63 ∧
      withinMax State.reset.config [0xFF, 0x41, 0x07] = true := by decide

/-- FragPushContinuesOrRestarts: a continuing push of exactly the capacity, and of one byte more. -/
theorem witness_fragPush :
    withinMax (capacity 3) [2, 3] = true ∧
      (let s := stateOf (capacity 3) [(5, accumulating 63 [1])]
       (s.slot 5).st = .accumulating ∧ (fragOn 5 false 0 [2, 3]).fragmentId.toNat = ((s.slot 5).lastId.toNat + 1) % 64 ∧
         (s.slot 5).closed = false) ∧
      ([1] ++ [2, 3] : Bytes).length ≤ 3 ∧ 3 < ([1] ++ [2, 3, 4] : Bytes).length := by decide

/-- ReassemblyReturnsTheWholeMessageOnce: V-R11's three fragments, over an Empty slot, a closed one and a stale one. -/
theorem witness_reassembly :
    let frags := [fragOn 0 false 63 [0x41], fragOn 0 false 0 [0x42], fragOn 0 true 1 [0x43]]
    frags.getLast? = some (fragOn 0 true 1 [0x43]) ∧
      (∀ f ∈ frags, f.channelId = 0 ∧ withinMax (capacity 3) f.data = true) ∧
      List.IsChain (fun a b : Fragment => b.fragmentId.toNat = (a.fragmentId.toNat + 1) % 64) frags ∧
      (∀ f ∈ frags.dropLast, f.isFinal = false) ∧ (fragOn 0 true 1 [0x43]).isFinal = true ∧
      ((State.resetWith (capacity 3)).slot 0).st = .empty ∧
      ((stateOf (capacity 3) [(0, closedSlot 62 [1])]).slot 0).closed = true ∧
      (63 : U6).toNat ≠ (((stateOf (capacity 3) [(0, accumulating 63 [1])]).slot 0).lastId.toNat + 1) % 64 ∧
      (frags.map Fragment.data).flatten.length ≤ 3 ∧ 0 < 2 ∧ 2 < frags.length := by decide

/-- DuplicateAndClosedPushesRestart: the same id, and a closed slot. -/
theorem witness_duplicate :
    completes (exec (.fragPush (fragOn 0 false 4 [2])) (stateOf Config.default [(0, accumulating 4 [1])])) = true ∧
      ((stateOf Config.default [(0, accumulating 4 [1])]).slot 0).lastId = 4 ∧
      completes (exec (.fragPush (fragOn 0 false 1 [2])) (stateOf Config.default [(0, closedSlot 0 [1])])) = true ∧
      ((stateOf Config.default [(0, closedSlot 0 [1])]).slot 0).closed = true := by decide

/-- CommandsThatShareNoStateCommute: P5's first two pushes. -/
theorem witness_commute :
    (fragOn 2 false 10 [0x41]).channelId ≠ (fragOn 3 false 0 [0x78]).channelId ∧
      completes (exec (.fragPush (fragOn 2 false 10 [0x41])) State.reset) = true ∧
      completes (exec (.fragPush (fragOn 3 false 0 [0x78])) (stateOf Config.default [(2, accumulating 10 [0x41])])) = true := by
  decide

/-- SlotHoldsThePushesSinceItsRestart: P2's pushes 3 to 5 on key 1, the last a restart, with another key's between. -/
theorem witness_sinceRestart :
    let frags := [fragOn 1 false 3 [0x58, 0x59], fragOn 2 true 0 [0x41], fragOn 1 true 4 [0x5A], fragOn 1 false 5 [0x51]]
    (State.reset.slot 1).st = .empty ∧
      completes (Host.Core.run Sys2Proof.core frags.length (State.reset.withPushes frags)) = true ∧
      (frags.filter fun f => f.channelId = 1).getLast? = some (fragOn 1 false 5 [0x51]) ∧
      frags.getLast? = some (fragOn 1 false 5 [0x51]) ∧ (∀ f ∈ frags, f.channelId ≠ 255) ∧
      sinceRestart ((frags.filter fun f => f.channelId = 1).take 2) = [fragOn 1 false 3 [0x58, 0x59], fragOn 1 true 4 [0x5A]] ∧
      sinceRestart (frags.filter fun f => f.channelId = 1) = [fragOn 1 false 5 [0x51]] := by decide

/-- WireFragmentIsPushedUnderItsChannel: no channel and no host key; a channel; a host key. -/
theorem witness_wireFragment :
    State.reset.config.hostChannelKey = none ∧ (some 7 : Option Byte) = some 7 ∧
      ({ Config.default with hostChannelKey := some 9 } : Config).hostChannelKey = some 9 ∧
      withinMax { Config.default with hostChannelKey := some 9 } [1] = true ∧
      ({ Config.default with hostChannelKey := some 9 } : Config).reasmCapacity = none := by decide

/-- ReadsReturnTheBigEndianValue, WritesReturnAPatchedCopy and ReadAfterWriteReturnsTheValue: the last offset that fits
each width in four bytes, and the first that does not. -/
theorem witness_bytes :
    withinMax { Config.default with maxBufLen := some 4 } [1, 2, 3, 4] = true ∧
      (2 + 2 ≤ ([1, 2, 3, 4] : Bytes).length ∧ ([1, 2, 3, 4] : Bytes).length < 3 + 2) ∧
      (1 + 3 ≤ ([1, 2, 3, 4] : Bytes).length ∧ ([1, 2, 3, 4] : Bytes).length < 2 + 3) ∧
      (0 + 4 ≤ ([1, 2, 3, 4] : Bytes).length ∧ ([1, 2, 3, 4] : Bytes).length < 1 + 4) := by decide

/-- FieldDecodeFollowsItsDescriptor and DecodedRecordsAreCanonical: `L_EX` and a window of its length. -/
theorem witness_fieldDecode :
    layoutWf layoutEx = true ∧ layoutEx.minLen ≤ exBytes.length ∧ Field.bool "rx" 0 7 ∈ layoutEx.fields := by decide

/-- LayoutIsAcceptedExactlyWhenWellFormed: a layout whose last field ends one byte past the window. -/
theorem witness_layoutConditions :
    ¬ layoutConditions { layoutEx with minLen := 7 } ∧
      layoutOf { Config.default with layoutBss := some { layoutEx with minLen := 7 } } .beacon =
        some { layoutEx with minLen := 7 } := by
  refine ⟨fun h => ?_, by decide⟩
  have inside := h.2.1 (.str "name" 5 3 .nulSpace) (by decide)
  exact absurd inside (by simp [insideProp])

/-- GpsRecordHoldsItsPosition: a GPS layout and a window of exactly its length. -/
theorem witness_gpsPosition :
    (State.resetWith exConfig).config.layoutGps = some layoutPos ∧ layoutWf (gpsLayout layoutPos) = true ∧
      withinMax exConfig exBytes = true ∧ layoutPos.minLen ≤ exBytes.length := by decide

/-- RecordDecodeReturnsEveryField: every record's layout, one byte too few and just enough. -/
theorem witness_recDec :
    ([(.capability, decodeLayout layoutDec), (.status, decodeLayout layoutDec), (.channel, layoutEx),
        (.globalSettings, layoutEx), (.beacon, layoutEx), (.gps, gpsLayout layoutPos)] : List (RecordKind × Layout)).all
        (fun p => decide (layoutOf (State.resetWith exConfig).config p.1 = some p.2) && layoutWf p.2 &&
          decide ((exBytes.take 7).length < p.2.minLen) && decide (p.2.minLen ≤ exBytes.length)) = true ∧
      withinMax exConfig exBytes = true := by decide

/-- RecordEncodeStoresEveryField, CanonicalRecordsRoundTrip and ReencodedWindowsKeepTheirOwnedBits: `L_EX` with V-D1's
record and window; a record without its name, and one whose name is no byte string. -/
theorem witness_recEnc :
    ([.channel, .globalSettings, .beacon] : List RecordKind).all
        (fun k => decide (layoutOf (State.resetWith exConfig).config k = some layoutEx) && layoutWf layoutEx) =
          true ∧
      layoutEx.encLen = some 8 ∧ recordFits layoutEx exRecord = true ∧
      recordCanonical layoutEx exRecord = true ∧ (∀ b ∈ recordBuffers exRecord, withinMax exConfig b = true) ∧
      exRecord.lookup (fieldName (.bool "rx" 0 7)) = some (.bool true) ∧ withinMax exConfig exBytes = true ∧
      layoutEx.minLen ≤ exBytes.length ∧ (exRecord.take 4).lookup "name" = none ∧
      (exRecord.take 4 ++ [("name", FieldValue.uint 0)]).lookup "name" = some (.uint 0) ∧
      kindFits (.str "name" 5 3 .nulSpace) (.uint 0) = false := by decide

/-- CanonicalRecordsRoundTrip, where the record comes back equal: the masks of `L_EX` have no hole. -/
theorem witness_insideMasks : insideMasks layoutEx exRecord := by
  intro name off width shift mask n hf _
  simp [layoutEx] at hf
  rcases hf with h | h <;> obtain ⟨-, -, -, -, rfl⟩ := h
  · exact .inl ⟨4, by decide⟩
  · exact .inl ⟨32, by decide⟩

/-- ReencodedWindowsKeepTheirOwnedBits, where every owned bit is kept: the name of V-D1's window is padded with 0x00. -/
theorem witness_nulPadding (name : String) (off len : Nat) (trim : TrimSet)
    (hf : Field.str name off len trim ∈ layoutEx.fields) (p pad : Bytes) (hp : (exBytes.drop off).take len = p ++ pad)
    (ht : ∀ x ∈ pad, trims trim x = true) : ∀ x ∈ pad, x = 0x00 := by
  simp [layoutEx] at hf
  obtain ⟨-, rfl, rfl, rfl⟩ := hf
  intro x hx
  have mem : x ∈ (exBytes.drop 5).take 3 := hp ▸ List.mem_append_right _ hx
  have trimmed := ht x hx
  simp [exBytes] at mem
  rcases mem with rfl | rfl | rfl
  · exact absurd trimmed (by decide)
  · exact absurd trimmed (by decide)
  · rfl

/-- The unowned bits of RecordEncodeStoresEveryField: bit 5 of byte 0 belongs to no field of `L_EX`. -/
theorem witness_unownedBit : ∀ f ∈ layoutEx.fields, ¬ ownsBit f 0 5 := by
  intro f hf
  simp only [layoutEx, List.mem_cons, List.not_mem_nil, or_false] at hf
  rcases hf with rfl | rfl | rfl | rfl | rfl
  · simp [ownsBit]
  · simp [ownsBit]
  · rintro ⟨m, hm, mask, -, bit⟩
    have : m = 5 := by simp only [widthBytes] at hm; omega
    subst this
    exact absurd mask (by decide)
  · simp only [ownsBit, widthBytes, not_exists]
    intro m ⟨_, _, h, _⟩
    omega
  · simp [ownsBit]

/-- RecordCommandsNeedAWellFormedLayout: no layout, an ill-formed one, and one with no encoded length. -/
theorem witness_layoutRefusals :
    withinMax State.reset.config exBytes = true ∧ (∀ b ∈ recordBuffers exRecord, withinMax State.reset.config b = true) ∧
      layoutOf Config.default .gps = none ∧
      layoutOf { Config.default with layoutGps := some { layoutPos with minLen := 7 } } .gps =
        some (gpsLayout { layoutPos with minLen := 7 }) ∧
      layoutWf (gpsLayout { layoutPos with minLen := 7 }) = false ∧
      layoutOf { Config.default with layoutBss := some { layoutEx with encLen := none } } .beacon =
        some { layoutEx with encLen := none } ∧
      layoutWf { layoutEx with encLen := none } = true := by decide

/-- GeoDecReadsTwoSignedValues and the two geo round trips: five and six bytes. -/
theorem witness_geoDec :
    withinMax { Config.default with maxBufLen := some 6 } [0x80, 0, 0, 0x7F, 0xFF, 0xFF] = true ∧
      ([0x80, 0, 0, 0x7F, 0xFF] : Bytes).length < 6 ∧ 6 ≤ ([0x80, 0, 0, 0x7F, 0xFF, 0xFF] : Bytes).length := by decide

/-- GeoValuesRoundTrip: every six-byte buffer fits an unbounded `MAX_BUF_LEN`. -/
theorem witness_geoValues : ∀ b : Bytes, b.length = 6 → withinMax State.reset.config b = true := fun _ _ => rfl

/-- GeoEncWritesTwoScaledValues: products that are the least and the greatest s24, and one beyond (280 degrees). -/
theorem witness_geoEnc :
    ((-8388608 / 30000 : Rat) * 30000).den = 1 ∧ ((-8388608 / 30000 : Rat) * 30000).num = -8388608 ∧
      ((8388607 / 30000 : Rat) * 30000).num = 8388607 ∧ 8388607 < ((280 : Rat) * 30000).num ∧
      ((280 : Rat) * 30000).den = 1 := by
  norm_num

/-- PureCommandsReadAndWriteNoState: two states that differ in a slot and share a configuration. -/
theorem witness_pure :
    isPush (.rd16 [1, 2] 0) = false ∧ State.reset.config = (stateOf Config.default [(0, accumulating 1 [2])]).config ∧
      completes (exec (.rd16 [1, 2] 0) State.reset) = true := by decide

/-- ErrorChangesNoState and OnlyListedStatusesOccur: a command that ends with an error. -/
theorem witness_error :
    completes (exec (.rd16 [1] 0) State.reset) = true ∧
      repliedWith (exec (.rd16 [1] 0) State.reset) = some (.error .truncated) := by decide

/-- CommandsCompleteUnlessR258Stops: a well-formed push of exactly the capacity, and a well-formed command of another
kind. -/
theorem witness_completes :
    Instr.wf (capacity 2) (.fragPush (fragOn 0 true 1 [2])) = true ∧
      withinCapacity (capacity 2)
        (joinedBuffer ((stateOf (capacity 2) [(0, accumulating 0 [1])]).slot 0) (fragOn 0 true 1 [2])).length = true ∧
      Instr.wf exConfig (.recEncChan exRecord) = true := by decide

/-- OversizedOperandIsRefused: an address whose callsign is one byte too long for `MAX_BUF_LEN`, in an instruction and in a
pending command with a reserved opcode. -/
theorem witness_oversized :
    (State.resetWith { Config.default with maxBufLen := some 5 }).config.maxBufLen = some 5 ∧
      5 < n0call.length ∧ n0call ∈ Instr.buffers (.frmEnc .standard [aprs, n0call7] 0 0 []) ∧
      ((State.resetWith { Config.default with maxBufLen := some 5 }).issue ⟨0x00, .addr n0call7⟩).pending =
        [.command ⟨0x00, .addr n0call7⟩] ∧
      n0call ∈ operandBuffers (.addr n0call7) := by decide

/-- StepKeepsTheConfiguration: a step that goes on with a pending command. -/
theorem witness_stepKeeps : completes (step (State.reset.issue ⟨0x30, .dataOffset [1, 2] 0⟩)) = true := by decide

/-- StepKeepsSlotsWithinCapacity: a state with an accumulating slot at the capacity that steps. -/
theorem witness_inv :
    (stateOf (capacity 1) [(0, accumulating 0 [1])]).Inv ∧
      completes (step ((stateOf (capacity 1) [(0, accumulating 0 [1])]).issue (encode (.fragPush (fragOn 0 true 5 [2]))))) =
        true := by
  refine ⟨?_, by decide⟩
  intro k
  simp only [stateOf, List.foldl_cons, List.foldl_nil, State.slot_setSlot, State.slot_resetWith]
  split
  · intro _; decide
  · intro h; cases h

/-- UnreadSlotFieldsAreInvisible: two states that differ in an Empty slot's bytes, a closed slot's bytes and a region. -/
theorem witness_unread :
    (stateOf Config.default [(0, closedSlot 4 [1]), (1, accumulating 2 [9])]).agrees
      (stateOf Config.default [(0, { closedSlot 4 [2] with region := ⟨1⟩ }), (1, { accumulating 2 [9] with region := ⟨1⟩ }),
        (2, { Slot.reset with buf := [5] })]) := by
  refine ⟨rfl, rfl, rfl, ?_⟩
  intro k
  simp only [stateOf, List.foldl_cons, List.foldl_nil, State.slot_setSlot, State.slot_resetWith]
  by_cases h2 : k = 2
  · subst h2; decide
  · by_cases h1 : k = 1
    · subst h1; decide
    · by_cases h0 : k = 0
      · subst h0; decide
      · rw [if_neg h1, if_neg h0, if_neg h2, if_neg h1, if_neg h0]
        decide

end Sys2Proof.Tests
end

section
/-! SUPPORT. The address codec (40_address.md), one equation for each way a codec function of Machine/Address.lean ends,
with the conditions and the results in arithmetic. -/

namespace Sys2Proof.Machine

/-! ### Executing an address command whose buffers are within `MAX_BUF_LEN` -/

theorem exec_addrDec {s : State} {data : Bytes} (h : withinMax s.config data = true) (offset : Nat) :
    exec (.addrDec data offset) s = finish s ((decodeAddress data offset).map fun r => .address r.1 r.2 7) :=
  guarded_of_fits (by simpa using h) _

theorem exec_addrEnc {s : State} {a : StationAddress} (h : withinMax s.config a.callsign = true) (last : Bool) :
    exec (.addrEnc a last) s = finish s ((encodeAddress a last).map .out) :=
  guarded_of_fits (by simpa using h) _

theorem exec_addrParse {s : State} {text : Bytes} (h : withinMax s.config text = true) :
    exec (.addrParse text) s = finish s ((parseAddress text).map .parsed) :=
  guarded_of_fits (by simpa using h) _

theorem exec_addrFmt {s : State} {a : StationAddress} (h : withinMax s.config a.callsign = true) :
    exec (.addrFmt a) s = finish s (.ok (.text (formatAddress a))) :=
  guarded_of_fits (by simpa using h) _

theorem exec_addrSame {s : State} {a b : StationAddress} (ha : withinMax s.config a.callsign = true)
    (hb : withinMax s.config b.callsign = true) :
    exec (.addrSame a b) s = finish s (.ok (.same (sameAddress a b))) :=
  guarded_of_fits (by simp [ha, hb]) _

/-! ### ADDR_SAME -/

theorem sameAddress_iff (a b : StationAddress) :
    sameAddress a b = true ↔ a.callsign = b.callsign ∧ a.ssid = b.ssid := by
  simp [sameAddress]

/-! ### ADDR_FMT -/

/-- The unit's digit bytes are the library's decimal digits, most significant first. -/
theorem decimalBytes_eq_digits {n : Byte} (h : n ≠ 0) :
    decimalBytes n = (Nat.digits 10 n.toNat).reverse.map fun d => BitVec.ofNat 8 (0x30 + d) := by
  have hpos : 0 < n.toNat := Nat.pos_of_ne_zero fun e => h (BitVec.eq_of_toNat_eq e)
  have hlt : n.toNat < 256 := n.isLt
  unfold decimalBytes
  split_ifs with h1 h2
  · rw [Nat.digits_of_lt 10 _ hpos.ne' h1]
    rfl
  · rw [Nat.digits_def' (by omega) hpos, Nat.digits_of_lt 10 _ (by omega) (by omega)]
    rfl
  · rw [Nat.digits_def' (by omega) hpos, Nat.digits_def' (by omega) (by omega), Nat.div_div_eq_div_mul,
      Nat.digits_of_lt 10 _ (by omega) (by omega)]
    rfl

theorem formatAddress_of_ssid_zero {a : StationAddress} (h : a.ssid = 0) : formatAddress a = a.callsign := if_pos h

theorem formatAddress_of_ssid_ne_zero {a : StationAddress} (h : a.ssid ≠ 0) :
    formatAddress a =
      a.callsign ++ 0x2D :: (Nat.digits 10 a.ssid.toNat).reverse.map fun d => BitVec.ofNat 8 (0x30 + d) := by
  rw [← decimalBytes_eq_digits h]
  exact if_neg h

/-! ### ADDR_ENC -/

theorem encodeAddress_of_out_of_range {a : StationAddress} (last : Bool)
    (h : 6 < a.callsign.length ∨ 15 < a.ssid.toNat) : encodeAddress a last = .error .invalidAddress := by
  unfold encodeAddress
  split_ifs with h1 h2
  · rfl
  · rfl
  · exact absurd h (not_or.mpr ⟨h1, h2⟩)

/-- A buffer padded to `n` bytes, byte by byte. -/
theorem append_replicate_eq_map {b : Bytes} {n : Nat} (pad : Byte) (h : b.length ≤ n) :
    b ++ List.replicate (n - b.length) pad = (List.range n).map fun i => b.getD i pad := by
  apply List.ext_getElem
  · simp; omega
  · intro i h1 h2
    rcases Nat.lt_or_ge i b.length with hi | hi
    · simp [List.getElem_append_left, hi]
    · simp [List.getElem_append_right, hi]

/-- The machine's shifts and masks give the field R102 lays out. -/
theorem encodeAddress_of_encodable {a : StationAddress} (last : Bool) (h : encodable a) :
    encodeAddress a last = .ok (wireField a last) := by
  obtain ⟨hlen, hssid⟩ := h
  unfold encodeAddress wireField
  rw [if_neg (by omega), if_neg (by omega)]
  simp only [append_replicate_eq_map _ hlen, addressTrailer_eq, List.map_map, shiftLeft_one, Function.comp_def]

/-! ### ADDR_DEC -/

theorem decodeAddress_of_short {data : Bytes} {offset : Nat} (h : data.length < offset + 7) :
    decodeAddress data offset = .error .invalidLength := if_pos h

/-- R101's check of the six callsign bytes, in arithmetic. -/
theorem all_callsignByteOk_iff {data : Bytes} {offset : Nat} (h : offset + 7 ≤ data.length) :
    (memRead data offset 6).all callsignByteOk = true ↔
      ∀ i, i < 6 → natAt data (offset + i) % 2 = 0 ∧ 0x20 ≤ natAt data (offset + i) / 2 := by
  simp [memRead_eq_map (show offset + 6 ≤ data.length by omega), callsignByteOk_iff, natAt_eq_byteAt]

theorem decodeAddress_of_malformed {data : Bytes} {offset : Nat} (h : offset + 7 ≤ data.length)
    (hbad : ∃ i, i < 6 ∧ (natAt data (offset + i) % 2 = 1 ∨ natAt data (offset + i) / 2 < 0x20)) :
    decodeAddress data offset = .error .malformedAddress := by
  obtain ⟨i, hi, hb⟩ := hbad
  have hnot : ¬ (memRead data offset 6).all callsignByteOk = true := by
    rw [all_callsignByteOk_iff h]
    intro hall
    have := hall i hi
    omega
  unfold decodeAddress
  rw [if_neg (by omega)]
  exact if_neg hnot

/-- What is left of six characters without their trailing spaces (R65). -/
theorem callsignOf_memRead {data call : Bytes} {offset pad : Nat} (h : offset + 7 ≤ data.length)
    (hcall : call ++ List.replicate pad 0x20 =
      (List.range 6).map fun i => BitVec.ofNat 8 (natAt data (offset + i) / 2))
    (hlast : call.getLast? ≠ some 0x20) : callsignOf (memRead data offset 6) = call := by
  have hchars : (memRead data offset 6).map (fun b : Byte => b >>> 1) = call ++ List.replicate pad 0x20 := by
    rw [hcall, memRead_eq_map (show offset + 6 ≤ data.length by omega), List.map_map]
    simp only [Function.comp_def, shiftRight_one, natAt_eq_byteAt]
  unfold callsignOf
  rw [hchars]
  apply rtrim_append
  · intro x hx
    simp [List.eq_of_mem_replicate hx]
  · intro x hx
    have hne : x ≠ 0x20 := by rintro rfl; exact hlast hx
    simpa using hne

theorem decodeAddress_of_wellFormed {data call : Bytes} {offset pad : Nat} (h : offset + 7 ≤ data.length)
    (hok : ∀ i, i < 6 → natAt data (offset + i) % 2 = 0 ∧ 0x20 ≤ natAt data (offset + i) / 2)
    (hcall : call ++ List.replicate pad 0x20 =
      (List.range 6).map fun i => BitVec.ofNat 8 (natAt data (offset + i) / 2))
    (hlast : call.getLast? ≠ some 0x20) :
    decodeAddress data offset = .ok
      ({ callsign := call, ssid := BitVec.ofNat 8 (natAt data (offset + 6) / 2 % 16),
         cr1 := decide (natAt data (offset + 6) / 128 % 2 = 1),
         cr2 := decide (natAt data (offset + 6) / 64 % 2 = 1),
         cr3 := decide (natAt data (offset + 6) / 32 % 2 = 1) },
       decide (natAt data (offset + 6) % 2 = 1)) := by
  obtain ⟨hssid, hcr1, hcr2, hcr3, hmark⟩ := trailer_fields (byteAt data (offset + 6))
  unfold decodeAddress
  rw [if_neg (by omega)]
  simp only [(all_callsignByteOk_iff h).mpr hok, if_true, callsignOf_memRead h hcall hlast, hssid, hcr1, hcr2, hcr3,
    hmark]
  rfl

/-! ### ADDR_PARSE -/

/-- Horner's scheme over a digit string is the library's value of its digits. -/
theorem decimalValue_eq_ofDigits (b : Bytes) :
    decimalValue b = Nat.ofDigits 10 (b.reverse.map fun d => d.toNat - 0x30) := by
  unfold decimalValue
  rw [Nat.ofDigits_eq_foldr, List.foldr_map, List.foldr_reverse]
  congr 1
  funext acc x
  simp only [Nat.cast_id]
  omega

theorem parseCallsign_ok {call : Bytes} (ssid : Nat) (h1 : 1 ≤ call.length) (h6 : call.length ≤ 6) :
    parseCallsign call ssid = .ok (plainAddress call (BitVec.ofNat 8 ssid)) := if_neg (by omega)

theorem parseCallsign_error {call : Bytes} (ssid : Nat) (h : ¬ (1 ≤ call.length ∧ call.length ≤ 6)) :
    parseCallsign call ssid = .error .invalidFormat := if_pos (by omega)

theorem parseAddress_of_no_dash {text : Bytes} (h9 : text.length ≤ 9) (h : (0x2D : Byte) ∉ text) :
    parseAddress text = parseCallsign text 0 := by
  unfold parseAddress
  rw [if_neg (by omega), if_neg (by simpa using h)]

theorem parseAddress_of_long {text : Bytes} (h : 9 < text.length) : parseAddress text = .error .invalidFormat := if_pos h

/-- The split at the first dash: what comes before it and what comes after. -/
theorem takeWhile_append_dash {call : Bytes} (digits : Bytes) (h : (0x2D : Byte) ∉ call) :
    (call ++ 0x2D :: digits).takeWhile (· != 0x2D) = call := by
  rw [List.takeWhile_append_of_pos (by intro x hx; simpa using ne_of_mem_of_not_mem hx h)]
  simp

/-- ADDR_PARSE after the split at the first dash. -/
theorem parseAddress_of_dash {call digits : Bytes} (h9 : (call ++ 0x2D :: digits).length ≤ 9)
    (h : (0x2D : Byte) ∉ call) :
    parseAddress (call ++ 0x2D :: digits) =
      if digits ≠ [] ∧ (∀ d ∈ digits, isDigit d = true) ∧ decimalValue digits ≤ 15 then
        parseCallsign call (decimalValue digits)
      else .error .invalidFormat := by
  have hdrop : (call ++ 0x2D :: digits).drop (call.length + 1) = digits := by simp
  unfold parseAddress
  rw [if_neg (by omega), if_pos (by simp)]
  simp only [takeWhile_append_dash digits h, hdrop, ← List.all_eq_true]
  by_cases hne : digits = []
  · simp [hne]
  by_cases hall : digits.all isDigit = true
  · rcases Nat.lt_or_ge 15 (decimalValue digits) with hval | hval
    · simp [hne, hall, hval]
    · simp [hne, hall, hval, Nat.not_lt.mpr hval]
  · simp [hne, hall]

/-- R103's conditions on what stands before and after the first dash of a text. -/
def isDashedText (call digits : Bytes) : Prop :=
  1 ≤ call.length ∧ call.length ≤ 6 ∧ digits ≠ [] ∧ (∀ d ∈ digits, 0x30 ≤ d.toNat ∧ d.toNat ≤ 0x39) ∧
    (call ++ 0x2D :: digits).length ≤ 9 ∧ decimalValue digits ≤ 15

theorem parseAddress_of_isDashedText {call digits : Bytes} (hdash : (0x2D : Byte) ∉ call)
    (h : isDashedText call digits) :
    parseAddress (call ++ 0x2D :: digits) = .ok (plainAddress call (BitVec.ofNat 8 (decimalValue digits))) := by
  obtain ⟨h1, h6, hne, hdigits, h9, hval⟩ := h
  rw [parseAddress_of_dash h9 hdash, if_pos ⟨hne, fun d hd => (isDigit_iff d).mpr (hdigits d hd), hval⟩,
    parseCallsign_ok _ h1 h6]

theorem parseAddress_of_not_isDashedText {call digits : Bytes} (hdash : (0x2D : Byte) ∉ call)
    (h : ¬ isDashedText call digits) : parseAddress (call ++ 0x2D :: digits) = .error .invalidFormat := by
  rcases Nat.lt_or_ge 9 (call ++ 0x2D :: digits).length with h9 | h9
  · exact parseAddress_of_long h9
  · rw [parseAddress_of_dash h9 hdash]
    split_ifs with hsuffix
    · obtain ⟨hne, hdigits, hval⟩ := hsuffix
      exact parseCallsign_error _ fun ⟨h1, h6⟩ =>
        h ⟨h1, h6, hne, fun d hd => (isDigit_iff d).mp (hdigits d hd), h9, hval⟩
    · rfl

theorem parseAddress_of_no_dash_of_length {text : Bytes} (hdash : (0x2D : Byte) ∉ text)
    (h : ¬ (1 ≤ text.length ∧ text.length ≤ 6)) : parseAddress text = .error .invalidFormat := by
  rcases Nat.lt_or_ge 9 text.length with h9 | h9
  · exact parseAddress_of_long h9
  · rw [parseAddress_of_no_dash h9 hdash, parseCallsign_error _ h]

end Sys2Proof.Machine
end

section
/-! The obligations about station addresses. In each, decoding the command is the port's round trip and the command's
meaning is its codec function's answer. -/

namespace Sys2Proof.Proofs

open Sys2Proof.Machine Sys2Proof.Laws

/-- Settles O7, by the three ways `decodeAddress` ends. -/
theorem addrDecReadsOneAddressField : Obligations.AddrDecReadsOneAddressField := by
  intro s data offset hmax
  refine ⟨PortRoundTrip.addrDec data offset, ?_, ?_, ?_⟩
  · intro hshort
    rw [exec_addrDec hmax, decodeAddress_of_short hshort]
    rfl
  · intro hfits hbad
    rw [exec_addrDec hmax, decodeAddress_of_malformed hfits hbad]
    rfl
  · intro hfits hok call pad hcall hlast
    rw [exec_addrDec hmax, decodeAddress_of_wellFormed hfits hok hcall hlast]
    rfl

/-- Settles O8: the encoder's bytes are those of `wireField`. -/
theorem addrEncWritesOneAddressField : Obligations.AddrEncWritesOneAddressField := by
  intro s a last hmax
  refine ⟨PortRoundTrip.addrEnc a last, ?_, ?_⟩
  · intro hrange
    rw [exec_addrEnc hmax, encodeAddress_of_out_of_range last hrange]
    rfl
  · intro henc
    rw [exec_addrEnc hmax, encodeAddress_of_encodable last henc]
    rfl

/-- Settles O9, by the text's split at its first dash, or its having none. -/
theorem addrParseReadsTheTextForm : Obligations.AddrParseReadsTheTextForm := by
  intro s text hmax
  rw [exec_addrParse hmax]
  refine ⟨PortRoundTrip.addrParse text, ?_, ?_, ?_⟩
  · intro h1 h6 hdash
    rw [parseAddress_of_no_dash (by omega) hdash, parseCallsign_ok _ h1 h6]
    rfl
  · rintro call digits rfl h1 h6 hdash hne hdigits h9 hval
    rw [← decimalValue_eq_ofDigits] at hval ⊢
    rw [parseAddress_of_isDashedText hdash ⟨h1, h6, hne, hdigits, h9, hval⟩]
    rfl
  · intro hplain hdashed
    have herror : parseAddress text = .error .invalidFormat := by
      by_cases hmem : (0x2D : Byte) ∈ text
      · obtain ⟨call, digits, rfl, hdash⟩ := List.eq_append_cons_of_mem hmem
        apply parseAddress_of_not_isDashedText hdash
        rintro ⟨h1, h6, hne, hdigits, h9, hval⟩
        have := hdashed call digits rfl h1 h6 hdash hne hdigits h9
        rw [← decimalValue_eq_ofDigits] at this
        omega
      · exact parseAddress_of_no_dash_of_length hmem fun ⟨h1, h6⟩ => hplain ⟨h1, h6, hmem⟩
    rw [herror]
    rfl

/-- Settles O10: the SSID's digit bytes are the library's decimal digits. -/
theorem addrFmtWritesTheTextForm : Obligations.AddrFmtWritesTheTextForm := by
  intro s a hmax
  rw [exec_addrFmt hmax]
  refine ⟨PortRoundTrip.addrFmt a, ?_, ?_⟩
  · intro hzero
    rw [formatAddress_of_ssid_zero hzero]
    rfl
  · intro hne
    rw [formatAddress_of_ssid_ne_zero hne]
    rfl

/-- Settles O11: the reply carries `sameAddress`. -/
theorem addrSameComparesCallsignAndSsid : Obligations.AddrSameComparesCallsignAndSsid := by
  intro s a b ha hb
  exact ⟨PortRoundTrip.addrSame a b, sameAddress a b, exec_addrSame ha hb, sameAddress_iff a b⟩

end Sys2Proof.Proofs
end

section
/-! SUPPORT. The frame codec (41_frame.md), one equation for each way a codec function of Machine/Frame.lean ends. -/

namespace Sys2Proof.Machine

/-! ### Executing a frame command whose buffers are within `MAX_BUF_LEN` -/

theorem exec_frmDec {s : State} {data : Bytes} (h : withinMax s.config data = true) (time : Time) :
    exec (.frmDec data time) s = finish s ((decodeFrame data time).map .frame) :=
  guarded_of_fits (by simpa using h) _

theorem exec_frmEnc {s : State} {addresses : List StationAddress} {payload : Bytes}
    (hp : withinMax s.config payload = true) (ha : ∀ a ∈ addresses, withinMax s.config a.callsign = true)
    (format : FrameFormat) (control protocolId : Byte) :
    exec (.frmEnc format addresses control protocolId payload) s =
      finish s ((encodeFrame s.config.ctrlEmit format addresses control protocolId payload).map .out) :=
  guarded_of_fits (by simpa using ⟨hp, ha⟩) _

/-! ### FRM_DEC's dispatch -/

theorem decodeFrame_of_marker {data : Bytes} (time : Time) (h : data.head? = some sfMarker) :
    decodeFrame data time = decodeShort data time := by
  obtain ⟨d, rfl⟩ := List.head?_eq_some_iff.mp h
  simp [decodeFrame]

theorem decodeFrame_of_no_marker {data : Bytes} (time : Time) (hne : data ≠ []) (h : data.head? ≠ some sfMarker) :
    decodeFrame data time = decodeStandard data time := by
  obtain ⟨b, d, rfl⟩ := List.exists_cons_of_ne_nil hne
  exact if_neg fun e => h (congrArg some e)

/-! ### SF_DEC -/

theorem dropLeading_eq (c : Byte) (b : Bytes) : dropLeading c b = if b.head? = some c then b.tail else b := by
  cases b <;> simp [dropLeading]

theorem byteAt_zero (b : Bytes) : byteAt b 0 = b.headD 0x00 := by cases b <;> rfl

/-- R131's frame of its three fields, with what is removed and the control byte written out. -/
theorem shortFrame_eq (cf ctlf pf : Bytes) (time : Time) :
    shortFrame cf ctlf pf time = .shortForm
      { callsign := if cf.head? = some 0x20 then cf.tail else cf, ssid := 0, cr1 := false, cr2 := false, cr3 := false }
      (ctlf.headD 0x00) (if pf.head? = some 0x24 then pf.tail else pf) time := by
  unfold shortFrame plainAddress
  rw [dropLeading_eq, dropLeading_eq, byteAt_zero]
  rfl

/-- A length-withLength field (R67). -/
def withLength (field : Bytes) : Bytes := BitVec.ofNat 8 field.length :: field

theorem length_withLength (field : Bytes) : (withLength field).length = 1 + field.length := by
  simp [withLength, Nat.add_comm]

/-- The field's bytes are read at the field's place, and the next index is the place after it. -/
theorem takeField_withLength (before after : Bytes) {field : Bytes} (h : field.length ≤ 255) :
    takeField (before ++ withLength field ++ after) before.length =
      .ok (field, (before ++ withLength field).length) := by
  rw [List.length_append, length_withLength, ← Nat.add_assoc]
  exact takeField_ok before field after h

theorem decodeShort_of_fields {cf ctlf pf : Bytes} (rest : Bytes) (time : Time) (hc : cf.length ≤ 255)
    (ht : ctlf.length ≤ 255) (hp : pf.length ≤ 255) :
    decodeShort ([sfMarker] ++ withLength cf ++ withLength ctlf ++ withLength pf ++ rest) time =
      .ok (shortFrame cf ctlf pf time) := by
  have call := takeField_withLength [sfMarker] (withLength ctlf ++ withLength pf ++ rest) hc
  have ctrl := takeField_withLength ([sfMarker] ++ withLength cf) (withLength pf ++ rest) ht
  have pay := takeField_withLength ([sfMarker] ++ withLength cf ++ withLength ctlf) rest hp
  simp only [← List.append_assoc] at call ctrl
  unfold decodeShort
  rw [show 1 = [sfMarker].length from rfl, call]
  simp only [ctrl, pay]

/-- A field that was read stands in the buffer, and the next index is the place after it. -/
theorem takeField_eq_ok_withLength {before d field : Bytes} {i : Nat}
    (h : takeField (before ++ d) before.length = .ok (field, i)) :
    field.length ≤ 255 ∧ i = (before ++ withLength field).length ∧ ∃ after, d = withLength field ++ after := by
  obtain ⟨field', after, hd, hlen, hr⟩ := takeField_eq_ok h
  cases hr
  refine ⟨hlen, ?_, after, hd⟩
  rw [List.length_append, length_withLength, Nat.add_assoc]

/-- SF_DEC succeeds only on three fields that are all there. -/
theorem decodeShort_eq_ok {d : Bytes} {time : Time} {f : Frame} (h : decodeShort ([sfMarker] ++ d) time = .ok f) :
    ∃ cf ctlf pf rest : Bytes, cf.length ≤ 255 ∧ ctlf.length ≤ 255 ∧ pf.length ≤ 255 ∧
      d = withLength cf ++ withLength ctlf ++ withLength pf ++ rest := by
  unfold decodeShort at h
  split at h
  · cases h
  next cf i call =>
  obtain ⟨hc, rfl, d₁, rfl⟩ := takeField_eq_ok_withLength (before := [sfMarker]) call
  split at h
  · cases h
  next ctlf j ctrl =>
  rw [← List.append_assoc] at ctrl h
  obtain ⟨ht, rfl, d₂, rfl⟩ := takeField_eq_ok_withLength ctrl
  split at h
  · cases h
  next pf k pay =>
  rw [← List.append_assoc] at pay
  obtain ⟨hp, -, rest, rfl⟩ := takeField_eq_ok_withLength pay
  exact ⟨cf, ctlf, pf, rest, hc, ht, hp, by simp⟩

/-- SF_DEC fails with Truncated alone, as each of its fields does. -/
theorem decodeShort_error {data : Bytes} {time : Time} {e : ErrorKind} (h : decodeShort data time = .error e) :
    e = .truncated := by
  unfold decodeShort at h
  split at h
  next call => cases h; exact takeField_error call
  split at h
  next ctrl => cases h; exact takeField_error ctrl
  split at h
  next pay => cases h; exact takeField_error pay
  cases h

/-! ### STD_DEC -/

/-- ADDR_DEC reads no byte after its field. -/
theorem decodeAddress_append {field : Bytes} (rest : Bytes) (h : field.length = 7) :
    decodeAddress (field ++ rest) 0 = decodeAddress field 0 := by
  have six : memRead (field ++ rest) 0 6 = memRead field 0 6 := by
    simp [memRead, List.take_append_of_le_length, h]
  have trailer : byteAt (field ++ rest) (0 + 6) = byteAt field (0 + 6) := by
    simp [byteAt, List.getElem?_append_left, h]
  have hlong : ¬ (field ++ rest).length < 0 + 7 := by simp; omega
  have hfits : ¬ field.length < 0 + 7 := by omega
  simp only [decodeAddress, if_neg hlong, if_neg hfits, six, trailer]

/-- R68: an address field never begins with the ShortForm marker, whose bit 0 is set. -/
theorem head?_ne_sfMarker_of_decodeAddress {field : Bytes} {r : StationAddress × Bool}
    (h : decodeAddress field 0 = .ok r) : field.head? ≠ some sfMarker := by
  intro hhead
  obtain ⟨d, rfl⟩ := List.head?_eq_some_iff.mp hhead
  rcases Nat.lt_or_ge (sfMarker :: d).length 7 with hshort | hfits
  · rw [decodeAddress_of_short (by omega)] at h
    cases h
  · rw [decodeAddress_of_malformed (by omega) ⟨0, by decide, .inl rfl⟩] at h
    cases h

/-- The last-marked field ends the chain. -/
theorem decodeChain_last {field : Bytes} {a : StationAddress} (tail : Bytes) (hlen : field.length = 7)
    (h : decodeAddress field 0 = .ok (a, true)) : decodeChain (field ++ tail) = .ok ([a], tail) := by
  rw [decodeChain_field tail hlen, h]

/-- A field that ADDR_DEC refuses, or that is not all there, ends the chain with MalformedAddress. -/
theorem decodeChain_of_bad {bad : Bytes} {e : ErrorKind} (h : decodeAddress bad 0 = .error e) :
    decodeChain bad = .error .malformedAddress := by
  rcases Nat.lt_or_ge bad.length 7 with hshort | hfits
  · refine decodeChain.eq_2 bad ?_
    rintro b0 b1 b2 b3 b4 b5 b6 rest rfl
    simp only [List.length_cons] at hshort
    omega
  · have hlen : (bad.take 7).length = 7 := by simp [hfits]
    rw [← List.take_append_drop 7 bad, decodeAddress_append _ hlen] at h
    rw [← List.take_append_drop 7 bad, decodeChain_field _ hlen, h]

/-- The fields before the last-marked one give their addresses in order. -/
theorem decodeChain_append {chain : List (Bytes × StationAddress)} (rest : Bytes)
    (h : ∀ p ∈ chain, p.1.length = 7 ∧ decodeAddress p.1 0 = .ok (p.2, false)) :
    decodeChain ((chain.map Prod.fst).flatten ++ rest) =
      (decodeChain rest).map fun r => (chain.map Prod.snd ++ r.1, r.2) := by
  induction chain with
  | nil => cases hr : decodeChain rest <;> simp [hr, Except.map]
  | cons p chain ih =>
    obtain ⟨⟨hlen, hdec⟩, hchain⟩ := List.forall_mem_cons.mp h
    simp only [List.map_cons, List.flatten_cons, List.append_assoc, decodeChain_field _ hlen, hdec, ih hchain]
    cases decodeChain rest <;> rfl

/-- A whole chain: the fields before the last-marked one, that one, and what is left for the header. -/
theorem decodeChain_of_chain {chain : List (Bytes × StationAddress)} {field : Bytes} {a : StationAddress} (tail : Bytes)
    (hchain : ∀ p ∈ chain, p.1.length = 7 ∧ decodeAddress p.1 0 = .ok (p.2, false)) (hlen : field.length = 7)
    (hlast : decodeAddress field 0 = .ok (a, true)) :
    decodeChain ((chain.map Prod.fst).flatten ++ field ++ tail) = .ok (chain.map Prod.snd ++ [a], tail) := by
  rw [List.append_assoc, decodeChain_append _ hchain, decodeChain_last tail hlen hlast]
  rfl

/-- The first field of a chain keeps the buffer from the ShortForm decoder. -/
theorem decodeFrame_of_chain {chain : List (Bytes × StationAddress)} {field : Bytes} {a : StationAddress} (tail : Bytes)
    (time : Time) (hchain : ∀ p ∈ chain, p.1.length = 7 ∧ decodeAddress p.1 0 = .ok (p.2, false))
    (hlen : field.length = 7) (hlast : decodeAddress field 0 = .ok (a, true)) :
    decodeFrame ((chain.map Prod.fst).flatten ++ field ++ tail) time =
      if chain = [] then .error .malformedAddress else standardTail (chain.map Prod.snd ++ [a]) tail time := by
  obtain ⟨first, rest, r, hdata, hfirst, hdec⟩ : ∃ first rest r, (chain.map Prod.fst).flatten ++ field ++ tail =
      first ++ rest ∧ first.length = 7 ∧ decodeAddress first 0 = .ok r := by
    cases chain with
    | nil => exact ⟨field, tail, _, by simp, hlen, hlast⟩
    | cons p chain =>
      obtain ⟨hp, hdec⟩ := hchain p List.mem_cons_self
      exact ⟨p.1, (chain.map Prod.fst).flatten ++ field ++ tail, _, by simp, hp, hdec⟩
  have hhead : (first ++ rest).head? ≠ some sfMarker :=
    head?_ne_sfMarker_of_decodeAddress ((decodeAddress_append rest hfirst).trans hdec)
  have hne : first ++ rest ≠ [] := List.append_ne_nil_of_left_ne_nil (List.ne_nil_of_length_eq_add_one hfirst) rest
  rw [← hdata] at hhead hne
  rw [decodeFrame_of_no_marker time hne hhead]
  unfold decodeStandard
  rw [decodeChain_of_chain tail hchain hlen hlast]
  cases chain <;> simp

theorem decodeFrame_of_bad_field {chain : List (Bytes × StationAddress)} {bad : Bytes} {e : ErrorKind} (time : Time)
    (hchain : ∀ p ∈ chain, p.1.length = 7 ∧ decodeAddress p.1 0 = .ok (p.2, false))
    (hbad : decodeAddress bad 0 = .error e) (hne : (chain.map Prod.fst).flatten ++ bad ≠ [])
    (hhead : ((chain.map Prod.fst).flatten ++ bad).head? ≠ some sfMarker) :
    decodeFrame ((chain.map Prod.fst).flatten ++ bad) time = .error .malformedAddress := by
  rw [decodeFrame_of_no_marker time hne hhead]
  unfold decodeStandard
  rw [decodeChain_append _ hchain, decodeChain_of_bad hbad]
  rfl

/-! ### SF_ENC -/

theorem encodeShort_of_long_callsign {a : StationAddress} (payload : Bytes) (h : 6 < a.callsign.length) :
    encodeShort a payload = .error .invalidAddress := if_pos h

theorem encodeShort_of_long_payload {a : StationAddress} {payload : Bytes} (ha : a.callsign.length ≤ 6)
    (hp : 254 < payload.length) : encodeShort a payload = .error .notEncodable := by
  unfold encodeShort
  rw [if_neg (by omega), if_pos hp]

theorem encodeShort_of_fits {a : StationAddress} {payload : Bytes} (ha : a.callsign.length ≤ 6)
    (hp : payload.length ≤ 254) :
    encodeShort a payload = .ok ([0x01, BitVec.ofNat 8 (1 + a.callsign.length), 0x20] ++ a.callsign ++
      [0x01, 0x21, BitVec.ofNat 8 (1 + payload.length), 0x24] ++ payload) := by
  unfold encodeShort
  rw [if_neg (by omega), if_neg (by omega)]
  simp [sfMarker, sfCallPrefix, sfCtrlLen, sfControl, sfPayloadPrefix]

/-! ### STD_ENC -/

theorem encodeFrame_standard (emit : CtrlEmit) {init : List StationAddress} (final : StationAddress)
    (control protocolId : Byte) (payload : Bytes) (h : init ≠ []) :
    encodeFrame emit .standard (init ++ [final]) control protocolId payload =
      encodeStandard emit (init ++ [final]) control protocolId payload := by
  match init, h with
  | [_], _ => rfl
  | _ :: _ :: _, _ => rfl

/-- R135: one address that ADDR_ENC refuses, wherever it stands, fails the whole chain. -/
theorem encodeChain_of_not_encodable {addresses : List StationAddress} (h : ∃ a ∈ addresses, ¬ encodable a) :
    encodeChain addresses = .error .invalidAddress := by
  induction addresses with
  | nil => simp at h
  | cons a rest ih =>
    unfold encodeChain
    by_cases ha : encodable a
    · rw [encodeAddress_of_encodable _ ha, ih (by simpa [ha] using h)]
    · have hrange : 6 < a.callsign.length ∨ 15 < a.ssid.toNat := by
        simpa [encodable, Decidable.imp_iff_not_or] using ha
      rw [encodeAddress_of_out_of_range _ hrange]

/-- R135: the fields in order, only the final one marked last. -/
theorem encodeChain_of_encodable {init : List StationAddress} {final : StationAddress}
    (h : ∀ a ∈ init ++ [final], encodable a) :
    encodeChain (init ++ [final]) = .ok ((init.map fun a => wireField a false).flatten ++ wireField final true) := by
  induction init with
  | nil => simp [encodeChain, encodeAddress_of_encodable true (h final (by simp))]
  | cons a init ih =>
    obtain ⟨ha, hrest⟩ := List.forall_mem_cons.mp h
    have not_last : (init ++ [final]).isEmpty = false := by simp
    simp [encodeChain, not_last, encodeAddress_of_encodable false ha, ih hrest]

theorem standardHeader_eq (emit : CtrlEmit) (control protocolId : Byte) :
    standardHeader emit control protocolId = if emit = .ctrlPid then [control, protocolId] else [0x00, control] := by
  cases emit <;> rfl

end Sys2Proof.Machine
end

section
/-! The obligations about frames. In each, the command's meaning is its codec function's answer. -/

namespace Sys2Proof.Proofs

open Sys2Proof.Machine Sys2Proof.Laws

/-- Settles O14: SF_DEC answers on three fields that are all there and on nothing else. -/
theorem frmDecReadsShortForm : Obligations.FrmDecReadsShortForm := by
  intro s data time hmax
  rw [exec_frmDec hmax]
  refine ⟨PortRoundTrip.frmDec data time, ?_, ?_, ?_⟩
  · rintro rfl
    rfl
  · rintro cf ctlf pf rest hc ht hp rfl
    rw [decodeFrame_of_marker time rfl, ← shortFrame_eq]
    exact congrArg (fun r => finish s (r.map .frame)) (decodeShort_of_fields rest time hc ht hp)
  · intro hhead hno
    obtain ⟨d, rfl⟩ := List.head?_eq_some_iff.mp hhead
    rw [decodeFrame_of_marker time hhead]
    cases hshort : decodeShort (0x01 :: d) time with
    | error e =>
      rw [decodeShort_error hshort]
      rfl
    | ok f =>
      obtain ⟨cf, ctlf, pf, rest, hc, ht, hp, rfl⟩ := decodeShort_eq_ok hshort
      exact absurd rfl (hno cf ctlf pf rest hc ht hp)

/-- Settles O15: the chain's first field excludes the ShortForm marker, and its fields give the addresses in order. -/
theorem frmDecReadsStandardForm : Obligations.FrmDecReadsStandardForm := by
  intro s time chain hchain
  refine ⟨?_, ?_⟩
  · rintro field tail a data hlen hlast rfl hmax
    rw [exec_frmDec hmax, decodeFrame_of_chain tail time hchain hlen hlast]
    refine ⟨?_, ?_, ?_, ?_⟩
    · intro hone
      rw [if_pos hone]
      rfl
    · rintro hmore rfl
      rw [if_neg hmore]
      rfl
    · rintro control hmore rfl
      rw [if_neg hmore]
      rfl
    · rintro control protocolId payload hmore rfl
      rw [if_neg hmore]
      rfl
  · rintro bad data e hbad rfl hne hhead hmax
    rw [exec_frmDec hmax, decodeFrame_of_bad_field time hchain hbad hne hhead]
    rfl

/-- Settles O17, by the three ways `encodeShort` ends. -/
theorem frmEncWritesShortForm : Obligations.FrmEncWritesShortForm := by
  intro s a control protocolId payload hpay hcall
  have hexec : exec (.frmEnc .shortForm [a] control protocolId payload) s =
      finish s ((encodeShort a payload).map .out) :=
    exec_frmEnc hpay (by simpa using hcall) .shortForm control protocolId
  rw [hexec]
  refine ⟨?_, ?_, ?_⟩
  · intro hlong
    rw [encodeShort_of_long_callsign payload hlong]
    rfl
  · intro ha hlong
    rw [encodeShort_of_long_payload ha hlong]
    rfl
  · intro ha hp
    rw [encodeShort_of_fits ha hp]
    rfl

/-- Settles O18: the chain's encoder answers exactly where ADDR_ENC accepts every address. -/
theorem frmEncWritesStandardForm : Obligations.FrmEncWritesStandardForm := by
  intro s init final control protocolId payload hinit hpay hcalls
  rw [exec_frmEnc hpay hcalls, encodeFrame_standard _ _ _ _ _ hinit, ← standardHeader_eq]
  refine ⟨PortRoundTrip.frmEnc .standard (init ++ [final]) control protocolId payload, ?_, ?_⟩
  · intro hbad
    unfold encodeStandard
    rw [encodeChain_of_not_encodable hbad]
    rfl
  · intro henc
    unfold encodeStandard
    rw [encodeChain_of_encodable henc]
    rfl

end Sys2Proof.Proofs
end

section
/-! SUPPORT. The fragment codec and the push (42_fragment.md): one equation for each way a codec function of
Machine/Fragment.lean ends, with the conditions in arithmetic. -/

namespace Sys2Proof.Machine

/-! ### Executing a fragment command whose buffer is within `MAX_BUF_LEN` -/

theorem exec_fragDec {s : State} {data : Bytes} (h : withinMax s.config data = true) :
    exec (.fragDec data) s = finish s (decodeFragment data) :=
  guarded_of_fits (by simpa using h) _

theorem exec_fragEnc {s : State} {data : Bytes} (h : withinMax s.config data = true) (isFinal : Bool) (id : Byte)
    (channel : Option Byte) :
    exec (.fragEnc isFinal id data channel) s = finish s ((encodeFragment isFinal id data channel).map .out) :=
  guarded_of_fits (by simpa using h) _

theorem exec_fragPush {s : State} {frag : Fragment} (h : withinMax s.config frag.data = true) :
    exec (.fragPush frag) s = pushFragment frag s :=
  guarded_of_fits (by simpa using h) _

/-! ### FRAG_DEC -/

theorem decodeFragment_without_channel {h : Byte} (body : Bytes) (hbit : h.toNat / 64 % 2 = 0) :
    decodeFragment (h :: body) =
      .ok (.fragment (decide (128 ≤ h.toNat)) (BitVec.ofNat 6 (h.toNat % 64)) body none) := by
  obtain ⟨hfinal, hchannel, hid⟩ := header_fields h
  simp [decodeFragment, hfinal, hchannel, hid, hbit]

theorem decodeFragment_lone_header {h : Byte} (hbit : h.toNat / 64 % 2 = 1) :
    decodeFragment [h] = .error .truncated := by
  obtain ⟨-, hchannel, -⟩ := header_fields h
  simp [decodeFragment, hchannel, hbit]

theorem decodeFragment_with_channel {h : Byte} (body : Bytes) (channel : Byte) (hbit : h.toNat / 64 % 2 = 1) :
    decodeFragment (h :: (body ++ [channel])) =
      .ok (.fragment (decide (128 ≤ h.toNat)) (BitVec.ofNat 6 (h.toNat % 64)) body (some channel)) := by
  obtain ⟨hfinal, hchannel, hid⟩ := header_fields h
  simp [decodeFragment, hfinal, hchannel, hid, hbit]

/-! ### FRAG_ENC -/

theorem encodeFragment_of_large_id (isFinal : Bool) {id : Byte} (data : Bytes) (channel : Option Byte)
    (h : 63 < id.toNat) : encodeFragment isFinal id data channel = .error .notEncodable := if_pos h

theorem encodeFragment_of_fits (isFinal : Bool) {id : Byte} (data : Bytes) (channel : Option Byte)
    (h : id.toNat ≤ 63) :
    encodeFragment isFinal id data channel =
      .ok (fragmentHeader isFinal channel.isSome id :: data ++ channel.toList) := if_neg (by omega)

theorem toNat_fragmentHeader (isFinal hasChannelId : Bool) {id : Byte} (h : id.toNat ≤ 63) :
    (fragmentHeader isFinal hasChannelId id).toNat = 128 * isFinal.toNat + 64 * hasChannelId.toNat + id.toNat := by
  have := isFinal.toNat_le
  have := hasChannelId.toNat_le
  rw [fragmentHeader_eq isFinal hasChannelId h, BitVec.toNat_ofNat]
  omega

/-- The three fields of a header byte do not overlap, so each is read back (R70). -/
theorem fragmentHeader_fields (isFinal hasChannelId : Bool) {id : Byte} (h : id.toNat ≤ 63) :
    decide (128 ≤ (fragmentHeader isFinal hasChannelId id).toNat) = isFinal ∧
      (fragmentHeader isFinal hasChannelId id).toNat / 64 % 2 = hasChannelId.toNat ∧
      (fragmentHeader isFinal hasChannelId id).toNat % 64 = id.toNat := by
  have := hasChannelId.toNat_le
  rw [toNat_fragmentHeader isFinal hasChannelId h]
  refine ⟨?_, by omega, by omega⟩
  cases isFinal with
  | false => exact decide_eq_false (by rw [Bool.toNat_false]; omega)
  | true => exact decide_eq_true (by rw [Bool.toNat_true]; omega)

/-- FRAG_DEC reads what FRAG_ENC wrote (R161), with the channel id found by bit 6 of the header. -/
theorem decodeFragment_of_written (isFinal : Bool) {id : Byte} (data : Bytes) (channel : Option Byte)
    (h : id.toNat ≤ 63) :
    decodeFragment (fragmentHeader isFinal channel.isSome id :: data ++ channel.toList) =
      .ok (.fragment isFinal (BitVec.ofNat 6 id.toNat) data channel) := by
  obtain ⟨hfinal, hchannel, hid⟩ := fragmentHeader_fields isFinal channel.isSome h
  cases channel with
  | none =>
    have hread := decodeFragment_without_channel data hchannel
    rw [hfinal, hid] at hread
    simpa using hread
  | some c =>
    have hread := decodeFragment_with_channel data c hchannel
    rw [hfinal, hid] at hread
    exact hread

/-! ### FRAG_PUSH -/

theorem withinCapacity_iff (c : Config) (n : Nat) :
    withinCapacity c n = true ↔ ∀ m, c.reasmCapacity = some m → n ≤ m := by
  unfold withinCapacity
  cases c.reasmCapacity <;> simp

/-- The joined bytes, with R163's test in numbers. -/
theorem joinedBuffer_eq (slot : Slot) (frag : Fragment) :
    joinedBuffer slot frag =
      if slot.st = .accumulating ∧ frag.fragmentId.toNat = (slot.lastId.toNat + 1) % 64 ∧ slot.closed = false
      then slot.buf ++ frag.data else frag.data := by
  simp only [joinedBuffer, continuesSlot_iff]

end Sys2Proof.Machine
end

section
/-! The obligations about one fragment command. In each, the command's meaning is its codec function's answer, or the
push's. -/

namespace Sys2Proof.Proofs

open Sys2Proof.Machine Sys2Proof.Laws

/-- Settles O22, by the four ways `decodeFragment` ends. -/
theorem fragDecReadsOneFragment : Obligations.FragDecReadsOneFragment := by
  intro s data hmax
  rw [exec_fragDec hmax]
  refine ⟨PortRoundTrip.fragDec data, ?_, ?_, ?_, ?_⟩
  · rintro rfl
    rfl
  · rintro h body rfl hbit
    rw [decodeFragment_without_channel body hbit]
    rfl
  · rintro h rfl hbit
    rw [decodeFragment_lone_header hbit]
    rfl
  · rintro h channel body rfl hbit
    rw [decodeFragment_with_channel body channel hbit]
    rfl

/-- Settles O23: the header's three fields do not overlap, so what was written is read back. -/
theorem fragEncWritesOneFragment : Obligations.FragEncWritesOneFragment := by
  intro s isFinal id data channel hmax
  rw [exec_fragEnc hmax]
  refine ⟨PortRoundTrip.fragEnc isFinal id data channel, ?_, ?_⟩
  · intro hid
    rw [encodeFragment_of_large_id isFinal data channel hid]
    rfl
  · intro hid
    rw [← fragmentHeader_eq isFinal channel.isSome hid]
    refine ⟨_, rfl, ?_, ?_⟩
    · rw [encodeFragment_of_fits isFinal data channel hid]
      rfl
    · intro s' hmax'
      rw [exec_fragDec hmax', decodeFragment_of_written isFinal data channel hid]
      rfl

/-- Settles O24, by the two ways `pushFragment` ends: adopted into the one slot, or over `REASM_CAPACITY`. -/
theorem fragPushContinuesOrRestarts : Obligations.FragPushContinuesOrRestarts := by
  intro s frag joined hmax hjoined
  rw [← joinedBuffer_eq] at hjoined
  subst hjoined
  rw [exec_fragPush hmax]
  refine ⟨PortRoundTrip.fragPush frag, ?_⟩
  rcases pushFragment_cases frag s with ⟨hfits, hpush⟩ | ⟨hover, hpush⟩
  · refine ⟨fun _ => ⟨_, hpush, ?_, ?_, rfl, rfl, rfl⟩, ?_⟩
    · simp [adoptedSlot]
    · intro k hk
      simp [State.slot_setSlot_other s _ hk]
    · intro m hm hlt
      have := (withinCapacity_iff _ _).mp hfits m hm
      omega
  · refine ⟨fun hfits => ?_, fun _ _ _ => hpush⟩
    rw [(withinCapacity_iff _ _).mpr hfits] at hover
    cases hover

end Sys2Proof.Proofs
end

section
/-! SUPPORT. Where a command stops, said once for all commands (60_exceptions.md R258): the operand limit, then what a
record command needs of its layout, then the push's capacity. -/

namespace Sys2Proof

theorem Instr.buffersFit_eq (c : Config) (i : Instr) : i.buffersFit c = i.buffers.all (Machine.withinMax c) := by
  unfold Instr.buffersFit Machine.withinMax
  cases c.maxBufLen <;> simp

theorem Config.canDecode_eq (c : Config) (kind : RecordKind) :
    c.canDecode kind = (Machine.layoutOf c kind).any Machine.layoutWf := by
  unfold Config.canDecode
  cases Machine.layoutOf c kind <;> rfl

theorem Config.canEncode_eq (c : Config) (kind : RecordKind) (fields : RecordMap) :
    c.canEncode kind fields = (Machine.layoutOf c kind).any fun L =>
      Machine.layoutWf L && (L.encLen.isSome && Machine.recordFits L fields) := by
  unfold Config.canEncode
  cases Machine.layoutOf c kind <;> simp [Bool.and_assoc]

namespace Machine

/-- An outcome that is a next state when a condition holds, and a refusal when it does not. -/
def refusedUnless (ready : Bool) (o : StepOutcome) : Prop :=
  match ready with
  | true => ∃ t, o = .next t
  | false => ∃ r, o = .refused r

theorem finish_refusedUnless (s : State) (r : Except ErrorKind Result) : refusedUnless true (finish s r) :=
  ⟨_, rfl⟩

theorem withLayout_refusedUnless {s : State} {kind : RecordKind} {k : Layout → StepOutcome} {ready : Layout → Bool}
    (hk : ∀ L, refusedUnless (ready L) (k L)) :
    refusedUnless ((layoutOf s.config kind).any fun L => layoutWf L && ready L) (withLayout s kind k) := by
  rcases withLayout_cases s kind k with ⟨L, hL, hwf, e⟩ | ⟨hL, e⟩ | ⟨L, hL, hwf, e⟩
  · simpa [hL, hwf, e] using hk L
  · simp [hL, e, refusedUnless]
  · simp [hL, hwf, e, refusedUnless]

/-- A REC_DEC command is refused for its operand (R14) or for its layout alone (R8, R212). -/
theorem recordDecode_eq_guarded (kind : RecordKind) (data : Bytes) (s : State) :
    ∃ k, recordDecode kind data s = guarded s [data] k ∧ refusedUnless (s.config.canDecode kind) k := by
  refine ⟨_, rfl, ?_⟩
  rw [Config.canDecode_eq]
  simpa using withLayout_refusedUnless (s := s) (kind := kind) (ready := fun _ => true) fun L =>
    finish_refusedUnless s _

/-- A REC_ENC command is refused for its operand's buffers (R14), for its layout (R8, R212, R225), or for a record that
does not fit it (R216). -/
theorem recordEncode_eq_guarded (kind : RecordKind) (fields : RecordMap) (s : State) :
    ∃ k, recordEncode kind fields s = guarded s (recordBuffers fields) k ∧
      refusedUnless (s.config.canEncode kind fields) k := by
  refine ⟨_, rfl, ?_⟩
  rw [Config.canEncode_eq]
  apply withLayout_refusedUnless
  intro L
  cases hlen : L.encLen with
  | none => exact ⟨_, rfl⟩
  | some n =>
    cases hfits : recordFits L fields with
    | true => exact ⟨_, if_pos rfl⟩
    | false => exact ⟨_, if_neg Bool.false_ne_true⟩

/-- Every command but FRAG_PUSH is its operand limit, and behind it a meaning that only a missing layout stops. -/
theorem exec_eq_guarded {i : Instr} (hi : isPush i = false) (s : State) :
    ∃ k, exec i s = guarded s i.buffers k ∧ refusedUnless (i.layoutReady s.config) k := by
  cases i with
  | fragPush => cases hi
  | recDecCap data => exact recordDecode_eq_guarded .capability data s
  | recDecStatus data => exact recordDecode_eq_guarded .status data s
  | recDecChan data => exact recordDecode_eq_guarded .channel data s
  | recDecGlobal data => exact recordDecode_eq_guarded .globalSettings data s
  | recDecBss data => exact recordDecode_eq_guarded .beacon data s
  | recDecGps data => exact recordDecode_eq_guarded .gps data s
  | recEncChan fields => exact recordEncode_eq_guarded .channel fields s
  | recEncGlobal fields => exact recordEncode_eq_guarded .globalSettings fields s
  | recEncBss fields => exact recordEncode_eq_guarded .beacon fields s
  | _ => exact ⟨_, rfl, finish_refusedUnless s _⟩

/-- A well-formed command other than FRAG_PUSH completes, and one that is not well-formed is refused (R258). -/
theorem exec_refusedUnless_wf {i : Instr} (hi : isPush i = false) (s : State) :
    refusedUnless (i.wf s.config) (exec i s) := by
  obtain ⟨k, e, hk⟩ := exec_eq_guarded hi s
  rw [e, Instr.wf, Instr.buffersFit_eq]
  rcases guarded_cases s i.buffers k with ⟨hfit, eg⟩ | ⟨⟨b, hb, hlong⟩, eg⟩
  · rw [eg, List.all_eq_true.mpr hfit]
    exact hk
  · rw [eg, List.all_eq_false.mpr ⟨b, hb, by simp [hlong]⟩]
    exact ⟨_, rfl⟩

/-- A push is well-formed when its data are within `MAX_BUF_LEN` (R14). -/
theorem fragPush_wf_eq (c : Config) (frag : Fragment) : (Instr.fragPush frag).wf c = withinMax c frag.data := by
  rw [Instr.wf, Instr.buffersFit_eq]
  simp [Instr.buffers, encode, commandOf, operandBuffers, Instr.layoutReady]

/-- A push that would make its slot's buffer longer than `REASM_CAPACITY` (R162). -/
def overflows (i : Instr) (s : State) : Prop :=
  ∃ frag, i = .fragPush frag ∧
    withinCapacity s.config (joinedBuffer (s.slot frag.channelId) frag).length = false

/-- The three ways a command ends, each with the condition that leads to it (R258): refused, the model fault, or
complete. -/
theorem exec_cases (i : Instr) (s : State) :
    (i.wf s.config = false ∧ ∃ r, exec i s = .refused r) ∨
      (i.wf s.config = true ∧ overflows i s ∧ exec i s = .fault .reasmOverflow) ∨
      (i.wf s.config = true ∧ ¬ overflows i s ∧ ∃ t, exec i s = .next t) := by
  rcases isPush_cases i with hi | ⟨frag, rfl⟩
  · have hno : ¬ overflows i s := by
      rintro ⟨frag, rfl, -⟩
      cases hi
    have h := exec_refusedUnless_wf hi s
    cases hwf : i.wf s.config with
    | false => rw [hwf] at h; exact .inl ⟨rfl, h⟩
    | true => rw [hwf] at h; exact .inr (.inr ⟨rfl, hno, h⟩)
  · rw [fragPush_wf_eq]
    cases hmax : withinMax s.config frag.data with
    | false =>
      rcases guarded_cases s [frag.data] (pushFragment frag s) with ⟨hfit, -⟩ | ⟨-, e⟩
      · rw [hfit _ (List.mem_singleton_self _)] at hmax
        cases hmax
      · exact .inl ⟨rfl, _, e⟩
    | true =>
      rw [exec_fragPush hmax]
      rcases pushFragment_cases frag s with ⟨hfits, e⟩ | ⟨hover, e⟩
      · refine .inr (.inr ⟨rfl, ?_, _, e⟩)
        rintro ⟨frag', ⟨⟩, hover⟩
        rw [hfits] at hover
        cases hover
      · exact .inr (.inl ⟨rfl, ⟨frag, rfl, hover⟩, e⟩)

end Machine

end Sys2Proof
end

section
/-! The obligation about where commands stop. -/

namespace Sys2Proof.Proofs

open Sys2Proof.Machine

/-- Settles O49: the three ways a command ends exclude each other, and so do their conditions. -/
theorem commandsCompleteUnlessR258Stops : Obligations.CommandsCompleteUnlessR258Stops := by
  intro i s
  change _ ∧ (_ ↔ _ ∧ overflows i s) ∧ _
  rcases exec_cases i s with ⟨hwf, r, e⟩ | ⟨hwf, hover, e⟩ | ⟨hwf, hno, t, e⟩
  · simp [hwf, e, isRefused]
  · refine ⟨by simp [hwf, e, isRefused], by simp [hwf, hover, e], fun _ hfits => ?_⟩
    obtain ⟨frag, hpush, hlong⟩ := hover
    rw [hfits frag hpush] at hlong
    cases hlong
  · exact ⟨by simp [hwf, e, isRefused], by simp [hno, e], fun _ _ => ⟨t, e⟩⟩

end Sys2Proof.Proofs
end

section
/-! SUPPORT. The big-endian byte helpers (43_byteutil.md): one equation for each way `readBytes` and `writeBytes` end,
with the value read as R12's sum and the value written as its own bytes. -/

namespace Sys2Proof.Machine

/-! ### Executing a byte helper whose buffer is within `MAX_BUF_LEN` -/

theorem exec_rd16 {s : State} {data : Bytes} (h : withinMax s.config data = true) (offset : Nat) :
    exec (.rd16 data offset) s = finish s ((readBytes 2 data offset).map fun v => .value16 (BitVec.ofNat 16 v)) :=
  guarded_of_fits (by simpa using h) _

theorem exec_rd24 {s : State} {data : Bytes} (h : withinMax s.config data = true) (offset : Nat) :
    exec (.rd24 data offset) s = finish s ((readBytes 3 data offset).map fun v => .value24 (BitVec.ofNat 24 v)) :=
  guarded_of_fits (by simpa using h) _

theorem exec_rd32 {s : State} {data : Bytes} (h : withinMax s.config data = true) (offset : Nat) :
    exec (.rd32 data offset) s = finish s ((readBytes 4 data offset).map fun v => .value32 (BitVec.ofNat 32 v)) :=
  guarded_of_fits (by simpa using h) _

theorem exec_wr16 {s : State} {data : Bytes} (h : withinMax s.config data = true) (offset : Nat) (value : U32) :
    exec (.wr16 data offset value) s = finish s ((writeBytes 2 data offset value).map .out) :=
  guarded_of_fits (by simpa using h) _

theorem exec_wr24 {s : State} {data : Bytes} (h : withinMax s.config data = true) (offset : Nat) (value : U32) :
    exec (.wr24 data offset value) s = finish s ((writeBytes 3 data offset value).map .out) :=
  guarded_of_fits (by simpa using h) _

theorem exec_wr32 {s : State} {data : Bytes} (h : withinMax s.config data = true) (offset : Nat) (value : U32) :
    exec (.wr32 data offset value) s = finish s ((writeBytes 4 data offset value).map .out) :=
  guarded_of_fits (by simpa using h) _

/-! ### Reading -/

theorem beValue_concat (b : Bytes) (x : Byte) : beValue (b ++ [x]) = beValue b * 256 + x.toNat := by
  simp only [beValue, List.foldl_append, List.foldl_cons, List.foldl_nil]

/-- The model's `BE` is R12's sum: each further byte gives every weight before it one factor 256. -/
theorem beValue_memRead {b : Bytes} {off n : Nat} (h : off + n ≤ b.length) :
    beValue (memRead b off n) = beSum b off n := by
  rw [memRead_eq_map h]
  clear h
  induction n with
  | zero => rfl
  | succ n ih =>
    rw [List.range_succ, List.map_append, List.map_singleton, beValue_concat, ih, beSum, beSum, Finset.sum_range_succ,
      Finset.sum_mul]
    congr 1
    · refine Finset.sum_congr rfl fun i hi => ?_
      have hlt : i < n := Finset.mem_range.mp hi
      rw [show n + 1 - 1 - i = n - 1 - i + 1 by omega, pow_succ, mul_assoc]
    · simp [natAt_eq_byteAt]

theorem beSum_lt {b : Bytes} {off n : Nat} (h : off + n ≤ b.length) : beSum b off n < 256 ^ n := by
  have hlt := beValue_lt (memRead b off n)
  rwa [beValue_memRead h, length_memRead b off n h] at hlt

/-- A word of `8 * n` bits holds the value of `n` bytes uncut. -/
theorem toNat_ofNat_beSum {b : Bytes} {off n : Nat} (h : off + n ≤ b.length) :
    (BitVec.ofNat (8 * n) (beSum b off n)).toNat = beSum b off n := by
  rw [BitVec.toNat_ofNat, pow_mul]
  exact Nat.mod_eq_of_lt (beSum_lt h)

theorem finish_readBytes_of_short {s : State} {result : Nat → Result} {n : Nat} {data : Bytes} {offset : Nat}
    (h : data.length < offset + n) :
    finish s ((readBytes n data offset).map result) = .next (s.answer (.error .truncated)) := by
  rw [readBytes, if_pos h]
  rfl

theorem finish_readBytes_of_fits {s : State} {result : Nat → Result} {n : Nat} {data : Bytes} {offset : Nat}
    (h : offset + n ≤ data.length) :
    finish s ((readBytes n data offset).map result) = .next (s.answer (.ok (result (beSum data offset n)))) := by
  rw [readBytes, if_neg (by omega), beValue_memRead h]
  rfl

/-! ### Writing -/

/-- Bytes above the ones written play no part. -/
theorem beBytes_mod (n v : Nat) : beBytes n (v % 256 ^ n) = beBytes n v := by
  simpa [beValue_beBytes] using beBytes_beValue (beBytes n v)

theorem finish_writeBytes_of_short {s : State} {n : Nat} {data : Bytes} {offset : Nat} {value : U32}
    (h : data.length < offset + n) :
    finish s ((writeBytes n data offset value).map .out) = .next (s.answer (.error .truncated)) := by
  rw [writeBytes, if_pos h]
  rfl

theorem finish_writeBytes_of_fits {s : State} {n : Nat} {data : Bytes} {offset : Nat} {value : U32}
    (h : offset + n ≤ data.length) :
    finish s ((writeBytes n data offset value).map .out) =
      .next (s.answer (.ok (.out (data.take offset ++ beBytes n value.toNat ++ data.drop (offset + n))))) := by
  rw [writeBytes, if_neg (by omega), memWrite, pow_mul, show 2 ^ 8 = 256 from rfl, beBytes_mod]
  rfl

end Sys2Proof.Machine
end

section
/-! The obligations about one byte helper. In each, the three widths are one argument over the number of bytes. -/

namespace Sys2Proof.Proofs

open Sys2Proof.Machine Sys2Proof.Laws

/-- Settles O30: at each width the value read is R12's sum, and its word holds it uncut. -/
theorem readsReturnTheBigEndianValue : Obligations.ReadsReturnTheBigEndianValue := by
  intro s data off hmax
  rw [exec_rd16 hmax, exec_rd24 hmax, exec_rd32 hmax]
  refine ⟨PortRoundTrip.rd16 data off, PortRoundTrip.rd24 data off, PortRoundTrip.rd32 data off,
    finish_readBytes_of_short, finish_readBytes_of_short, finish_readBytes_of_short,
    fun h => ⟨_, finish_readBytes_of_fits h, (toNat_ofNat_beSum h).trans ?_⟩,
    fun h => ⟨_, finish_readBytes_of_fits h, (toNat_ofNat_beSum h).trans ?_⟩,
    fun h => ⟨_, finish_readBytes_of_fits h, (toNat_ofNat_beSum h).trans ?_⟩⟩
  all_goals simp [beSum, Finset.sum_range_succ]

/-- Settles O31: at each width the bytes in place are the value's own low bytes. -/
theorem writesReturnAPatchedCopy : Obligations.WritesReturnAPatchedCopy := by
  intro s data off v hmax
  rw [exec_wr16 hmax, exec_wr24 hmax, exec_wr32 hmax]
  refine ⟨PortRoundTrip.wr16 data off v, PortRoundTrip.wr24 data off v, PortRoundTrip.wr32 data off v,
    finish_writeBytes_of_short, finish_writeBytes_of_short, finish_writeBytes_of_short,
    fun h => ?_, fun h => ?_, fun h => ?_⟩
  all_goals simp [finish_writeBytes_of_fits h, beBytes, State.answer]

end Sys2Proof.Proofs
end

section
/-! SUPPORT. The layout engine and the record decoders (44_records.md): each check of R212 as a proposition, the value
of one field in arithmetic (R213), and how a record command ends with and without a well-formed layout. -/

namespace Sys2Proof.Machine

/-! ### R212's conditions -/

theorem distinctNames_iff (names : List String) : distinctNames names = true ↔ names.Nodup := by
  induction names with
  | nil => simp [distinctNames]
  | cons name rest ih => simp [distinctNames, ih]

theorem pairwiseDisjoint_iff (lists : List (List Nat)) :
    pairwiseDisjoint lists = true ↔ lists.Pairwise List.Disjoint := by
  induction lists with
  | nil => simp [pairwiseDisjoint]
  | cons bits rest ih => simp [pairwiseDisjoint, ih, List.Disjoint]

theorem fieldInside_iff (minLen : Nat) (f : Field) : fieldInside minLen f = true ↔ insideProp minLen f := by
  cases f <;> simp [fieldInside, insideProp, Nat.shiftLeft_eq, and_assoc]

/-- Two of the model's bit lists share no number exactly when the fields share no bit of a byte. -/
theorem disjoint_fieldBits_iff (f g : Field) :
    List.Disjoint (fieldBits f) (fieldBits g) ↔ ∀ i j, ¬ (ownsBit f i j ∧ ownsBit g i j) := by
  constructor
  · rintro h i j ⟨hf, hg⟩
    have hj := ownsBit_lt hf
    have hbyte : (8 * i + j) / 8 = i := by omega
    have hbit : (8 * i + j) % 8 = j := by omega
    refine @h (8 * i + j) ?_ ?_
    · rwa [mem_fieldBits_iff, hbyte, hbit]
    · rwa [mem_fieldBits_iff, hbyte, hbit]
  · intro h x hf hg
    exact h _ _ ⟨(mem_fieldBits_iff f x).mp hf, (mem_fieldBits_iff g x).mp hg⟩

theorem all_padsWithNul_iff (fields : List Field) :
    fields.all padsWithNul = true ↔
      ∀ name off len trim, Field.str name off len trim ∈ fields → trims trim 0x00 = true := by
  rw [List.all_eq_true]
  constructor
  · intro h name off len trim hf
    exact h _ hf
  · intro h f hf
    cases f with
    | str name off len trim => exact h name off len trim hf
    | _ => rfl

/-- The model's check of a layout is R212's three conditions. -/
theorem layoutWf_iff (L : Layout) : layoutWf L = true ↔ layoutConditions L := by
  have hinside : L.fields.all (fieldInside L.minLen) = true ↔ ∀ f ∈ L.fields, insideProp L.minLen f := by
    simp [fieldInside_iff]
  have hbits : pairwiseDisjoint (L.fields.map fieldBits) = true ↔
      L.fields.Pairwise fun f g => ∀ i j, ¬ (ownsBit f i j ∧ ownsBit g i j) := by
    simp only [pairwiseDisjoint_iff, List.pairwise_map, disjoint_fieldBits_iff]
  unfold layoutWf layoutConditions
  cases L.encLen with
  | none =>
    simp only [Bool.and_eq_true, distinctNames_iff, hinside]
    simp
  | some n =>
    simp only [Bool.and_eq_true, distinctNames_iff, hinside, hbits, all_padsWithNul_iff, decide_eq_true_iff]
    simp [and_assoc]

/-! ### Record commands and their layout -/

/-- Under a layout that fails R212 no command of its record is ready. -/
theorem layoutReady_of_illFormed {c : Config} {L : Layout} {data : Bytes} {rec : RecordMap} {p : RecordKind × Instr}
    (hp : p ∈ recordCommands data rec) (hL : layoutOf c p.1 = some L) (hwf : layoutWf L = false) :
    p.2.layoutReady c = false := by
  have hdec : c.canDecode p.1 = false := by simp [Config.canDecode_eq, hL, hwf]
  have henc : c.canEncode p.1 rec = false := by simp [Config.canEncode_eq, hL, hwf]
  simp only [recordCommands, List.mem_cons, List.not_mem_nil, or_false] at hp
  rcases hp with rfl | rfl | rfl | rfl | rfl | rfl | rfl | rfl | rfl
  exacts [hdec, hdec, hdec, hdec, hdec, hdec, henc, henc, henc]

/-- A REC_DEC command under a well-formed layout of its record is REC_DECODE (R214). -/
theorem recordDecode_of_layout {kind : RecordKind} {s : State} {L : Layout} {data : Bytes}
    (hL : layoutOf s.config kind = some L) (hwf : layoutWf L = true) (hmax : withinMax s.config data = true) :
    recordDecode kind data s =
      finish s ((decodeRecord L data).map fun fields => .record { kind := kind, fields := fields }) := by
  rw [recordDecode, guarded_of_fits (by simpa using hmax), withLayout, hL]
  exact if_pos hwf

theorem decodeRecord_of_short {L : Layout} {data : Bytes} (h : data.length < L.minLen) :
    decodeRecord L data = .error .truncated := if_pos h

theorem decodeRecord_of_fits {L : Layout} {data : Bytes} (h : L.minLen ≤ data.length) :
    decodeRecord L data = .ok (decFields L data) := if_neg (Nat.not_lt.mpr h)

/-- Every opcode that stands for a record's `recordDecode` runs as R214 says. -/
theorem recDecRuns_of_exec_eq {kind : RecordKind} {op : Byte} {dec : Bytes → Instr}
    (hdec : ∀ data, decode { op := op, operands := .data data } = .instr (dec data))
    (hexec : ∀ data s, exec (dec data) s = recordDecode kind data s) : RecDecRuns kind op dec := by
  refine fun s L data => ⟨hdec data, fun hL hwf hmax => ?_⟩
  rw [hexec, recordDecode_of_layout hL hwf hmax]
  constructor
  · intro hshort
    rw [decodeRecord_of_short hshort]
    rfl
  · intro hfits
    rw [decodeRecord_of_fits hfits]
    rfl

/-! ### The value of one field -/

/-- A geo value read from three bytes is their signed big-endian value (R71, R10). -/
theorem geoSigned_geoAt {data : Bytes} {off : Nat} (div : Nat) (h : off + 3 ≤ data.length) :
    geoSigned (geoAt data off div) = signedOf (beSum data off 3) := by
  rw [geoSigned, sext32_eq_signedOf, geoAt, beValue_memRead h]
  exact congrArg signedOf (toNat_ofNat_beSum h)

/-- A field inside the window decodes by R213's formula. -/
theorem fieldFormula_decField {minLen : Nat} {data : Bytes} {f : Field} (hf : insideProp minLen f)
    (h : minLen ≤ data.length) : fieldFormula data f (decField data f) := by
  cases f with
  | bool name byte bit => rfl
  | uint name off width shift mask =>
    obtain ⟨hword, -, -⟩ := hf
    rw [decField, beValue_memRead (hword.trans h), Nat.shiftRight_eq_div_pow]
    rfl
  | str name off len trim =>
    obtain ⟨pad, hsplit, hpad, hlast⟩ := rtrim_split (trims trim) (memRead data off len)
    exact ⟨_, pad, hsplit, hpad, hlast, rfl⟩
  | geo name off div =>
    obtain ⟨hword, -⟩ := hf
    exact ⟨geoAt data off div, rfl, geoSigned_geoAt div (hword.trans h), rfl⟩

end Sys2Proof.Machine
end

section
/-! SUPPORT. The geo codec (44_records.md section 3): one divisor for both forms, the rounding by the product's
denominator, and the three bytes of a signed value. -/

namespace Sys2Proof.Machine

@[simp] theorem geoDivisor_eq (form : GeoForm) : geoDivisor form = 30000 := by cases form <;> rfl

/-! ### GEO_DEC -/

theorem exec_geoDec {s : State} {data : Bytes} (h : withinMax s.config data = true) (form : GeoForm) :
    exec (.geoDec data form) s = finish s ((decodeGeo data form).map fun r => .geo r.1 r.2) :=
  guarded_of_fits (by simpa using h) _

theorem decodeGeo_of_short {data : Bytes} (form : GeoForm) (h : data.length < 6) :
    decodeGeo data form = .error .truncated := if_pos h

theorem decodeGeo_of_fits {data : Bytes} (form : GeoForm) (h : 6 ≤ data.length) :
    decodeGeo data form = .ok (geoAt data 0 30000, geoAt data 3 30000) := by
  rw [decodeGeo, if_neg (Nat.not_lt.mpr h), geoDivisor_eq]

theorem beSum_three (b : Bytes) (off : Nat) :
    beSum b off 3 = natAt b off * 65536 + natAt b (off + 1) * 256 + natAt b (off + 2) := by
  simp [beSum, Finset.sum_range_succ]

/-! ### GEO_ENC -/

theorem exec_geoEnc (s : State) (lat lon : Rat) (form : GeoForm) :
    exec (.geoEnc lat lon form) s = finish s ((encodeGeo lat lon form).map .out) := rfl

/-- The machine's divisibility test asks whether the product is an integer, and its quotient is that integer (R7). -/
theorem geoRound_eq (q : Rat) (div : Nat) :
    geoRound q div = if (q * div).den = 1 then (q * div).num else Config.geoRoundFraction (q * div) := by
  have hden : (q.den : Int) ≠ 0 := Int.natCast_ne_zero.mpr q.den_nz
  have hproduct : q * div = ((q.num * div : Int) : Rat) / ((q.den : Int) : Rat) := by
    conv_lhs => rw [← Rat.num_div_den q]
    push_cast
    ring
  have hint : (q * div).den = 1 ↔ q.num * div % q.den = 0 := by
    rw [hproduct, Rat.den_div_intCast_eq_one_iff _ _ hden, Int.dvd_iff_emod_eq_zero]
  rw [geoRound]
  by_cases hrem : q.num * div % q.den = 0
  · have hquot : q * div = ((q.num * div / q.den : Int) : Rat) := by
      rw [Rat.intCast_div _ _ (Int.dvd_of_emod_eq_zero hrem), hproduct]
    rw [if_pos hrem, if_pos (hint.mpr hrem), hquot, Rat.num_intCast]
  · rw [if_neg hrem, if_neg (mt hint.mp hrem)]

theorem inS24_iff (n : Int) : inS24 n = true ↔ -8388608 ≤ n ∧ n ≤ 8388607 := by simp [inS24]

theorem encodeRaw_of_out_of_range {lat lon : Int} (h : ¬ (inS24 lat = true ∧ inS24 lon = true)) :
    encodeRaw lat lon = .error .notEncodable := by
  unfold encodeRaw
  cases hlat : inS24 lat with
  | false => rfl
  | true =>
    have hlon : inS24 lon = false := Bool.eq_false_iff.mpr fun hlon => h ⟨hlat, hlon⟩
    rw [hlon]
    rfl

/-- Two three-byte writes fill the six bytes. -/
theorem encodeRaw_of_in_range {lat lon : Int} (hlat : inS24 lat = true) (hlon : inS24 lon = true) :
    encodeRaw lat lon = .ok (beBytes 3 (toS24 lat).toNat ++ beBytes 3 (toS24 lon).toNat) := by
  simp [encodeRaw, hlat, hlon, memWrite, beBytes, zeros]

/-- The three bytes of a signed value are those of the value modulo 2^24 (R230). -/
theorem beBytes_toS24 (n : Int) :
    beBytes 3 (toS24 n).toNat =
      [BitVec.ofInt 8 (n % 16777216 / 65536), BitVec.ofInt 8 (n % 16777216 / 256), BitVec.ofInt 8 n] := by
  have hnat : ((toS24 n).toNat : Int) = n % 16777216 := by
    rw [toS24, BitVec.toNat_ofInt]
    omega
  have hlow : BitVec.ofInt 8 (n % 16777216) = BitVec.ofInt 8 n := by
    apply BitVec.eq_of_toNat_eq
    simp only [BitVec.toNat_ofInt]
    omega
  have hbyte (weight : Nat) :
      BitVec.ofInt 8 (((toS24 n).toNat : Int) / weight) = BitVec.ofNat 8 ((toS24 n).toNat / weight) := by
    rw [← Int.natCast_ediv, BitVec.ofInt_natCast]
  rw [← hlow, ← hnat, BitVec.ofInt_natCast]
  simpa [beBytes] using ⟨(hbyte 65536).symm, (hbyte 256).symm⟩

end Sys2Proof.Machine
end

section
/-! The obligations about layouts and the record decoders. -/

namespace Sys2Proof.Proofs

open Sys2Proof.Machine Sys2Proof.Laws

/-- Settles O33: the check is R212's conditions, and a record whose layout fails it has no well-formed command. -/
theorem layoutIsAcceptedExactlyWhenWellFormed : Obligations.LayoutIsAcceptedExactlyWhenWellFormed := by
  refine fun L => ⟨layoutWf_iff L, fun hbad s data rec p hp hL => ?_⟩
  have hwf : layoutWf L = false := Bool.eq_false_iff.mpr (mt (layoutWf_iff L).mp hbad)
  obtain ⟨hrefused, -⟩ := commandsCompleteUnlessR258Stops p.2 s
  rw [hrefused, Instr.wf, layoutReady_of_illFormed hp hL hwf, Bool.and_false]

/-- Settles O34: a well-formed layout's fields lie inside every window that is long enough. -/
theorem fieldDecodeFollowsItsDescriptor : Obligations.FieldDecodeFollowsItsDescriptor := by
  intro L data hwf hlen f hf
  obtain ⟨-, hinside, -⟩ := (layoutWf_iff L).mp hwf
  exact fieldFormula_decField (hinside f hf) hlen

/-- Settles O35: the six commands are one decoder under six layout parameters. -/
theorem recordDecodeReturnsEveryField : Obligations.RecordDecodeReturnsEveryField :=
  ⟨recDecRuns_of_exec_eq PortRoundTrip.recDecCap fun _ _ => rfl,
    recDecRuns_of_exec_eq PortRoundTrip.recDecStatus fun _ _ => rfl,
    recDecRuns_of_exec_eq PortRoundTrip.recDecChan fun _ _ => rfl,
    recDecRuns_of_exec_eq PortRoundTrip.recDecGlobal fun _ _ => rfl,
    recDecRuns_of_exec_eq PortRoundTrip.recDecBss fun _ _ => rfl,
    recDecRuns_of_exec_eq PortRoundTrip.recDecGps fun _ _ => rfl⟩

end Sys2Proof.Proofs
end

section
/-! The obligations about one geo command. -/

namespace Sys2Proof.Proofs

open Sys2Proof.Machine Sys2Proof.Laws

/-- Settles O42: both values are read by one rule, at offsets 0 and 3. -/
theorem geoDecReadsTwoSignedValues : Obligations.GeoDecReadsTwoSignedValues := by
  intro s data form hmax
  rw [exec_geoDec hmax]
  refine ⟨PortRoundTrip.geoDec data form, fun hshort => ?_, fun hfits => ?_⟩
  · rw [decodeGeo_of_short form hshort]
    rfl
  · refine ⟨geoAt data 0 30000, geoAt data 3 30000, ?_, rfl, rfl, ?_, ?_, rfl, rfl⟩
    · rw [decodeGeo_of_fits form hfits]
      rfl
    · rw [geoSigned_geoAt _ (by omega), beSum_three]
    · rw [geoSigned_geoAt _ (by omega), beSum_three]

/-- Settles O43: the range check and the bytes are about the rounded values, whatever they are. -/
theorem geoEncWritesTwoScaledValues : Obligations.GeoEncWritesTwoScaledValues := by
  intro s lat lon form rl rn hrl hrn
  have hlat : geoRound lat 30000 = rl := (geoRound_eq lat 30000).trans hrl.symm
  have hlon : geoRound lon 30000 = rn := (geoRound_eq lon 30000).trans hrn.symm
  rw [exec_geoEnc, encodeGeo, geoDivisor_eq, hlat, hlon]
  refine ⟨PortRoundTrip.geoEnc lat lon form, fun hout => ?_, fun hl1 hl2 hn1 hn2 => ?_⟩
  · rw [encodeRaw_of_out_of_range (by simp only [inS24_iff]; omega)]
    rfl
  · rw [encodeRaw_of_in_range ((inS24_iff rl).mpr ⟨hl1, hl2⟩) ((inS24_iff rn).mpr ⟨hn1, hn2⟩), beBytes_toS24,
      beBytes_toS24]
    rfl

end Sys2Proof.Proofs
end

section
/-! SUPPORT. Programs of pushes (42_fragment.md R162 to R165): the state after each push, the run of a whole program, and
what a slot holds after it. -/

namespace Sys2Proof.Machine

/-- The state after a push that completes (R162). -/
def State.pushed (s : State) (f : Fragment) : State :=
  (s.setSlot f.channelId (adoptedSlot f (joinedBuffer (s.slot f.channelId) f))).answer
    (.ok (.complete (if f.isFinal then some (joinedBuffer (s.slot f.channelId) f) else none)))

theorem State.slot_pushed (s : State) (f : Fragment) (k : Byte) :
    (s.pushed f).slot k = if f.channelId = k then adoptedSlot f (joinedBuffer (s.slot k) f) else s.slot k := by
  rw [State.pushed, State.answer_slot, State.slot_setSlot]
  by_cases h : f.channelId = k
  · subst h; simp
  · rw [if_neg h, if_neg (Ne.symm h)]

/-! ### Running a program of pushes -/

theorem step_withPushes_next {s t : State} {f : Fragment} {fs : List Fragment}
    (h : step (s.withPushes (f :: fs)) = .next t) : t = (s.pushed f).withPushes fs := by
  rw [step_withPushes_cons] at h
  obtain ⟨-, -, ht⟩ := exec_push_next h
  exact ht

theorem step_withPushes_of_fits {s : State} {f : Fragment} (fs : List Fragment)
    (hd : withinMax s.config f.data = true)
    (hc : withinCapacity s.config (joinedBuffer (s.slot f.channelId) f).length = true) :
    step (s.withPushes (f :: fs)) = .next ((s.pushed f).withPushes fs) := by
  rw [step_withPushes_cons]
  exact exec_push_of hd hc

/-- A program of pushes that ends has performed every push in order. -/
theorem run_withPushes_next {frags : List Fragment} {s t : State}
    (h : Host.Core.run Sys2Proof.core frags.length (s.withPushes frags) = .next t) :
    t = (frags.foldl State.pushed s).withPushes [] := by
  induction frags generalizing s with
  | nil =>
    have e := run_zero (s.withPushes [])
    exact (Host.Outcome.next.inj (e.symm.trans h)).symm
  | cons f fs ih =>
    cases hstep : step (s.withPushes (f :: fs)) with
    | next s' =>
      have hrun := (run_succ hstep).symm.trans h
      rw [step_withPushes_next hstep] at hrun
      exact ih hrun
    | fault r => cases (run_fault hstep).symm.trans h
    | refused r => cases (run_refused hstep).symm.trans h

/-- Pushes that all fit run to their end, with the pushes after them still pending. -/
theorem run_withPushes_of_fits {first rest : List Fragment} {s : State}
    (hfit : ∀ p f q, first = p ++ f :: q → withinMax s.config f.data = true ∧
      withinCapacity s.config (joinedBuffer ((p.foldl State.pushed s).slot f.channelId) f).length = true) :
    Host.Core.run Sys2Proof.core first.length (s.withPushes (first ++ rest)) =
      .next ((first.foldl State.pushed s).withPushes rest) := by
  induction first generalizing s with
  | nil => exact run_zero _
  | cons f fs ih =>
    obtain ⟨hd, hc⟩ := hfit [] f fs rfl
    refine (run_succ (step_withPushes_of_fits (fs ++ rest) hd hc)).trans (ih ?_)
    rintro p g q rfl
    exact hfit (f :: p) g q rfl

theorem config_foldl_pushed (s : State) (frags : List Fragment) :
    (frags.foldl State.pushed s).config = s.config := by
  induction frags generalizing s with
  | nil => rfl
  | cons f fs ih => exact ih (s.pushed f)

/-- The last push is answered with its slot's bytes exactly when it is final. -/
theorem reply_foldl_pushed (s : State) (frags : List Fragment) (f : Fragment) :
    ((frags ++ [f]).foldl State.pushed s).reply = some (.ok (.complete (if f.isFinal = true then
      some (((frags ++ [f]).foldl State.pushed s).slot f.channelId).buf else none))) := by
  rw [List.foldl_append]
  simp [State.pushed, adoptedSlot]

/-! ### The slot after a program of pushes -/

/-- A slot after pushes on its key, one after the other (R162). -/
def slotAfterPushes (slot : Slot) (frags : List Fragment) : Slot :=
  frags.foldl (fun slot f => adoptedSlot f (joinedBuffer slot f)) slot

theorem slotAfterPushes_concat (slot : Slot) (frags : List Fragment) (f : Fragment) :
    slotAfterPushes slot (frags ++ [f]) = adoptedSlot f (joinedBuffer (slotAfterPushes slot frags) f) := by
  simp [slotAfterPushes]

/-- Only the pushes on a key write its slot. -/
theorem slot_foldl_pushed (s : State) (frags : List Fragment) (k : Byte) :
    (frags.foldl State.pushed s).slot k = slotAfterPushes (s.slot k) (frags.filter fun f => f.channelId = k) := by
  induction frags generalizing s with
  | nil => rfl
  | cons f fs ih =>
    rw [List.foldl_cons, ih, State.slot_pushed]
    by_cases h : f.channelId = k <;> simp [h, slotAfterPushes]

/-- A run of pushes always ends in the last push. -/
theorem getLast?_sinceRestart (frags : List Fragment) : (sinceRestart frags).getLast? = frags.getLast? := by
  induction frags using List.reverseRecOn with
  | nil => rfl
  | append_singleton frags f _ =>
    unfold sinceRestart
    rw [List.foldl_append, List.foldl_cons, List.foldl_nil]
    split
    · split <;> simp
    · simp

/-- Whether a push goes on with the run that ends in another (R162, R163). -/
def succeeds (g f : Fragment) : Prop := f.fragmentId.toNat = (g.fragmentId.toNat + 1) % 64 ∧ g.isFinal = false

theorem sinceRestart_of_succeeds {frags : List Fragment} {g f : Fragment} (h : succeeds g f) :
    sinceRestart (frags ++ [g] ++ [f]) = sinceRestart (frags ++ [g]) ++ [f] := by
  have hlast : (sinceRestart (frags ++ [g])).getLast? = some g := by simp [getLast?_sinceRestart]
  unfold sinceRestart at hlast ⊢
  rw [List.foldl_append (l' := [f]), List.foldl_cons, List.foldl_nil, hlast]
  exact if_pos h

theorem sinceRestart_of_not_succeeds {frags : List Fragment} {g f : Fragment} (h : ¬ succeeds g f) :
    sinceRestart (frags ++ [g] ++ [f]) = [f] := by
  have hlast : (sinceRestart (frags ++ [g])).getLast? = some g := by simp [getLast?_sinceRestart]
  unfold sinceRestart at hlast ⊢
  rw [List.foldl_append (l' := [f]), List.foldl_cons, List.foldl_nil, hlast]
  exact if_neg h

/-- The machine's test of a continuation, on a slot that holds the last push, is the test on the two fragments. -/
theorem continuesSlot_adoptedSlot_iff (g f : Fragment) (bytes : Bytes) :
    continuesSlot (adoptedSlot g bytes) f = true ↔ succeeds g f := by
  rw [continuesSlot_iff]
  simp [adoptedSlot, succeeds]

theorem joinedBuffer_of_restart {slot : Slot} {f : Fragment} (h : continuesSlot slot f = false) :
    joinedBuffer slot f = f.data := by
  simp [joinedBuffer, h]

/-- R26(b): after pushes the first of which restarts the slot, it holds the last push's metadata and the bytes of the
pushes since the last restart. -/
theorem slotAfterPushes_eq {slot : Slot} {frags : List Fragment} (g : Fragment)
    (hfirst : ∀ f ∈ (frags ++ [g]).head?, continuesSlot slot f = false) :
    slotAfterPushes slot (frags ++ [g]) =
      adoptedSlot g ((sinceRestart (frags ++ [g])).map Fragment.data).flatten := by
  induction frags using List.reverseRecOn generalizing g with
  | nil =>
    have hrestart : continuesSlot slot g = false := hfirst g rfl
    rw [slotAfterPushes_concat, show slotAfterPushes slot [] = slot from rfl, joinedBuffer_of_restart hrestart]
    simp [sinceRestart]
  | append_singleton frags f ih =>
    have hheld := ih f (by cases frags <;> simpa using hfirst)
    rw [slotAfterPushes_concat, hheld, joinedBuffer]
    by_cases h : succeeds f g
    · rw [if_pos ((continuesSlot_adoptedSlot_iff f g _).mpr h), sinceRestart_of_succeeds h]
      simp [adoptedSlot]
    · rw [if_neg (mt (continuesSlot_adoptedSlot_iff f g _).mp h), sinceRestart_of_not_succeeds h]
      simp

/-- Pushes that each succeed the one before hold no restart after the first. -/
theorem sinceRestart_of_isChain {frags : List Fragment} (h : List.IsChain succeeds frags) :
    sinceRestart frags = frags := by
  induction frags using List.reverseRecOn with
  | nil => rfl
  | append_singleton frags f ih =>
    obtain ⟨hchain, -, hlast⟩ := List.isChain_append.mp h
    rcases List.eq_nil_or_concat' frags with rfl | ⟨init, g, rfl⟩
    · rfl
    · rw [sinceRestart_of_succeeds (hlast g (by simp) f rfl), ih hchain]

/-- Fragments with successive ids, only the last final, each succeed the one before. -/
theorem isChain_succeeds {frags : List Fragment}
    (hids : List.IsChain (fun a b : Fragment => b.fragmentId.toNat = (a.fragmentId.toNat + 1) % 64) frags)
    (hopen : ∀ f ∈ frags.dropLast, f.isFinal = false) : List.IsChain succeeds frags := by
  induction frags with
  | nil => exact List.IsChain.nil
  | cons f fs ih =>
    cases fs with
    | nil => exact List.IsChain.singleton f
    | cons g gs =>
      obtain ⟨hid, hrest⟩ := List.isChain_cons_cons.mp hids
      obtain ⟨hf, hmore⟩ := List.forall_mem_cons.mp hopen
      exact List.isChain_cons_cons.mpr ⟨⟨hid, hf⟩, ih hrest hmore⟩

/-- The slot after such pushes on one key holds all their bytes. -/
theorem slot_foldl_pushed_of_isChain {s : State} {k : Byte} {frags : List Fragment} (f : Fragment)
    (hkeys : ∀ g ∈ frags ++ [f], g.channelId = k) (hchain : List.IsChain succeeds (frags ++ [f]))
    (hfirst : ∀ g ∈ (frags ++ [f]).head?, continuesSlot (s.slot k) g = false) :
    ((frags ++ [f]).foldl State.pushed s).slot k = adoptedSlot f ((frags ++ [f]).map Fragment.data).flatten := by
  rw [slot_foldl_pushed, List.filter_eq_self.mpr (by simpa using hkeys), slotAfterPushes_eq f hfirst,
    sinceRestart_of_isChain hchain]

/-- The bytes a push joins are the bytes its slot holds after it. -/
theorem joinedBuffer_foldl_pushed (s : State) (frags : List Fragment) (f : Fragment) :
    joinedBuffer ((frags.foldl State.pushed s).slot f.channelId) f =
      (((frags ++ [f]).foldl State.pushed s).slot f.channelId).buf := by
  rw [List.foldl_append]
  simp [State.slot_pushed, adoptedSlot]

/-- Such pushes run to their end when all their bytes are within `REASM_CAPACITY`, whatever is pending after them. -/
theorem run_withPushes_of_isChain {s : State} {k : Byte} {frags rest : List Fragment}
    (hkeys : ∀ f ∈ frags, f.channelId = k) (hmax : ∀ f ∈ frags, withinMax s.config f.data = true)
    (hchain : List.IsChain succeeds frags) (hfirst : ∀ g ∈ frags.head?, continuesSlot (s.slot k) g = false)
    (hcap : ∀ m, s.config.reasmCapacity = some m → (frags.map Fragment.data).flatten.length ≤ m) :
    Host.Core.run Sys2Proof.core frags.length (s.withPushes (frags ++ rest)) =
      .next ((frags.foldl State.pushed s).withPushes rest) := by
  refine run_withPushes_of_fits ?_
  rintro p f q rfl
  refine ⟨hmax f (by simp), (withinCapacity_iff _ _).mpr fun m hm => ?_⟩
  have hsplit : p ++ f :: q = (p ++ [f]) ++ q := by simp
  rw [hsplit] at hkeys hchain hfirst hcap
  have hslot := slot_foldl_pushed_of_isChain f (fun g hg => hkeys g (List.mem_append_left q hg))
    (List.isChain_append.mp hchain).1 (by cases p <;> simpa using hfirst)
  have htotal := hcap m hm
  rw [joinedBuffer_foldl_pushed, hkeys f (by simp), hslot, adoptedSlot]
  rw [List.map_append, List.flatten_append, List.length_append] at htotal
  exact (Nat.le_add_right _ _).trans htotal

theorem length_flatten_take_le (frags : List Fragment) (n : Nat) :
    ((frags.take n).map Fragment.data).flatten.length ≤ (frags.map Fragment.data).flatten.length := by
  conv_rhs => rw [← List.take_append_drop n frags, List.map_append, List.flatten_append, List.length_append]
  exact Nat.le_add_right _ _

/-- A fragment does not continue a slot that is Empty or closed or holds another id than the one before (R162, R163). -/
theorem continuesSlot_eq_false {slot : Slot} {f : Fragment}
    (h : slot.st = .empty ∨ slot.closed = true ∨ f.fragmentId.toNat ≠ (slot.lastId.toNat + 1) % 64) :
    continuesSlot slot f = false := by
  rw [Bool.eq_false_iff, Ne, continuesSlot_iff]
  rintro ⟨hst, hid, hclosed⟩
  simp [hst, hid, hclosed] at h

end Sys2Proof.Machine
end

section
/-! The obligations about programs of pushes. -/

namespace Sys2Proof.Proofs

open Sys2Proof.Machine

/-- Settles O28: the pushes on a key are the only ones that write its slot, and the first of them restarts it. -/
theorem slotHoldsThePushesSinceItsRestart : Obligations.SlotHoldsThePushesSinceItsRestart := by
  intro s t k frags hempty hrun
  obtain rfl := run_withPushes_next hrun
  refine ⟨fun hnone => ?_, fun f hf => ?_, fun f hf hk => ?_⟩
  · have hfilter : (frags.filter fun f => f.channelId = k) = [] := by simpa using hnone
    rw [State.withPushes_slot, slot_foldl_pushed, hfilter]
    rfl
  · obtain ⟨init, hinit⟩ := List.getLast?_eq_some_iff.mp hf
    rw [State.withPushes_slot, slot_foldl_pushed, hinit]
    refine slotAfterPushes_eq f fun g _ => ?_
    simp [continuesSlot, hempty]
  · obtain ⟨init, rfl⟩ := List.getLast?_eq_some_iff.mp hf
    subst hk
    exact reply_foldl_pushed s init f

/-- Settles O25: no push restarts the slot after the first, so every push fits and the last one completes the message. -/
theorem reassemblyReturnsTheWholeMessageOnce : Obligations.ReassemblyReturnsTheWholeMessageOnce := by
  rintro s k first rest final frags hfrags hlast hfs hids hopen hfinal hrestart hcap
  have hkeys : ∀ f ∈ frags, f.channelId = k := fun f hf => (hfs f hf).1
  have hmax : ∀ f ∈ frags, withinMax s.config f.data = true := fun f hf => (hfs f hf).2
  have hchain : List.IsChain succeeds frags := isChain_succeeds hids hopen
  have hfirst : ∀ g ∈ frags.head?, continuesSlot (s.slot k) g = false := by
    rintro g hg
    rw [hfrags] at hg
    cases hg
    exact continuesSlot_eq_false hrestart
  refine ⟨?_, fun n hpos hn => ?_⟩
  · obtain ⟨init, hinit⟩ := List.getLast?_eq_some_iff.mp hlast
    have hk : final.channelId = k := hkeys final (by simp [hinit])
    have hrun := run_withPushes_of_isChain (rest := []) hkeys hmax hchain hfirst hcap
    have hreply := reply_foldl_pushed s init final
    have hslot : (frags.foldl State.pushed s).slot k = adoptedSlot final (frags.map Fragment.data).flatten := by
      subst hinit
      exact slot_foldl_pushed_of_isChain final hkeys hchain hfirst
    rw [List.append_nil] at hrun
    rw [← hinit, hk, hslot, if_pos hfinal] at hreply
    refine ⟨_, hrun, hreply, ?_, fun k' hk' => ?_, rfl, config_foldl_pushed s frags⟩
    · rw [State.withPushes_slot, hslot, adoptedSlot, hfinal]
    · have hnone : (frags.filter fun f => f.channelId = k') = [] := by
        simpa using fun f hf => (hkeys f hf).trans_ne hk'.symm
      rw [State.withPushes_slot, slot_foldl_pushed, hnone]
      rfl
  · have hdone : (frags.take n).length = n := List.length_take_of_le hn.le
    have htodo : frags.drop n ≠ [] := by simpa using hn
    have hrun := run_withPushes_of_isChain (s := s) (k := k) (frags := frags.take n) (rest := frags.drop n)
      (fun f hf => hkeys f (List.mem_of_mem_take hf)) (fun f hf => hmax f (List.mem_of_mem_take hf))
      (hchain.take n) (by simpa [List.head?_take, hpos.ne'] using hfirst)
      (fun m hm => (length_flatten_take_le frags n).trans (hcap m hm))
    rw [List.take_append_drop, hdone] at hrun
    refine ⟨_, hrun, ?_⟩
    obtain ⟨p, f, hp⟩ : ∃ p f, frags.take n = p ++ [f] :=
      (List.eq_nil_or_concat' _).resolve_left (List.ne_nil_of_length_pos (by omega))
    have hmem : f ∈ frags.dropLast := by
      rw [← List.take_append_drop n frags, List.dropLast_append_of_ne_nil htodo, hp]
      simp
    have hreply := reply_foldl_pushed s p f
    rw [hopen f hmem, ← hp] at hreply
    exact hreply

end Sys2Proof.Proofs
end

section
/-! SUPPORT. The round trips of the address codec (40_address.md, Laws): a valid address in numbers, the wire field read
back, and the text read back. -/

namespace Sys2Proof

/-- R23 in numbers. -/
theorem StationAddress.valid_iff (a : StationAddress) :
    a.valid = true ↔ 1 ≤ a.callsign.length ∧ a.callsign.length ≤ 6 ∧ a.ssid.toNat ≤ 15 ∧
      (∀ b ∈ a.callsign, 0x20 ≤ b.toNat ∧ b.toNat ≤ 0x7F ∧ b ≠ 0x2D) ∧ a.callsign.getLast? ≠ some 0x20 := by
  simp [StationAddress.valid, BitVec.le_def, and_assoc]

namespace Machine

theorem encodable_of_valid {a : StationAddress} (h : a.valid = true) : encodable a := by
  obtain ⟨-, hlen, hssid, -⟩ := (StationAddress.valid_iff a).mp h
  exact ⟨hlen, hssid⟩

/-! ### The wire field -/

@[simp] theorem length_wireField (a : StationAddress) (last : Bool) : (wireField a last).length = 7 := by
  simp [wireField]

/-- The trailer byte holds the whole sum: its fields do not overlap. -/
theorem natAt_wireField_trailer (a : StationAddress) (last : Bool) :
    natAt (wireField a last) 6 =
      128 * a.cr1.toNat + 64 * a.cr2.toNat + 32 * a.cr3.toNat + 2 * (a.ssid.toNat % 16) + last.toNat := by
  have := a.cr1.toNat_le
  have := a.cr2.toNat_le
  have := a.cr3.toNat_le
  have := last.toNat_le
  simp [natAt, wireField]
  omega

/-- The trailer's fields do not overlap, so each is read back (R64). -/
theorem wireField_trailer_fields {a : StationAddress} (last : Bool) (h : a.ssid.toNat ≤ 15) :
    BitVec.ofNat 8 (natAt (wireField a last) 6 / 2 % 16) = a.ssid ∧
      decide (natAt (wireField a last) 6 / 128 % 2 = 1) = a.cr1 ∧
      decide (natAt (wireField a last) 6 / 64 % 2 = 1) = a.cr2 ∧
      decide (natAt (wireField a last) 6 / 32 % 2 = 1) = a.cr3 ∧
      decide (natAt (wireField a last) 6 % 2 = 1) = last := by
  have flag : ∀ (n : Nat) (b : Bool), n = b.toNat → decide (n = 1) = b := by
    rintro n b rfl
    cases b <;> rfl
  have := a.cr1.toNat_le
  have := a.cr2.toNat_le
  have := a.cr3.toNat_le
  have := last.toNat_le
  rw [natAt_wireField_trailer]
  refine ⟨BitVec.eq_of_toNat_eq ?_, flag _ _ ?_, flag _ _ ?_, flag _ _ ?_, flag _ _ ?_⟩
  · rw [BitVec.toNat_ofNat]
    omega
  all_goals omega

/-- The characters of a valid address and the padding after them are all at least 0x20 and below 0x80. -/
theorem callsign_getD_bounds {a : StationAddress} (h : a.valid = true) (i : Nat) :
    0x20 ≤ (a.callsign.getD i 0x20).toNat ∧ (a.callsign.getD i 0x20).toNat ≤ 0x7F := by
  obtain ⟨-, -, -, hchars, -⟩ := (StationAddress.valid_iff a).mp h
  rcases Nat.lt_or_ge i a.callsign.length with hlt | hge
  · obtain ⟨hlow, hhigh, -⟩ := hchars _ (List.getElem_mem hlt)
    simp [hlt, hlow, hhigh]
  · simp [hge]

/-- A character below 0x80 is doubled without loss. -/
theorem natAt_wireField_char {a : StationAddress} (last : Bool) (h : a.valid = true) {i : Nat} (hi : i < 6) :
    natAt (wireField a last) i = 2 * (a.callsign.getD i 0x20).toNat := by
  obtain ⟨-, hhigh⟩ := callsign_getD_bounds h i
  have hbyte : natAt (wireField a last) i = 2 * (a.callsign.getD i 0x20).toNat % 256 := by
    simp [natAt, wireField, List.getElem?_append_left, hi]
  rw [hbyte]
  omega

/-- R106: ADDR_DEC reads what ADDR_ENC writes. -/
theorem decodeAddress_wireField {a : StationAddress} (last : Bool) (h : a.valid = true) :
    decodeAddress (wireField a last) 0 = .ok (a, last) := by
  obtain ⟨-, hlen, hssid, -, hend⟩ := (StationAddress.valid_iff a).mp h
  have hchar : ∀ i, i < 6 → natAt (wireField a last) (0 + i) = 2 * (a.callsign.getD i 0x20).toNat := fun i hi => by
    rw [Nat.zero_add, natAt_wireField_char last h hi]
  have hok : ∀ i, i < 6 → natAt (wireField a last) (0 + i) % 2 = 0 ∧ 0x20 ≤ natAt (wireField a last) (0 + i) / 2 := by
    intro i hi
    obtain ⟨hlow, -⟩ := callsign_getD_bounds h i
    rw [hchar i hi]
    omega
  have hcall : a.callsign ++ List.replicate (6 - a.callsign.length) 0x20 =
      (List.range 6).map fun i => BitVec.ofNat 8 (natAt (wireField a last) (0 + i) / 2) := by
    rw [append_replicate_eq_map _ hlen]
    refine List.map_congr_left fun i hi => ?_
    rw [hchar i (List.mem_range.mp hi), Nat.mul_div_cancel_left _ (by decide), BitVec.ofNat_toNat, BitVec.setWidth_eq]
  obtain ⟨hs, h1, h2, h3, hmark⟩ := wireField_trailer_fields last hssid
  rw [decodeAddress_of_wellFormed (by simp) hok hcall hend, Nat.zero_add, hs, h1, h2, h3, hmark]

/-! ### The text -/

theorem toNat_digitByte {d : Nat} (h : d < 10) : (digitByte d).toNat = 0x30 + d := by
  rw [digitByte, BitVec.toNat_ofNat]
  omega

/-- The digits of a u8, read as a decimal number, are the number again; one below 100 has at most two. -/
theorem decimalBytes_read (n : Byte) :
    decimalBytes n ≠ [] ∧ (∀ d ∈ decimalBytes n, 0x30 ≤ d.toNat ∧ d.toNat ≤ 0x39) ∧
      (n.toNat < 100 → (decimalBytes n).length ≤ 2) ∧ decimalValue (decimalBytes n) = n.toNat := by
  have hlt : n.toNat < 256 := n.isLt
  unfold decimalBytes decimalValue
  split_ifs with h1 h2
  · simp [toNat_digitByte h1]
    omega
  · have tens := toNat_digitByte (show n.toNat / 10 < 10 by omega)
    have units := toNat_digitByte (show n.toNat % 10 < 10 by omega)
    simp [tens, units]
    omega
  · have hundreds := toNat_digitByte (show n.toNat / 100 < 10 by omega)
    have tens := toNat_digitByte (show n.toNat / 10 % 10 < 10 by omega)
    have units := toNat_digitByte (show n.toNat % 10 < 10 by omega)
    simp [hundreds, tens, units]
    omega

theorem dash_notMem_of_valid {a : StationAddress} (h : a.valid = true) : (0x2D : Byte) ∉ a.callsign := by
  obtain ⟨-, -, -, hchars, -⟩ := (StationAddress.valid_iff a).mp h
  exact fun hmem => (hchars _ hmem).2.2 rfl

theorem formatAddress_of_ne_zero {a : StationAddress} (h : a.ssid ≠ 0) :
    formatAddress a = a.callsign ++ 0x2D :: decimalBytes a.ssid := if_neg h

theorem length_formatAddress_le {a : StationAddress} (h : a.valid = true) : (formatAddress a).length ≤ 9 := by
  obtain ⟨-, hlen, hssid, -⟩ := (StationAddress.valid_iff a).mp h
  obtain ⟨-, -, htwo, -⟩ := decimalBytes_read a.ssid
  have := htwo (by omega)
  by_cases hzero : a.ssid = 0
  · rw [formatAddress_of_ssid_zero hzero]
    omega
  · simp [formatAddress_of_ne_zero hzero]
    omega

theorem plainAddress_of_flagless {a : StationAddress} (h1 : a.cr1 = false) (h2 : a.cr2 = false) (h3 : a.cr3 = false) :
    plainAddress a.callsign a.ssid = a := by
  cases a
  simp_all [plainAddress]

/-- R107: ADDR_PARSE reads what ADDR_FMT writes, but for the flags, which a text does not hold. -/
theorem parseAddress_formatAddress {a : StationAddress} (h : a.valid = true) :
    parseAddress (formatAddress a) = .ok (plainAddress a.callsign a.ssid) := by
  obtain ⟨hpos, hlen, hssid, -⟩ := (StationAddress.valid_iff a).mp h
  have hdash := dash_notMem_of_valid h
  have hlong := length_formatAddress_le h
  by_cases hzero : a.ssid = 0
  · rw [formatAddress_of_ssid_zero hzero, parseAddress_of_no_dash (by omega) hdash, parseCallsign_ok 0 hpos hlen, hzero]
    rfl
  · obtain ⟨hne, hdigits, -, hvalue⟩ := decimalBytes_read a.ssid
    rw [formatAddress_of_ne_zero hzero] at hlong ⊢
    rw [parseAddress_of_isDashedText hdash ⟨hpos, hlen, hne, hdigits, hlong, hvalue.trans_le hssid⟩, hvalue,
      BitVec.ofNat_toNat, BitVec.setWidth_eq]

end Machine
end Sys2Proof
end

section
/-! SUPPORT. The round trips of the frame codec (41_frame.md, Laws), what FRM_DEC returns, and FRM_ENC's first check. -/

namespace Sys2Proof.Machine

/-- R136 and C1: the addresses come back in order with their flags, and the two header bytes are those emitted. -/
theorem decodeFrame_of_encoded_chain {init : List StationAddress} {final : StationAddress} (control protocolId : Byte)
    (payload : Bytes) (time : Time) (hinit : init ≠ []) (h : ∀ a ∈ init ++ [final], a.valid = true) :
    decodeFrame ((init.map fun a => wireField a false).flatten ++ wireField final true ++
        control :: protocolId :: payload) time =
      .ok (.standard (init ++ [final]) control protocolId payload time) := by
  have hchain : ∀ p ∈ init.map fun a => (wireField a false, a),
      p.1.length = 7 ∧ decodeAddress p.1 0 = .ok (p.2, false) := by
    rintro p hp
    obtain ⟨a, ha, rfl⟩ := List.mem_map.mp hp
    exact ⟨length_wireField a false, decodeAddress_wireField false (h a (List.mem_append_left _ ha))⟩
  have hlast := decodeAddress_wireField true (h final (by simp))
  have hread := decodeFrame_of_chain (control :: protocolId :: payload) time hchain (length_wireField final true) hlast
  rw [if_neg (by simpa using hinit)] at hread
  simpa [standardTail, Function.comp_def] using hread

/-- FRM_ENC's bytes for addresses that can all be encoded (R135). -/
theorem encodeFrame_of_encodable (emit : CtrlEmit) {init : List StationAddress} {final : StationAddress}
    (control protocolId : Byte) (payload : Bytes) (hinit : init ≠ []) (h : ∀ a ∈ init ++ [final], encodable a) :
    encodeFrame emit .standard (init ++ [final]) control protocolId payload =
      .ok ((init.map fun a => wireField a false).flatten ++ wireField final true ++
        standardHeader emit control protocolId ++ payload) := by
  rw [encodeFrame_standard emit final control protocolId payload hinit, encodeStandard, encodeChain_of_encodable h]

/-- R137: the three fields SF_ENC writes are read back without their leading bytes. -/
theorem decodeFrame_of_encoded_short {call payload : Bytes} (time : Time) (hc : call.length ≤ 6)
    (hp : payload.length ≤ 254) :
    decodeFrame ([0x01, BitVec.ofNat 8 (1 + call.length), 0x20] ++ call ++
        [0x01, 0x21, BitVec.ofNat 8 (1 + payload.length), 0x24] ++ payload) time =
      .ok (.shortForm (plainAddress call 0) 0x21 payload time) := by
  have hfields : [0x01, BitVec.ofNat 8 (1 + call.length), 0x20] ++ call ++
      [0x01, 0x21, BitVec.ofNat 8 (1 + payload.length), 0x24] ++ payload =
      [sfMarker] ++ withLength (0x20 :: call) ++ withLength [0x21] ++ withLength (0x24 :: payload) ++ [] := by
    simp [withLength, sfMarker, Nat.add_comm]
  rw [hfields, decodeFrame_of_marker time rfl,
    decodeShort_of_fields [] time (by simp; omega) (by simp) (by simp; omega)]
  rfl

/-! ### What FRM_DEC returns -/

theorem decodeShort_ok {data : Bytes} {time : Time} {f : Frame} (h : decodeShort data time = .ok f) :
    ∃ address control payload, f = .shortForm address control payload time := by
  unfold decodeShort at h
  split at h
  · cases h
  split at h
  · cases h
  split at h
  · cases h
  cases h
  exact ⟨_, _, _, rfl⟩

theorem standardTail_ok {addresses : List StationAddress} {tail : Bytes} {time : Time} {f : Frame}
    (h : standardTail addresses tail time = .ok f) :
    ∃ control protocolId payload, f = .standard addresses control protocolId payload time := by
  unfold standardTail at h
  split at h <;> cases h
  · exact ⟨_, _, _, rfl⟩
  · exact ⟨_, _, _, rfl⟩

/-- STD_DEC checks the number of addresses before it returns a frame (R132). -/
theorem decodeStandard_ok {data : Bytes} {time : Time} {f : Frame} (h : decodeStandard data time = .ok f) :
    ∃ addresses control protocolId payload,
      2 ≤ addresses.length ∧ f = .standard addresses control protocolId payload time := by
  unfold decodeStandard at h
  split at h
  · cases h
  next addresses tail _ =>
  split at h
  · cases h
  next hcount =>
  obtain ⟨control, protocolId, payload, hf⟩ := standardTail_ok h
  exact ⟨addresses, control, protocolId, payload, Nat.le_of_not_lt hcount, hf⟩

/-- R27: the two forms of a decoded frame, each with the operand's timestamp. -/
theorem decodeFrame_ok {data : Bytes} {time : Time} {f : Frame} (h : decodeFrame data time = .ok f) :
    (∃ address control payload, f = .shortForm address control payload time) ∨
      ∃ addresses control protocolId payload,
        2 ≤ addresses.length ∧ f = .standard addresses control protocolId payload time := by
  unfold decodeFrame at h
  split at h
  · cases h
  split at h
  · exact .inl (decodeShort_ok h)
  · exact .inr (decodeStandard_ok h)

/-- A frame that FRM_DEC replies with is one that `decodeFrame` gave. -/
theorem decodeFrame_of_reply {s t : State} {data : Bytes} {time : Time} {f : Frame}
    (h : exec (.frmDec data time) s = .next t) (hreply : t.reply = some (.ok (.frame f))) :
    decodeFrame data time = .ok f := by
  rw [finish_next (guarded_next h), State.answer_reply] at hreply
  cases hd : decodeFrame data time with
  | error e => rw [hd] at hreply; cases hreply
  | ok g => rw [hd] at hreply; cases hreply; rfl

/-! ### FRM_ENC's first check -/

theorem encodeFrame_of_bad_count (emit : CtrlEmit) {format : FrameFormat} {addresses : List StationAddress}
    (control protocolId : Byte) (payload : Bytes)
    (h : addresses.length = 0 ∨ (format = .shortForm ∧ addresses.length ≠ 1) ∨
      (format = .standard ∧ addresses.length < 2)) :
    encodeFrame emit format addresses control protocolId payload = .error .notEncodable := by
  match format, addresses, h with
  | .standard, [], _ => rfl
  | .shortForm, [], _ => rfl
  | .standard, [_], _ => rfl
  | .shortForm, _ :: _ :: _, _ => rfl

end Sys2Proof.Machine
end

section
/-! The obligations about round trips of addresses and frames, about what FRM_DEC returns and what FRM_ENC checks first. -/

namespace Sys2Proof.Proofs

open Sys2Proof.Machine

/-- Settles O12: the seven bytes are the wire field, from which every field is read back. -/
theorem addressFieldRoundTrips : Obligations.AddressFieldRoundTrips := by
  intro s a last hvalid hmax
  refine ⟨wireField a last, ?_, length_wireField a last, fun s' hmax' => ?_⟩
  · rw [exec_addrEnc hmax, encodeAddress_of_encodable last (encodable_of_valid hvalid)]
    rfl
  · rw [exec_addrDec hmax', decodeAddress_wireField last hvalid]
    rfl

/-- Settles O13: the callsign of a valid address holds no dash, so the text is split where it was joined. -/
theorem addressTextRoundTrips : Obligations.AddressTextRoundTrips := by
  intro s a hvalid h1 h2 h3 hmax
  refine ⟨formatAddress a, exec_addrFmt hmax, length_formatAddress_le hvalid, fun s' hmax' => ?_⟩
  rw [exec_addrParse hmax', parseAddress_formatAddress hvalid, plainAddress_of_flagless h1 h2 h3]
  rfl

/-- Settles O16, by the form and the number of addresses. -/
theorem frmEncChecksTheAddressCountFirst : Obligations.FrmEncChecksTheAddressCountFirst := by
  intro s format addresses control protocolId payload hpay hcalls hcount
  rw [exec_frmEnc hpay hcalls, encodeFrame_of_bad_count _ _ _ _ hcount]
  rfl

/-- Settles O19: the two header bytes that come back are the ones `CTRL_EMIT` emitted. -/
theorem standardFrameRoundTrips : Obligations.StandardFrameRoundTrips := by
  intro s addresses control protocolId payload hcount hvalid hpay hcalls
  obtain ⟨init, final, rfl⟩ : ∃ init final, addresses = init ++ [final] :=
    (List.eq_nil_or_concat' addresses).resolve_left (List.ne_nil_of_length_pos (by omega))
  have hinit : init ≠ [] := by
    rintro rfl
    simp at hcount
  refine ⟨(init.map fun a => wireField a false).flatten ++ wireField final true ++
    standardHeader s.config.ctrlEmit control protocolId ++ payload, ?_, fun s' time hmax' => ?_⟩
  · rw [exec_frmEnc hpay hcalls,
      encodeFrame_of_encodable _ _ _ _ hinit fun a ha => encodable_of_valid (hvalid a ha)]
    rfl
  · rw [exec_frmDec hmax']
    refine ⟨fun hemit => ?_, fun hemit => ?_⟩
    · rw [hemit, List.append_assoc]
      exact congrArg (fun r => finish s' (r.map .frame))
        (decodeFrame_of_encoded_chain control protocolId payload time hinit hvalid)
    · rw [hemit, List.append_assoc]
      exact congrArg (fun r => finish s' (r.map .frame))
        (decodeFrame_of_encoded_chain 0x00 control payload time hinit hvalid)

/-- Settles O20: what SF_ENC writes is three fields that are all there. -/
theorem shortFrameRoundTrips : Obligations.ShortFrameRoundTrips := by
  intro s a control protocolId payload hcall hlen hpay hmax
  obtain ⟨-, -, hwrites⟩ := frmEncWritesShortForm s a control protocolId payload hpay hmax
  refine ⟨_, hwrites hcall hlen, rfl, fun s' time hmax' => ?_⟩
  rw [exec_frmDec hmax', decodeFrame_of_encoded_short time hcall hlen]
  rfl

/-- Settles O21, by the two forms of a decoded frame. -/
theorem decodedStandardFrameHasTwoAddresses : Obligations.DecodedStandardFrameHasTwoAddresses := by
  intro s t data time hexec
  refine ⟨?_, ?_⟩
  · intro addresses control protocolId payload stamp hreply
    rcases decodeFrame_ok (decodeFrame_of_reply hexec hreply) with ⟨_, _, _, ⟨⟩⟩ | ⟨_, _, _, _, hcount, ⟨⟩⟩
    exact ⟨hcount, rfl⟩
  · intro address control payload stamp hreply
    rcases decodeFrame_ok (decodeFrame_of_reply hexec hreply) with ⟨_, _, _, ⟨⟩⟩ | ⟨_, _, _, _, _, ⟨⟩⟩
    rfl

end Sys2Proof.Proofs
end

section
/-! SUPPORT. The command port (30_encoding.md R60 to R63): what decodes to an instruction, and what is reserved. -/

namespace Sys2Proof

/-- REC_ENC takes a record of its own type and is ill-typed with every other operand (R61). -/
theorem withRecord_cases (kind : RecordKind) (k : RecordMap → Instr) (o : Operands) :
    (∃ fields, o = .record { kind := kind, fields := fields } ∧ withRecord kind k o = .instr (k fields)) ∨
      withRecord kind k o = .illTyped := by
  cases o with
  | record rec =>
    by_cases h : rec.kind = kind
    · subst h
      exact .inl ⟨rec.fields, rfl, if_pos rfl⟩
    · exact .inr (if_neg h)
  | _ => exact .inr rfl

theorem encode_of_withRecord {kind : RecordKind} {k : RecordMap → Instr} {o : Operands} {i : Instr} {op : Opcode}
    (hk : ∀ fields, encode (k fields) = commandOf op (.record { kind := kind, fields := fields }))
    (h : withRecord kind k o = .instr i) : encode i = commandOf op o := by
  rcases withRecord_cases kind k o with ⟨fields, rfl, e⟩ | e
  · cases e.symm.trans h
    exact hk fields
  · cases e.symm.trans h

theorem withRecord_ne_reserved (kind : RecordKind) (k : RecordMap → Instr) (o : Operands) :
    withRecord kind k o ≠ .reserved := by
  rcases withRecord_cases kind k o with ⟨fields, -, e⟩ | e <;> simp [e]

/-- An operation takes only the operand record of its row, which is the one its instruction is encoded with. -/
theorem encode_of_assemble {op : Opcode} {o : Operands} {i : Instr} (h : assemble op o = .instr i) :
    encode i = commandOf op o := by
  cases op with
  | recEncChan => exact encode_of_withRecord (fun _ => rfl) h
  | recEncGlobal => exact encode_of_withRecord (fun _ => rfl) h
  | recEncBss => exact encode_of_withRecord (fun _ => rfl) h
  | _ =>
    cases o <;> cases h
    rfl

theorem assemble_ne_reserved (op : Opcode) (o : Operands) : assemble op o ≠ .reserved := by
  cases op with
  | recEncChan => exact withRecord_ne_reserved _ _ o
  | recEncGlobal => exact withRecord_ne_reserved _ _ o
  | recEncBss => exact withRecord_ne_reserved _ _ o
  | _ => cases o <;> exact nofun

theorem decode_encode (i : Instr) : decode (encode i) = .instr i := by
  cases i <;> rfl

theorem encode_of_decode {c : Command} {i : Instr} (h : decode c = .instr i) : encode i = c := by
  unfold decode at h
  split at h
  · cases h
  next op hop =>
  rw [encode_of_assemble h, commandOf, Opcode.toByte_of_ofByte hop]

/-- R253: a reserved opcode byte is decided before the operands, and no operation is reserved. -/
theorem decode_eq_reserved_iff (c : Command) : decode c = .reserved ↔ Opcode.ofByte c.op = none := by
  unfold decode
  cases Opcode.ofByte c.op with
  | none => simp
  | some op => simp [assemble_ne_reserved]

/-- R63's ranges are the bytes with no row in R61's table. -/
theorem ofByte_eq_none_iff (op : Byte) :
    Opcode.ofByte op = none ↔
      (op.toNat = 0x00 ∨ (0x06 ≤ op.toNat ∧ op.toNat ≤ 0x0F) ∨ (0x12 ≤ op.toNat ∧ op.toNat ≤ 0x1F) ∨
        (0x23 ≤ op.toNat ∧ op.toNat ≤ 0x2F) ∨ op.toNat = 0x33 ∨ (0x37 ≤ op.toNat ∧ op.toNat ≤ 0x3F) ∨
        (0x46 ≤ op.toNat ∧ op.toNat ≤ 0x4F) ∨ op.toNat = 0x50 ∨ op.toNat = 0x51 ∨
        (0x55 ≤ op.toNat ∧ op.toNat ≤ 0x5F) ∨ (0x62 ≤ op.toNat ∧ op.toNat ≤ 0xFF)) := by
  revert op
  exact Machine.forall_byte (by decide +kernel)

theorem countP_ofByte_eq_none :
    ((List.range 256).countP fun n => decide (Opcode.ofByte (BitVec.ofNat 8 n) = none)) = 229 := by
  decide +kernel

namespace Machine

/-! ### One step, by its next input -/

theorem step_of_command {s : State} {c : Command} {rest : List HostInput} (h : s.pending = .command c :: rest) :
    step s = perform c { s with pending := rest } := by
  simp [step, fetch_cons h]

theorem step_of_reset {s : State} {rest : List HostInput} (h : s.pending = .reset :: rest) :
    step s = .next ({ s with pending := rest } : State).resetUnit := by
  simp [step, fetch_cons h]

theorem step_of_no_input {s : State} (h : s.pending = []) : step s = .next s := by
  simp [step, h, idle]

theorem perform_of_instr {c : Command} {i : Instr} (h : decode c = .instr i) (s : State) : perform c s = exec i s := by
  simp [perform, h]

theorem perform_of_reserved {c : Command} (h : decode c = .reserved) (s : State) :
    perform c s = reservedOpcode c.operands s := by
  simp [perform, h]

theorem perform_of_illTyped {c : Command} (h : decode c = .illTyped) (s : State) :
    perform c s = .refused .illTypedOperand := by
  simp [perform, h]

theorem guarded_of_long {s : State} {bs : List Bytes} (h : ∃ b ∈ bs, withinMax s.config b = false) (k : StepOutcome) :
    guarded s bs k = .refused .bufferTooLong := by
  obtain ⟨b, hb, hlong⟩ := h
  rcases guarded_cases s bs k with ⟨hfit, -⟩ | ⟨-, e⟩
  · rw [hfit b hb] at hlong
    cases hlong
  · exact e

/-- R14: every command is its operand limit and, behind it, a meaning. -/
theorem exec_guarded (i : Instr) (s : State) : ∃ k, exec i s = guarded s i.buffers k := by
  rcases isPush_cases i with hi | ⟨frag, rfl⟩
  · obtain ⟨k, e, -⟩ := exec_eq_guarded hi s
    exact ⟨k, e⟩
  · exact ⟨_, rfl⟩

theorem withinMax_eq_false {c : Config} {m : Nat} {b : Bytes} (hm : c.maxBufLen = some m) (hb : m < b.length) :
    withinMax c b = false := by
  simp [withinMax, hm, hb]

/-- A command with a buffer over the limit is refused, whatever it decodes to. -/
theorem perform_of_long {c : Command} {s : State} (h : ∃ b ∈ operandBuffers c.operands, withinMax s.config b = false) :
    ∃ r, perform c s = .refused r := by
  rcases perform_cases c s with ⟨i, hd, e⟩ | ⟨-, e⟩ | ⟨-, e⟩
  · obtain ⟨k, hk⟩ := exec_guarded i s
    have hbuffers : i.buffers = operandBuffers c.operands := by rw [Instr.buffers, encode_of_decode hd]
    exact ⟨_, by rw [e, hk, guarded_of_long (hbuffers ▸ h)]⟩
  · exact ⟨_, e.trans (guarded_of_long h _)⟩
  · exact ⟨_, e⟩

end Machine

end Sys2Proof
end

section
/-! The obligations about the command port and one step. -/

namespace Sys2Proof.Proofs

open Sys2Proof.Machine Sys2Proof.Laws

/-- Settles O2, by the slots and fields after the unit's reset. -/
theorem hostResetBetweenCommandsEmptiesEverySlot : Obligations.HostResetBetweenCommandsEmptiesEverySlot := by
  intro s rest hp
  refine ⟨_, step_of_reset hp, fun k => ?_, rfl, rfl, rfl⟩
  rw [State.slot_resetUnit]
  rfl

/-- Settles O3, by the three answers of the decoder and the empty queue. -/
theorem stepPerformsTheNextCommand : Obligations.StepPerformsTheNextCommand := by
  intro s c rest
  refine ⟨fun hp i hd => ?_, fun hp hd => ?_, step_of_no_input⟩
  · rw [step_of_command hp, perform_of_instr hd]
  · rw [step_of_command hp, perform_of_illTyped hd]

/-- Settles O4: the opcode byte alone says whether a command is reserved. -/
theorem reservedOpcodeEndsWithIllegalOp : Obligations.ReservedOpcodeEndsWithIllegalOp := by
  refine ⟨fun op o => (decode_eq_reserved_iff _).trans (ofByte_eq_none_iff op), ?_, fun s c rest hp hd => ⟨?_, ?_⟩⟩
  · simpa only [decode_eq_reserved_iff] using countP_ofByte_eq_none
  · intro hfit
    rw [step_of_command hp, perform_of_reserved hd]
    exact guarded_of_fits hfit _
  · intro hlong
    rw [step_of_command hp, perform_of_reserved hd]
    exact guarded_of_long hlong _

/-- Settles O5, by the two round trips of the port. -/
theorem commandDecodesExactlyToWhatEncodesIt : Obligations.CommandDecodesExactlyToWhatEncodesIt :=
  fun _ i => ⟨encode_of_decode, fun h => h ▸ decode_encode i⟩

/-- Settles O6: each command is the encoding of its row's instruction. -/
theorem tableOpcodesDecodeToTheirRows : Obligations.TableOpcodesDecodeToTheirRows :=
  ⟨fun o data => PortRoundTrip.addrDec data o, PortRoundTrip.frmDec, PortRoundTrip.fragPush, PortRoundTrip.wr24,
    PortRoundTrip.recDecGps, PortRoundTrip.recEncGlobal, PortRoundTrip.geoEnc⟩

/-- Settles O50: the operand limit stands before every command's meaning. -/
theorem oversizedOperandIsRefused : Obligations.OversizedOperandIsRefused := by
  intro s m b hm hb
  refine ⟨fun i hi => ?_, fun c rest hp hc => ?_⟩
  · obtain ⟨k, e⟩ := exec_guarded i s
    rw [e, guarded_of_long ⟨b, hi, withinMax_eq_false hm hb⟩]
  · obtain ⟨r, e⟩ := perform_of_long (s := { s with pending := rest }) ⟨b, hc, withinMax_eq_false hm hb⟩
    rw [step_of_command hp, e]
    rfl

end Sys2Proof.Proofs
end

section
/-! SUPPORT. The effect of a command on the state, said once for all commands: the slot it writes, what it reads, and
what it leaves unchanged (20_memory.md). -/

namespace Sys2Proof.Machine

/-! ### What a push writes -/

theorem slot_of_exec_push {frag : Fragment} {s t : State} (h : exec (.fragPush frag) s = .next t) :
    t.slot frag.channelId = adoptedSlot frag (joinedBuffer (s.slot frag.channelId) frag) := by
  obtain ⟨-, -, rfl⟩ := exec_push_next h
  simp

/-- A command that completes leaves a slot as it was, unless it is a push on its key, which adopts the fragment within
`REASM_CAPACITY`. -/
theorem slot_exec_cases {i : Instr} {s t : State} (h : exec i s = .next t) (k : Byte) :
    t.slot k = s.slot k ∨ ∃ frag, i = .fragPush frag ∧
      withinCapacity s.config (joinedBuffer (s.slot k) frag).length = true ∧
      t.slot k = adoptedSlot frag (joinedBuffer (s.slot k) frag) := by
  rcases isPush_cases i with hi | ⟨frag, rfl⟩
  · obtain ⟨r, rfl⟩ := exec_pure_next hi h
    exact .inl rfl
  · obtain ⟨-, hcap, ht⟩ := exec_push_next h
    by_cases hk : k = frag.channelId
    · subst hk
      exact .inr ⟨frag, rfl, hcap, slot_of_exec_push h⟩
    · rw [ht, State.answer_slot, State.slot_setSlot_other _ _ hk]
      exact .inl rfl

/-- A push of the slot's own id, or on a closed slot, restarts it (R46, R275). -/
theorem continuesSlot_of_duplicate_or_closed {slot : Slot} {frag : Fragment}
    (h : slot.lastId = frag.fragmentId ∨ slot.closed = true) : continuesSlot slot frag = false := by
  refine continuesSlot_eq_false ?_
  rcases h with hid | hclosed
  · have := frag.fragmentId.isLt
    rw [hid]
    omega
  · exact .inr (.inl hclosed)

/-- The host's fragment under the key it has, from the wire or of its own choice (R166). -/
theorem hostFragment_of_key {c : Config} {channel : Option Byte} {key : Byte} (isFinal : Bool) (id : U6) (data : Bytes)
    (region : Region) (h : channel = some key ∨ (channel = none ∧ c.hostChannelKey = some key)) :
    hostFragment c isFinal id data channel region = some
      { isFinal := isFinal, fragmentId := id, data := data, channelId := key, regionId := region } := by
  rcases h with rfl | ⟨rfl, hhost⟩
  · rfl
  · simp [hostFragment, hhost]

/-! ### The part of the state a command reads and writes -/

/-- Writing one slot or none. -/
def State.write (s : State) (w : Option (Byte × Slot)) : State := w.elim s fun p => s.setSlot p.1 p.2

@[simp] theorem State.write_pending (s : State) (w : Option (Byte × Slot)) : (s.write w).pending = s.pending := by
  cases w <;> rfl
@[simp] theorem State.write_config (s : State) (w : Option (Byte × Slot)) : (s.write w).config = s.config := by
  cases w <;> rfl
@[simp] theorem State.write_answer_store (s : State) (r : Reply) (w : Option (Byte × Slot)) :
    ((s.answer r).write w).store = (s.write w).store := by
  cases w <;> rfl

theorem State.slot_write_other {s : State} {w : Option (Byte × Slot)} {k : Byte} (h : ∀ p ∈ w, p.1 ≠ k) :
    (s.write w).slot k = s.slot k := by
  cases w with
  | none => rfl
  | some p => exact s.slot_setSlot_other p.2 (h p rfl).symm

/-- Writes of different slots commute. -/
theorem State.store_write_comm (s : State) {w v : Option (Byte × Slot)} (h : ∀ p ∈ w, ∀ q ∈ v, p.1 ≠ q.1) :
    ((s.write w).write v).store = ((s.write v).write w).store := by
  cases w with
  | none => rfl
  | some p =>
    cases v with
    | none => rfl
    | some q =>
      exact Vector.set_comm (hi := p.1.isLt) (hj := q.1.isLt) _ _ fun e => h p rfl q rfl (BitVec.eq_of_toNat_eq e)

/-- R6, R24: a command that completes writes at most the slot of its key and its reply, and from every state with the
same configuration and the same slot there it writes the same. -/
theorem exec_next_local {i : Instr} {s t : State} (h : exec i s = .next t) :
    ∃ w r, t = (s.write w).answer r ∧ (∀ p ∈ w, ∃ f, i = .fragPush f ∧ p.1 = f.channelId) ∧
      ∀ s' : State, s'.config = s.config → (∀ f, i = .fragPush f → s'.slot f.channelId = s.slot f.channelId) →
        exec i s' = .next ((s'.write w).answer r) := by
  rcases isPush_cases i with hi | ⟨frag, rfl⟩
  · obtain ⟨r, rfl⟩ := exec_pure_next hi h
    refine ⟨none, r, rfl, nofun, fun s' hc _ => ?_⟩
    rcases exec_pure_cases hi hc.symm with ⟨q, e, e'⟩ | ⟨q, e, -⟩
    · have hq := finish_next (e.symm.trans h)
      have hr : r = replyOf q := by simpa using congrArg State.reply hq
      rw [e', hr]
      rfl
    · cases e.symm.trans h
  · obtain ⟨hmax, hcap, rfl⟩ := exec_push_next h
    refine ⟨some (frag.channelId, adoptedSlot frag (joinedBuffer (s.slot frag.channelId) frag)), _, rfl, ?_, ?_⟩
    · rintro p ⟨⟩
      exact ⟨frag, rfl, rfl⟩
    · intro s' hc hslot
      rw [← hslot frag rfl] at hcap ⊢
      rw [← hc] at hmax hcap
      exact exec_push_of hmax hcap

theorem exec_next_frame {i : Instr} {s t : State} (h : exec i s = .next t) :
    t.config = s.config ∧ t.pending = s.pending := by
  obtain ⟨w, r, rfl, -⟩ := exec_next_local h
  exact ⟨State.write_config s w, State.write_pending s w⟩

/-! ### The capacity invariant -/

/-- R26(c): every command that completes keeps the accumulating slots within `REASM_CAPACITY`. -/
theorem exec_keeps_inv {i : Instr} {s t : State} (hs : s.Inv) (h : exec i s = .next t) : t.Inv := by
  obtain ⟨hconfig, -⟩ := exec_next_frame h
  intro k hk
  rw [hconfig]
  rcases slot_exec_cases h k with e | ⟨frag, -, hcap, e⟩ <;> rw [e] at hk ⊢
  · exact hs k hk
  · exact hcap

theorem inv_resetWith (c : Config) : (State.resetWith c).Inv := by
  intro k hk
  rw [State.slot_resetWith] at hk
  cases hk

/-! ### States that no rule tells apart -/

theorem Slot.agrees_iff (a b : Slot) :
    Slot.agrees a b = true ↔ a.st = b.st ∧ (a.st = .empty ∨
      (a.lastId = b.lastId ∧ a.closed = b.closed ∧ (a.closed = true ∨ a.buf = b.buf))) := by
  simp [Slot.agrees, and_assoc]

theorem Slot.agrees_refl (a : Slot) : Slot.agrees a a = true := by
  simp [Slot.agrees_iff]

/-- The bytes a push joins are the same on slots that agree: it reads no field of an Empty slot, no bytes of a closed
one, and no region (R26(a), R31, R25). -/
theorem joinedBuffer_of_agrees {a b : Slot} (frag : Fragment) (h : Slot.agrees a b = true) :
    joinedBuffer a frag = joinedBuffer b frag := by
  obtain ⟨hst, hfields⟩ := (Slot.agrees_iff a b).mp h
  rw [joinedBuffer_eq, joinedBuffer_eq, ← hst]
  rcases hfields with hempty | ⟨hid, hclosed, hbytes⟩
  · simp [hempty]
  · rw [← hid, ← hclosed]
    rcases hbytes with hc | hbuf
    · simp [hc]
    · rw [hbuf]

theorem State.agrees_answer {s t : State} (r : Reply) (h : s.agrees t) : (s.answer r).agrees (t.answer r) := by
  obtain ⟨hp, hc, -, hslots⟩ := h
  exact ⟨hp, hc, rfl, hslots⟩

theorem State.agrees_setSlot {s t : State} (k : Byte) (v : Slot) (h : s.agrees t) :
    (s.setSlot k v).agrees (t.setSlot k v) := by
  obtain ⟨hp, hc, hr, hslots⟩ := h
  refine ⟨hp, hc, hr, fun j => ?_⟩
  rw [State.slot_setSlot, State.slot_setSlot]
  split
  · exact Slot.agrees_refl v
  · exact hslots j

theorem State.agrees_resetUnit {s t : State} (h : s.agrees t) : s.resetUnit.agrees t.resetUnit := by
  obtain ⟨hp, hc, -, -⟩ := h
  refine ⟨hp, hc, rfl, fun k => ?_⟩
  rw [State.slot_resetUnit, State.slot_resetUnit]
  rfl

theorem State.agrees_withPending {s t : State} (p : List HostInput) (h : s.agrees t) :
    ({ s with pending := p } : State).agrees { t with pending := p } := by
  obtain ⟨-, hc, hr, hslots⟩ := h
  exact ⟨rfl, hc, hr, hslots⟩

theorem outcomesAgree_guarded {s t : State} {bs : List Bytes} {k k' : StepOutcome} (h : s.agrees t)
    (hk : outcomesAgree k k') : outcomesAgree (guarded s bs k) (guarded t bs k') := by
  obtain ⟨-, hc, -, -⟩ := h
  unfold guarded
  rw [← hc]
  split
  · exact hk
  · exact rfl

theorem outcomesAgree_pushFragment {s t : State} (frag : Fragment) (h : s.agrees t) :
    outcomesAgree (pushFragment frag s) (pushFragment frag t) := by
  obtain ⟨-, hc, -, hslots⟩ := id h
  unfold pushFragment
  rw [← joinedBuffer_of_agrees frag (hslots frag.channelId), ← hc]
  dsimp only
  split
  · exact State.agrees_answer _ (State.agrees_setSlot _ _ h)
  · exact rfl

theorem outcomesAgree_exec {s t : State} (i : Instr) (h : s.agrees t) : outcomesAgree (exec i s) (exec i t) := by
  rcases isPush_cases i with hi | ⟨frag, rfl⟩
  · obtain ⟨-, hc, -, -⟩ := id h
    rcases exec_pure_cases hi hc with ⟨r, e, e'⟩ | ⟨r, e, e'⟩ <;> rw [e, e']
    · exact State.agrees_answer _ h
    · exact rfl
  · exact outcomesAgree_guarded h (outcomesAgree_pushFragment frag h)

theorem outcomesAgree_perform {s t : State} (c : Command) (h : s.agrees t) :
    outcomesAgree (perform c s) (perform c t) := by
  unfold perform
  split
  · exact outcomesAgree_exec _ h
  · exact outcomesAgree_guarded h (State.agrees_answer _ h)
  · exact rfl

end Sys2Proof.Machine
end

section
/-! The obligations about the whole machine: what commands and steps keep, write and read. -/

namespace Sys2Proof.Proofs

open Sys2Proof.Machine

/-- Settles O1: a command leaves a slot alone or adopts a fragment into it, and an Empty slot is never continued. -/
theorem resetLeavesEverySlotEmptyAndNoCommandDoes : Obligations.ResetLeavesEverySlotEmptyAndNoCommandDoes := by
  have hreset : ∀ (c : Config) (k : Byte), ((State.resetWith c).slot k).st = .empty := fun c k => by
    rw [State.slot_resetWith]
    rfl
  refine ⟨hreset, hreset Config.default, fun i s t k hexec hst => ?_, fun frag s t hempty hexec => ?_⟩
  · rcases slot_exec_cases hexec k with e | ⟨frag, -, -, e⟩
    · rw [e, hst]
    · rw [e]
      rfl
  · rw [slot_of_exec_push hexec, joinedBuffer_of_restart (continuesSlot_eq_false (.inl hempty))]
    rfl

/-- Settles O26: such a push does not continue its slot, so the joined bytes are its own. -/
theorem duplicateAndClosedPushesRestart : Obligations.DuplicateAndClosedPushesRestart := by
  intro s t frag hexec h
  rw [slot_of_exec_push hexec, joinedBuffer_of_restart (continuesSlot_of_duplicate_or_closed h)]
  rfl

/-- Settles O27: each command writes what it would have written first, since the other left its slot alone. -/
theorem commandsThatShareNoStateCommute : Obligations.CommandsThatShareNoStateCommute := by
  intro i j s a b hkeys hi hj
  obtain ⟨wi, ri, rfl, hwi, hlocali⟩ := exec_next_local hi
  obtain ⟨wj, rj, rfl, hwj, hlocalj⟩ := exec_next_local hj
  have hj' : exec j s = .next ((s.write wj).answer rj) := by
    refine hlocalj s (State.write_config s wi).symm ?_
    rintro g rfl
    refine (State.slot_write_other fun p hp => ?_).symm
    obtain ⟨f, rfl, hf⟩ := hwi p hp
    exact hf ▸ hkeys f g rfl rfl
  have hi' : exec i ((s.write wj).answer rj) = .next ((((s.write wj).answer rj).write wi).answer ri) := by
    refine hlocali _ (State.write_config s wj) ?_
    rintro f rfl
    refine State.slot_write_other (s := s) fun q hq => ?_
    obtain ⟨g, rfl, hg⟩ := hwj q hq
    exact hg ▸ (hkeys f g rfl rfl).symm
  refine ⟨_, _, hj', hi', ?_, rfl, rfl⟩
  rw [State.answer_store, State.answer_store, State.write_answer_store, State.write_answer_store]
  refine State.store_write_comm s fun q hq p hp => ?_
  obtain ⟨g, rfl, hg⟩ := hwj q hq
  obtain ⟨f, rfl, hf⟩ := hwi p hp
  exact hg ▸ hf ▸ (hkeys f g rfl rfl).symm

/-- Settles O29: with no capacity every push whose data fit completes, and it adopts the fragment into its slot. -/
theorem wireFragmentIsPushedUnderItsChannel : Obligations.WireFragmentIsPushedUnderItsChannel := by
  intro s isFinal id data channel region
  refine ⟨?_, fun key hkey hmax hcap => ?_⟩
  · rintro rfl hhost
    simp [hostFragment, hhost]
  · have hpush := exec_push_of
      (frag := { isFinal := isFinal, fragmentId := id, data := data, channelId := key, regionId := region }) hmax
      ((withinCapacity_iff _ _).mpr (by simp [hcap]))
    have hslot := slot_of_exec_push hpush
    refine ⟨_, _, hostFragment_of_key isFinal id data region hkey, hpush, ?_, ?_, ?_,
      fun k hk => State.slot_setSlot_other s _ hk⟩
    all_goals
      rw [hslot]
      rfl

/-- Settles O46: such a command ends with one reply, or is refused, by its operands and the configuration. -/
theorem pureCommandsReadAndWriteNoState : Obligations.PureCommandsReadAndWriteNoState := by
  intro i s s' hi hc
  refine ⟨fun t h => ?_, ?_⟩
  · obtain ⟨r, rfl⟩ := exec_pure_next hi h
    rfl
  · rcases exec_pure_cases hi hc with ⟨r, e, e'⟩ | ⟨r, e, e'⟩ <;> rw [e, e']
    · exact ⟨rfl, rfl⟩
    · exact ⟨rfl, rfl⟩

/-- Settles O47: a push never ends with an error status, and every other command changes the reply alone. -/
theorem errorChangesNoState : Obligations.ErrorChangesNoState := by
  intro i s t e h hreply
  rcases isPush_cases i with hi | ⟨frag, rfl⟩
  · obtain ⟨r, rfl⟩ := exec_pure_next hi h
    rw [← hreply]
    rfl
  · obtain ⟨-, -, rfl⟩ := exec_push_next h
    cases hreply

/-- Settles O51, by what a step that goes on has done. -/
theorem stepKeepsTheConfiguration : Obligations.StepKeepsTheConfiguration := by
  intro s t h
  rcases step_next_cases h with ⟨hp, rfl⟩ | ⟨rest, hp, rfl⟩ | ⟨c, rest, hp, -, rfl⟩ | ⟨c, rest, i, hp, -, hexec⟩
  · exact ⟨rfl, by rw [hp]; rfl⟩
  · exact ⟨rfl, by rw [hp]; rfl⟩
  · exact ⟨rfl, by rw [hp]; rfl⟩
  · obtain ⟨hconfig, hpending⟩ := exec_next_frame hexec
    exact ⟨hconfig, by rw [hpending, hp]; rfl⟩

/-- Settles O52: waiting and IllegalOp leave the slots alone, reset empties them, and a push checks the capacity. -/
theorem stepKeepsSlotsWithinCapacity : Obligations.StepKeepsSlotsWithinCapacity := by
  intro s t hs h
  rcases step_next_cases h with ⟨-, rfl⟩ | ⟨rest, -, rfl⟩ | ⟨c, rest, -, -, rfl⟩ | ⟨c, rest, i, -, -, hexec⟩
  · exact hs
  · exact inv_resetWith s.config
  · exact hs
  · exact exec_keeps_inv (s := { s with pending := rest }) hs hexec

/-- Settles O53: no slot accumulates after reset. -/
theorem resetMeetsTheCapacityInvariant : Obligations.ResetMeetsTheCapacityInvariant := inv_resetWith

/-- Settles O54: both states take the same input, and every operation on it keeps the agreement. -/
theorem unreadSlotFieldsAreInvisible : Obligations.UnreadSlotFieldsAreInvisible := by
  intro s t h
  obtain ⟨hp, -, -, -⟩ := id h
  rcases step_cases s with ⟨hs, e⟩ | ⟨rest, hs, e⟩ | ⟨c, rest, hs, e⟩ <;> rw [e]
  · rw [step_of_no_input (hp ▸ hs)]
    exact h
  · rw [step_of_reset (hp ▸ hs)]
    exact State.agrees_resetUnit (State.agrees_withPending rest h)
  · rw [step_of_command (hp ▸ hs)]
    exact outcomesAgree_perform c (State.agrees_withPending rest h)

end Sys2Proof.Proofs
end

section
/-! SUPPORT. The round trips of the byte helpers (43_byteutil.md, R196) and of the geo codec (44_records.md, R231). -/

namespace Sys2Proof.Machine

theorem withinMax_of_length_le {c : Config} {a b : Bytes} (h : a.length ≤ b.length) (hb : withinMax c b = true) :
    withinMax c a = true := by
  unfold withinMax at hb ⊢
  cases hm : c.maxBufLen with
  | none => rfl
  | some m =>
    rw [hm] at hb
    simp only [decide_eq_true_eq] at hb ⊢
    exact h.trans hb

/-! ### Byte helpers -/

/-- R196: the value read where a value was written is that value, cut to the width. -/
theorem beSum_memWrite {data : Bytes} {off n : Nat} (v : Nat) (h : off + n ≤ data.length) :
    beSum (memWrite data off n v) off n = v % 256 ^ n := by
  rw [← beValue_memRead (by rw [length_memWrite _ _ _ _ h]; exact h), memRead_memWrite _ _ _ _ h, beValue_beBytes]

theorem natAt_memWrite_outside {data : Bytes} {off n : Nat} (v : Nat) (h : off + n ≤ data.length) {i : Nat}
    (hi : i < off ∨ off + n ≤ i) : natAt (memWrite data off n v) i = natAt data i := by
  rw [natAt_eq_byteAt, byteAt_memWrite_outside _ _ _ _ _ h hi, natAt_eq_byteAt]

/-- A read of what was written, at the same offset and width. -/
theorem finish_readBytes_memWrite {s : State} {result : Nat → Result} {n : Nat} {data : Bytes} {off : Nat} (v : Nat)
    (h : off + n ≤ data.length) :
    finish s ((readBytes n (memWrite data off n v) off).map result) =
      .next (s.answer (.ok (result (v % 256 ^ n)))) := by
  rw [finish_readBytes_of_fits (by rw [length_memWrite _ _ _ _ h]; exact h), beSum_memWrite v h]

/-- A word of `8 * n` bits holds no more of a number than its value modulo `256 ^ n`. -/
theorem ofNat_mod_pow (n v : Nat) : BitVec.ofNat (8 * n) (v % 256 ^ n) = BitVec.ofNat (8 * n) v := by
  apply BitVec.eq_of_toNat_eq
  rw [BitVec.toNat_ofNat, BitVec.toNat_ofNat, pow_mul, show 2 ^ 8 = 256 from rfl, Nat.mod_mod]

/-! ### Geo values -/

/-- The degrees of a value with the codec's divisor are scaled back to the value, which needs no rounding (R7, R231). -/
theorem geoRound_geoDegrees {g : GeoValue} (h : g.div = 30000) : geoRound (geoDegrees g) 30000 = geoSigned g := by
  have hproduct : geoDegrees g * ((30000 : Nat) : Rat) = ((geoSigned g : Int) : Rat) := by
    rw [geoDegrees, h]
    exact div_mul_cancel₀ _ (by norm_num)
  rw [geoRound_eq, hproduct, if_pos (Rat.den_intCast _), Rat.num_intCast]

theorem toS24_sext32 (v : S24) : toS24 (sext32 v) = v := by
  have hv := v.isLt
  apply BitVec.eq_of_toNat_eq
  rw [toS24, BitVec.toNat_ofInt, sext32_eq_signedOf, signedOf]
  split <;> omega

theorem inS24_sext32 (v : S24) : inS24 (sext32 v) = true := by
  have hv := v.isLt
  rw [inS24_iff, sext32_eq_signedOf, signedOf]
  split <;> omega

/-- R231: the degrees of two values encode to the values' own bytes. -/
theorem encodeGeo_geoDegrees {lat lon : GeoValue} (form : GeoForm) (hlat : lat.div = 30000) (hlon : lon.div = 30000) :
    encodeGeo (geoDegrees lat) (geoDegrees lon) form = .ok (beBytes 3 lat.raw.toNat ++ beBytes 3 lon.raw.toNat) := by
  rw [encodeGeo, geoDivisor_eq, geoRound_geoDegrees hlat, geoRound_geoDegrees hlon, geoSigned, geoSigned,
    encodeRaw_of_in_range (inS24_sext32 _) (inS24_sext32 _), toS24_sext32, toS24_sext32]

/-- The bytes of a value read are the bytes it was read from. -/
theorem beBytes_geoAt {data : Bytes} {off : Nat} (div : Nat) (h : off + 3 ≤ data.length) :
    beBytes 3 (geoAt data off div).raw.toNat = memRead data off 3 := by
  have hread := beBytes_beValue (memRead data off 3)
  rw [length_memRead _ _ _ h] at hread
  rw [geoAt, beValue_memRead h, toNat_ofNat_beSum (n := 3) h, ← beValue_memRead h, hread]

/-- The value read where a value's bytes stand is the value. -/
theorem geoAt_of_memRead {data : Bytes} {off : Nat} {v : S24} (div : Nat) (h : memRead data off 3 = beBytes 3 v.toNat) :
    geoAt data off div = { raw := v, div := div } := by
  have hv : v.toNat < 256 ^ 3 := v.isLt
  rw [geoAt, h, beValue_beBytes, Nat.mod_eq_of_lt hv, BitVec.ofNat_toNat, BitVec.setWidth_eq]

end Sys2Proof.Machine
end

section
/-! The obligations about round trips of the byte helpers and of the geo codec. -/

namespace Sys2Proof.Proofs

open Sys2Proof.Machine

/-- Settles O32: at each width the copy is one `memWrite` and the read takes its bytes. -/
theorem readAfterWriteReturnsTheValue : Obligations.ReadAfterWriteReturnsTheValue := by
  intro s s' data off v hmax hmax'
  have hread : ∀ n, off + n ≤ data.length → withinMax s'.config (memWrite data off n v.toNat) = true := fun n h =>
    withinMax_of_length_le (length_memWrite _ _ _ _ h).le hmax'
  rw [exec_wr16 hmax, exec_wr24 hmax, exec_wr32 hmax]
  refine ⟨fun h => ⟨_, finish_writeBytes_of_fits h, ?_, length_memWrite _ _ _ _ h,
      fun i hi => natAt_memWrite_outside v.toNat h hi⟩,
    fun h => ⟨_, finish_writeBytes_of_fits h, ?_, length_memWrite _ _ _ _ h,
      fun i hi => natAt_memWrite_outside v.toNat h hi⟩,
    fun h => ⟨_, finish_writeBytes_of_fits h, ?_, length_memWrite _ _ _ _ h,
      fun i hi => natAt_memWrite_outside v.toNat h hi⟩⟩
  · rw [← memWrite, exec_rd16 (hread 2 h), finish_readBytes_memWrite v.toNat h, ofNat_mod_pow 2]
    rfl
  · rw [← memWrite, exec_rd24 (hread 3 h), finish_readBytes_memWrite v.toNat h, ofNat_mod_pow 3]
    rfl
  · rw [← memWrite, exec_rd32 (hread 4 h), finish_readBytes_memWrite v.toNat h, ofNat_mod_pow 4, BitVec.ofNat_toNat,
      BitVec.setWidth_eq]
    rfl

/-- Settles O44: each half of the buffer is the bytes of the value read from it. -/
theorem geoBytesRoundTrip : Obligations.GeoBytesRoundTrip := by
  intro s s' data form form' hlen hmax
  refine ⟨geoAt data 0 30000, geoAt data 3 30000, ?_, ?_⟩
  · rw [exec_geoDec hmax, decodeGeo_of_fits form hlen.ge]
    rfl
  · have hhalves : memRead data 0 3 ++ memRead data 3 3 = data := by
      rw [memRead, memRead, List.drop_zero, List.take_of_length_le (l := data.drop 3) (by simp [hlen]),
        List.take_append_drop]
    rw [exec_geoEnc, encodeGeo_geoDegrees form' rfl rfl, beBytes_geoAt _ (by omega), beBytes_geoAt _ (by omega), hhalves]
    rfl

/-- Settles O45: the six bytes are the two values' own, and each is read from its three. -/
theorem geoValuesRoundTrip : Obligations.GeoValuesRoundTrip := by
  intro s s' lat lon form form' hmax
  have hlen : (beBytes 3 lat.toNat ++ beBytes 3 lon.toNat).length = 6 := by simp
  refine ⟨beBytes 3 lat.toNat ++ beBytes 3 lon.toNat, ?_, hlen, ?_⟩
  · rw [exec_geoEnc, encodeGeo_geoDegrees form rfl rfl]
    rfl
  · have hlat : memRead (beBytes 3 lat.toNat ++ beBytes 3 lon.toNat) 0 3 = beBytes 3 lat.toNat := by simp [memRead]
    have hlon : memRead (beBytes 3 lat.toNat ++ beBytes 3 lon.toNat) 3 3 = beBytes 3 lon.toNat := by simp [memRead]
    rw [exec_geoDec (hmax _ hlen), decodeGeo_of_fits form' hlen.ge, geoAt_of_memRead _ hlat, geoAt_of_memRead _ hlon]
    rfl

end Sys2Proof.Proofs
end

section
/-! SUPPORT. The error statuses each codec function ends with (60_exceptions.md R251). -/

namespace Sys2Proof.Machine

theorem error_of_map {α β : Type} {x : Except ErrorKind α} {f : α → β} {e : ErrorKind} (h : x.map f = .error e) :
    x = .error e := by
  cases x with
  | error e' => simpa [Except.map] using h
  | ok a => cases h

theorem decodeAddress_error {data : Bytes} {offset : Nat} {e : ErrorKind} (h : decodeAddress data offset = .error e) :
    e ∈ [.invalidLength, .malformedAddress] := by
  unfold decodeAddress at h
  split at h
  · cases h; simp
  · dsimp only at h
    split at h <;> cases h
    simp

theorem encodeAddress_error {a : StationAddress} {last : Bool} {e : ErrorKind} (h : encodeAddress a last = .error e) :
    e = .invalidAddress := by
  by_cases ha : encodable a
  · cases (encodeAddress_of_encodable last ha).symm.trans h
  · have hrange : 6 < a.callsign.length ∨ 15 < a.ssid.toNat := by
      simpa [encodable, Decidable.imp_iff_not_or] using ha
    cases (encodeAddress_of_out_of_range last hrange).symm.trans h
    rfl

theorem parseCallsign_eq_error {call : Bytes} {ssid : Nat} {e : ErrorKind} (h : parseCallsign call ssid = .error e) :
    e = .invalidFormat := by
  unfold parseCallsign at h
  split at h <;> cases h
  rfl

theorem parseAddress_error {text : Bytes} {e : ErrorKind} (h : parseAddress text = .error e) : e = .invalidFormat := by
  unfold parseAddress at h
  dsimp only at h
  split_ifs at h
  · cases h; rfl
  · cases h; rfl
  · cases h; rfl
  · cases h; rfl
  · exact parseCallsign_eq_error h
  · exact parseCallsign_eq_error h

theorem decodeChain_error {data : Bytes} {e : ErrorKind} (h : decodeChain data = .error e) : e = .malformedAddress := by
  fun_induction decodeChain data with
  | case1 => cases h; rfl
  | case2 => cases h
  | case3 _ _ _ _ _ _ _ _ _ _ _ hrest ih => cases h; exact ih hrest
  | case4 => cases h
  | case5 => cases h; rfl

theorem standardTail_error {addresses : List StationAddress} {tail : Bytes} {time : Time} {e : ErrorKind}
    (h : standardTail addresses tail time = .error e) : e = .truncated := by
  unfold standardTail at h
  split at h <;> cases h
  rfl

theorem decodeStandard_error {data : Bytes} {time : Time} {e : ErrorKind} (h : decodeStandard data time = .error e) :
    e ∈ [.truncated, .malformedAddress] := by
  unfold decodeStandard at h
  split at h
  next hchain => cases h; simp [decodeChain_error hchain]
  split at h
  · cases h; simp
  · simp [standardTail_error h]

theorem decodeFrame_error {data : Bytes} {time : Time} {e : ErrorKind} (h : decodeFrame data time = .error e) :
    e ∈ [.truncated, .malformedAddress] := by
  unfold decodeFrame at h
  split at h
  · cases h; simp
  split at h
  · simp [decodeShort_error h]
  · exact decodeStandard_error h

theorem encodeShort_error {a : StationAddress} {payload : Bytes} {e : ErrorKind} (h : encodeShort a payload = .error e) :
    e ∈ [.notEncodable, .invalidAddress] := by
  unfold encodeShort at h
  split at h
  · cases h; simp
  split at h <;> cases h
  simp

theorem encodeChain_error {addresses : List StationAddress} {e : ErrorKind} (h : encodeChain addresses = .error e) :
    e = .invalidAddress := by
  induction addresses with
  | nil => cases h
  | cons a rest ih =>
    unfold encodeChain at h
    split at h
    · cases h; rfl
    split at h
    next hrest => cases h; exact ih hrest
    · cases h

theorem encodeFrame_error {emit : CtrlEmit} {format : FrameFormat} {addresses : List StationAddress}
    {control protocolId : Byte} {payload : Bytes} {e : ErrorKind}
    (h : encodeFrame emit format addresses control protocolId payload = .error e) :
    e ∈ [.notEncodable, .invalidAddress] := by
  unfold encodeFrame at h
  split at h
  · cases h; simp
  · exact encodeShort_error h
  · cases h; simp
  · cases h; simp
  · unfold encodeStandard at h
    split at h
    next hchain => cases h; simp [encodeChain_error hchain]
    · cases h

theorem decodeFragment_error {data : Bytes} {e : ErrorKind} (h : decodeFragment data = .error e) : e = .truncated := by
  unfold decodeFragment at h
  split at h
  · cases h; rfl
  split at h
  · split at h <;> cases h
    rfl
  · cases h

theorem encodeFragment_error {isFinal : Bool} {id : Byte} {data : Bytes} {channel : Option Byte} {e : ErrorKind}
    (h : encodeFragment isFinal id data channel = .error e) : e = .notEncodable := by
  unfold encodeFragment at h
  split at h <;> cases h
  rfl

theorem readBytes_error {n : Nat} {data : Bytes} {offset : Nat} {e : ErrorKind}
    (h : readBytes n data offset = .error e) : e = .truncated := by
  unfold readBytes at h
  split at h <;> cases h
  rfl

theorem writeBytes_error {n : Nat} {data : Bytes} {offset : Nat} {value : U32} {e : ErrorKind}
    (h : writeBytes n data offset value = .error e) : e = .truncated := by
  unfold writeBytes at h
  split at h <;> cases h
  rfl

theorem decodeRecord_error {L : Layout} {data : Bytes} {e : ErrorKind} (h : decodeRecord L data = .error e) :
    e = .truncated := by
  unfold decodeRecord at h
  split at h <;> cases h
  rfl

theorem decodeGeo_error {data : Bytes} {form : GeoForm} {e : ErrorKind} (h : decodeGeo data form = .error e) :
    e = .truncated := by
  unfold decodeGeo at h
  split at h <;> cases h
  rfl

theorem encodeGeo_error {lat lon : Rat} {form : GeoForm} {e : ErrorKind} (h : encodeGeo lat lon form = .error e) :
    e = .notEncodable := by
  unfold encodeGeo encodeRaw at h
  split_ifs at h <;> cases h <;> rfl

/-! ### The reply of a command that completes -/

/-- The reply is OK, or an error status of the list. -/
def State.repliesWithin (t : State) (errors : List ErrorKind) : Prop :=
  (∃ r, t.reply = some (.ok r)) ∨ ∃ e, t.reply = some (.error e) ∧ e ∈ errors

theorem repliesWithin_of_finish {s t : State} {r : Except ErrorKind Result} {errors : List ErrorKind}
    (hr : ∀ e, r = .error e → e ∈ errors) (h : finish s r = .next t) : t.repliesWithin errors := by
  rw [finish_next h]
  cases r with
  | ok r => exact .inl ⟨r, rfl⟩
  | error e => exact .inr ⟨e, rfl, hr e rfl⟩

theorem repliesWithin_of_ok {s t : State} {r : Result} (errors : List ErrorKind) (h : finish s (.ok r) = .next t) :
    t.repliesWithin errors := repliesWithin_of_finish (by rintro e ⟨⟩) h

/-- A codec's errors are the command's. -/
theorem repliesWithin_of_map {α : Type} {s t : State} {bs : List Bytes} {x : Except ErrorKind α} {f : α → Result}
    {errors : List ErrorKind} (hx : ∀ e, x = .error e → e ∈ errors) (h : guarded s bs (finish s (x.map f)) = .next t) :
    t.repliesWithin errors :=
  repliesWithin_of_finish (fun e he => hx e (error_of_map he)) (guarded_next h)

theorem repliesWithin_of_map_one {α : Type} {s t : State} {bs : List Bytes} {x : Except ErrorKind α} {f : α → Result}
    {error : ErrorKind} (hx : ∀ e, x = .error e → e = error) (h : guarded s bs (finish s (x.map f)) = .next t) :
    t.repliesWithin [error] :=
  repliesWithin_of_map (fun e he => List.mem_singleton.mpr (hx e he)) h

theorem repliesWithin_of_recordDecode {kind : RecordKind} {data : Bytes} {s t : State}
    (h : recordDecode kind data s = .next t) : t.repliesWithin [.truncated] := by
  have hnext := guarded_next h
  rcases withLayout_cases s kind _ with ⟨L, -, -, e⟩ | ⟨-, e⟩ | ⟨L, -, -, e⟩
  · refine repliesWithin_of_finish (fun e he => ?_) (e.symm.trans hnext)
    simp [decodeRecord_error (error_of_map he)]
  · cases e.symm.trans hnext
  · cases e.symm.trans hnext

theorem repliesWithin_of_recordEncode {kind : RecordKind} {fields : RecordMap} {s t : State}
    (h : recordEncode kind fields s = .next t) : t.repliesWithin [] := by
  have hnext := guarded_next h
  rcases withLayout_cases s kind _ with ⟨L, -, -, e⟩ | ⟨-, e⟩ | ⟨L, -, -, e⟩
  · have hmeaning := e.symm.trans hnext
    split at hmeaning
    · cases hmeaning
    split at hmeaning
    · exact repliesWithin_of_ok _ hmeaning
    · cases hmeaning
  · cases e.symm.trans hnext
  · cases e.symm.trans hnext

end Sys2Proof.Machine
end

section
/-! The obligation about the statuses of commands. -/

namespace Sys2Proof.Proofs

open Sys2Proof.Machine

/-- Settles O48, command by command, each by the errors of its codec function. -/
theorem onlyListedStatusesOccur : Obligations.OnlyListedStatusesOccur := by
  intro i s t h
  change t.repliesWithin (listedErrors i)
  cases i with
  | addrDec data offset => exact repliesWithin_of_map (fun _ => decodeAddress_error) h
  | addrEnc addr last => exact repliesWithin_of_map_one (fun _ => encodeAddress_error) h
  | addrParse text => exact repliesWithin_of_map_one (fun _ => parseAddress_error) h
  | addrFmt addr => exact repliesWithin_of_ok _ (guarded_next h)
  | addrSame a b => exact repliesWithin_of_ok _ (guarded_next h)
  | frmDec data time => exact repliesWithin_of_map (fun _ => decodeFrame_error) h
  | frmEnc format addresses control protocolId payload => exact repliesWithin_of_map (fun _ => encodeFrame_error) h
  | fragDec data =>
    exact repliesWithin_of_finish (fun e he => List.mem_singleton.mpr (decodeFragment_error he)) (guarded_next h)
  | fragEnc isFinal id data channel =>
    exact repliesWithin_of_map_one (fun _ => encodeFragment_error) h
  | fragPush frag =>
    obtain ⟨-, -, rfl⟩ := exec_push_next h
    exact .inl ⟨_, rfl⟩
  | rd16 => exact repliesWithin_of_map_one (fun _ => readBytes_error) h
  | rd24 => exact repliesWithin_of_map_one (fun _ => readBytes_error) h
  | rd32 => exact repliesWithin_of_map_one (fun _ => readBytes_error) h
  | wr16 => exact repliesWithin_of_map_one (fun _ => writeBytes_error) h
  | wr24 => exact repliesWithin_of_map_one (fun _ => writeBytes_error) h
  | wr32 => exact repliesWithin_of_map_one (fun _ => writeBytes_error) h
  | recDecCap => exact repliesWithin_of_recordDecode h
  | recDecStatus => exact repliesWithin_of_recordDecode h
  | recDecChan => exact repliesWithin_of_recordDecode h
  | recDecGlobal => exact repliesWithin_of_recordDecode h
  | recDecBss => exact repliesWithin_of_recordDecode h
  | recDecGps => exact repliesWithin_of_recordDecode h
  | recEncChan => exact repliesWithin_of_recordEncode h
  | recEncGlobal => exact repliesWithin_of_recordEncode h
  | recEncBss => exact repliesWithin_of_recordEncode h
  | geoDec data form => exact repliesWithin_of_map_one (fun _ => decodeGeo_error) h
  | geoEnc lat lon form =>
    exact repliesWithin_of_finish (fun e he => List.mem_singleton.mpr (encodeGeo_error (error_of_map he))) h

end Sys2Proof.Proofs
end

section
/-! SUPPORT. Record maps: equality by fields (44_records.md R228), a record that fits a layout (R216) or is canonical for
it (R217), and the map REC_DECODE returns (R214). -/

namespace Sys2Proof.Machine

theorem lookup_eq_none_iff_notMem {rec : RecordMap} {name : String} :
    rec.lookup name = none ↔ name ∉ rec.map Prod.fst := by
  rw [List.lookup_eq_none_iff]
  simp only [bne_iff_ne, List.mem_map]
  exact ⟨fun h ⟨p, hp, e⟩ => h p hp e.symm, fun h p hp e => h ⟨p, hp, e.symm⟩⟩

/-- Names that neither map holds are equal in both, so the names of either decide. -/
theorem sameMap_iff (a b : RecordMap) : sameMap a b = true ↔ ∀ name, a.lookup name = b.lookup name := by
  simp only [sameMap, List.all_eq_true, decide_eq_true_eq]
  refine ⟨fun h name => ?_, fun h p _ => h p.1⟩
  by_cases hname : name ∈ (a ++ b).map Prod.fst
  · obtain ⟨p, hp, rfl⟩ := List.mem_map.mp hname
    exact h p hp
  · rw [List.map_append, List.mem_append, not_or] at hname
    rw [lookup_eq_none_iff_notMem.mpr hname.1, lookup_eq_none_iff_notMem.mpr hname.2]

theorem sameRecord_iff (a b : DeviceRecord) :
    sameRecord a b = true ↔ a.kind = b.kind ∧ ∀ name : String, a.fields.lookup name = b.fields.lookup name := by
  rw [sameRecord, Bool.and_eq_true, decide_eq_true_eq, sameMap_iff]

theorem recordFits_iff (L : Layout) (rec : RecordMap) :
    recordFits L rec = true ↔ rec.length = L.fields.length ∧
      ∀ f ∈ L.fields, ∃ v, rec.lookup (fieldName f) = some v ∧ kindFits f v = true := by
  simp only [recordFits, Bool.and_eq_true, decide_eq_true_eq, List.all_eq_true]
  refine and_congr_right fun _ => forall₂_congr fun f _ => ?_
  cases rec.lookup (fieldName f) <;> simp

theorem recordCanonical_iff (L : Layout) (rec : RecordMap) :
    recordCanonical L rec = true ↔ recordFits L rec = true ∧
      ∀ f ∈ L.fields, ∃ v, rec.lookup (fieldName f) = some v ∧ valueCanonical f v = true := by
  simp only [recordCanonical, Bool.and_eq_true, List.all_eq_true]
  refine and_congr_right fun _ => forall₂_congr fun f _ => ?_
  cases rec.lookup (fieldName f) <;> simp

/-- A record that fits a layout holds the layout's names and no others (log entry 11). -/
theorem fieldNames_perm {L : Layout} {rec : RecordMap} (hnames : (L.fields.map fieldName).Nodup)
    (hfits : recordFits L rec = true) : (L.fields.map fieldName).Perm (rec.map Prod.fst) := by
  obtain ⟨hlen, hfields⟩ := (recordFits_iff L rec).mp hfits
  have hsub : L.fields.map fieldName ⊆ rec.map Prod.fst := by
    intro name hname
    obtain ⟨f, hf, rfl⟩ := List.mem_map.mp hname
    obtain ⟨v, hv, -⟩ := hfields f hf
    by_contra hnot
    rw [lookup_eq_none_iff_notMem.mpr hnot] at hv
    cases hv
  exact (List.subperm_of_subset hnames hsub).perm_of_length_le (by simp [hlen])

/-- With distinct names every field's value is found under its name. -/
theorem lookup_map_fieldName {fields : List Field} (value : Field → FieldValue) (hnames : (fields.map fieldName).Nodup)
    {f : Field} (hf : f ∈ fields) :
    (fields.map fun g => (fieldName g, value g)).lookup (fieldName f) = some (value f) := by
  induction fields with
  | nil => cases hf
  | cons g rest ih =>
    obtain ⟨hnot, hrest⟩ := List.nodup_cons.mp hnames
    rcases List.mem_cons.mp hf with rfl | hmem
    · simp
    · have hne : (fieldName f == fieldName g) = false :=
        beq_eq_false_iff_ne.mpr fun e => hnot (e ▸ List.mem_map_of_mem hmem)
      rw [List.map_cons, List.lookup_cons, hne]
      exact ih hrest hmem

theorem lookup_decFields {L : Layout} (data : Bytes) (hnames : (L.fields.map fieldName).Nodup) {f : Field}
    (hf : f ∈ L.fields) : (decFields L data).lookup (fieldName f) = some (decField data f) :=
  lookup_map_fieldName (decField data) hnames hf

theorem map_fst_decFields (L : Layout) (data : Bytes) : (decFields L data).map Prod.fst = L.fields.map fieldName := by
  simp [decFields]

/-! ### Decoded values -/

theorem kindFits_decField (data : Bytes) (f : Field) : kindFits f (decField data f) = true := by
  cases f <;> rfl

theorem length_rtrim_le (p : Byte → Bool) (b : Bytes) : (rtrim p b).length ≤ b.length := by
  obtain ⟨pad, hsplit, -, -⟩ := rtrim_split p b
  conv_rhs => rw [hsplit, List.length_append]
  exact Nat.le_add_right _ _

theorem rtrim_rtrim (p : Byte → Bool) (b : Bytes) : rtrim p (rtrim p b) = rtrim p b := by
  obtain ⟨pad, -, -, hlast⟩ := rtrim_split p b
  simpa using rtrim_append p (rtrim p b) [] (by simp) hlast

theorem length_memRead_le (b : Bytes) (off n : Nat) : (memRead b off n).length ≤ n := by
  simp [memRead]

/-- R217: what R213 gives is canonical. -/
theorem valueCanonical_decField (data : Bytes) (f : Field) : valueCanonical f (decField data f) = true := by
  cases f with
  | bool name byte bit => rfl
  | uint name off width shift mask => exact decide_eq_true Nat.and_le_right
  | str name off len trim =>
    have hlen := (length_rtrim_le (trims trim) (memRead data off len)).trans (length_memRead_le data off len)
    simp [valueCanonical, decField, hlen, rtrim_rtrim]
  | geo name off div => exact decide_eq_true rfl

theorem recordFits_decFields {L : Layout} (data : Bytes) (hnames : (L.fields.map fieldName).Nodup) :
    recordFits L (decFields L data) = true :=
  (recordFits_iff _ _).mpr ⟨by simp [decFields], fun f hf =>
    ⟨_, lookup_decFields data hnames hf, kindFits_decField data f⟩⟩

theorem recordCanonical_decFields {L : Layout} (data : Bytes) (hnames : (L.fields.map fieldName).Nodup) :
    recordCanonical L (decFields L data) = true :=
  (recordCanonical_iff _ _).mpr ⟨recordFits_decFields data hnames, fun f hf =>
    ⟨_, lookup_decFields data hnames hf, valueCanonical_decField data f⟩⟩

theorem exists_mem_of_mem_recordBuffers {rec : RecordMap} {b : Bytes} (h : b ∈ recordBuffers rec) :
    ∃ name, (name, FieldValue.str b) ∈ rec := by
  fun_induction recordBuffers rec with
  | case1 => cases h
  | case2 name c rest ih =>
    rcases List.mem_cons.mp h with rfl | hrest
    · exact ⟨name, List.mem_cons_self⟩
    · obtain ⟨name', hmem⟩ := ih hrest
      exact ⟨name', List.mem_cons_of_mem _ hmem⟩
  | case3 p rest _ ih =>
    obtain ⟨name', hmem⟩ := ih h
    exact ⟨name', List.mem_cons_of_mem _ hmem⟩

/-- A decoded string is no longer than the window it was cut from. -/
theorem length_le_of_mem_recordBuffers {L : Layout} {data b : Bytes} (h : b ∈ recordBuffers (decFields L data)) :
    b.length ≤ data.length := by
  obtain ⟨name, hmem⟩ := exists_mem_of_mem_recordBuffers h
  obtain ⟨f, -, hf⟩ := List.mem_map.mp hmem
  cases f with
  | str name off len trim =>
    cases hf
    refine (length_rtrim_le _ _).trans ?_
    simp [memRead]
  | _ => cases hf

end Sys2Proof.Machine
end

section
/-! SUPPORT. The loop of REC_ENCODE (44_records.md R216): its length, its frame, and what it stores, field after field. -/

namespace Sys2Proof.Machine

/-! ### Reading equal bits -/

theorem memRead_eq_of_bitOf_eq {a b : Bytes} {off n : Nat} (ha : off + n ≤ a.length) (hb : off + n ≤ b.length)
    (h : ∀ i j, off ≤ i → i < off + n → j < 8 → bitOf a i j = bitOf b i j) : memRead a off n = memRead b off n := by
  rw [memRead_eq_map ha, memRead_eq_map hb]
  refine List.map_congr_left fun k hk => BitVec.eq_of_getLsbD_eq fun j hj => ?_
  exact h (off + k) j (Nat.le_add_right off k) (Nat.add_lt_add_left (List.mem_range.mp hk) off) hj

theorem bitOf_eq_of_memRead_eq {a b : Bytes} {off n i j : Nat} (ha : off + n ≤ a.length) (hb : off + n ≤ b.length)
    (h : memRead a off n = memRead b off n) (hi : off ≤ i) (hn : i < off + n) : bitOf a i j = bitOf b i j := by
  have byte : byteAt a (off + (i - off)) = byteAt b (off + (i - off)) := by
    rw [← byteAt_memRead ha (by omega), h, byteAt_memRead hb (by omega)]
  rw [Nat.add_sub_cancel' hi] at byte
  exact congrArg (fun x : Byte => x.getLsbD j) byte

/-- Whether a value is stored depends on the field's own bits alone. -/
theorem fieldStored_of_bitOf_eq {minLen : Nat} {out out' : Bytes} {f : Field} {v : FieldValue}
    (hi : insideProp minLen f) (ho : minLen ≤ out.length) (ho' : minLen ≤ out'.length)
    (h : ∀ i j, ownsBit f i j → bitOf out' i j = bitOf out i j) (hs : fieldStored out f v) : fieldStored out' f v := by
  cases f with
  | bool name byte bit =>
    cases v with
    | bool b => exact (h byte bit.val ⟨rfl, rfl⟩).trans hs
    | _ => cases hs
  | uint name off width shift mask =>
    cases v with
    | uint n => exact fun m hm hmask => (h _ _ ⟨m, hm, hmask, rfl, rfl⟩).trans (hs m hm hmask)
    | _ => cases hs
  | str name off len trim =>
    cases v with
    | str b =>
      exact (memRead_eq_of_bitOf_eq (hi.trans ho') (hi.trans ho) fun i j h1 h2 hj => h i j ⟨h1, h2, hj⟩).trans hs
    | _ => cases hs
  | geo name off div =>
    cases v with
    | geo g =>
      obtain ⟨hword, -⟩ := hi
      exact (memRead_eq_of_bitOf_eq (hword.trans ho') (hword.trans ho) fun i j h1 h2 hj => h i j ⟨h1, h2, hj⟩).trans hs
    | _ => cases hs

/-! ### The loop -/

theorem encFields_of_some {rec : RecordMap} {f : Field} {v : FieldValue} (rest : List Field) (out : Bytes)
    (h : rec.lookup (fieldName f) = some v) :
    encFields rec (f :: rest) out = encFields rec rest (encField out f v) := by
  rw [encFields, h]

theorem encFields_of_none {rec : RecordMap} {f : Field} (rest : List Field) (out : Bytes)
    (h : rec.lookup (fieldName f) = none) : encFields rec (f :: rest) out = encFields rec rest out := by
  rw [encFields, h]

theorem length_encFields {minLen n : Nat} (rec : RecordMap) {fields : List Field} {out : Bytes}
    (hinside : ∀ f ∈ fields, insideProp minLen f) (hm : minLen ≤ n) (ho : out.length = n) :
    (encFields rec fields out).length = n := by
  induction fields generalizing out with
  | nil => exact ho
  | cons f rest ih =>
    obtain ⟨hf, hrest⟩ := List.forall_mem_cons.mp hinside
    cases hv : rec.lookup (fieldName f) with
    | none => rw [encFields_of_none rest out hv]; exact ih hrest ho
    | some v => rw [encFields_of_some rest out hv]; exact ih hrest (length_encField v hf hm ho)

/-- The loop changes no bit that none of its fields owns. -/
theorem encFields_frame {minLen n : Nat} (rec : RecordMap) {fields : List Field} {out : Bytes} {i j : Nat}
    (hinside : ∀ f ∈ fields, insideProp minLen f) (hm : minLen ≤ n) (ho : out.length = n)
    (hn : ∀ f ∈ fields, ¬ ownsBit f i j) : bitOf (encFields rec fields out) i j = bitOf out i j := by
  induction fields generalizing out with
  | nil => rfl
  | cons f rest ih =>
    obtain ⟨hf, hrest⟩ := List.forall_mem_cons.mp hinside
    obtain ⟨hnf, hnrest⟩ := List.forall_mem_cons.mp hn
    cases hv : rec.lookup (fieldName f) with
    | none => rw [encFields_of_none rest out hv, ih hrest ho hnrest]
    | some v =>
      rw [encFields_of_some rest out hv, ih hrest (length_encField v hf hm ho) hnrest, encField_frame v hf hm ho hnf]

/-- Each field finds its own bits still zero, and no later field changes them. -/
theorem encFields_stores {minLen n : Nat} {rec : RecordMap} {fields : List Field} {out : Bytes}
    (hinside : ∀ f ∈ fields, insideProp minLen f) (hm : minLen ≤ n) (ho : out.length = n)
    (hdisjoint : fields.Pairwise fun f g => ∀ i j, ¬ (ownsBit f i j ∧ ownsBit g i j))
    (hkinds : ∀ f ∈ fields, ∃ v, rec.lookup (fieldName f) = some v ∧ kindFits f v = true)
    (hzero : ∀ f ∈ fields, ∀ i j, ownsBit f i j → bitOf out i j = false) :
    ∀ f ∈ fields, ∀ v, rec.lookup (fieldName f) = some v → fieldStored (encFields rec fields out) f v := by
  induction fields generalizing out with
  | nil => nofun
  | cons f rest ih =>
    obtain ⟨hf, hrest⟩ := List.forall_mem_cons.mp hinside
    obtain ⟨hapart, hdisjoint⟩ := List.pairwise_cons.mp hdisjoint
    obtain ⟨⟨w, hw, hkind⟩, hkinds⟩ := List.forall_mem_cons.mp hkinds
    obtain ⟨hzf, hzero⟩ := List.forall_mem_cons.mp hzero
    have hlen := length_encField w hf hm ho
    rw [encFields_of_some rest out hw]
    rintro g hg v hv
    rcases List.mem_cons.mp hg with rfl | hmem
    · cases hw.symm.trans hv
      refine fieldStored_of_bitOf_eq hf (hlen.symm ▸ hm) ((length_encFields rec hrest hm hlen).symm ▸ hm) ?_
        (encField_stores hf hm ho hkind hzf)
      exact fun i j howns => encFields_frame rec hrest hm hlen fun f' hf' howns' => hapart f' hf' i j ⟨howns, howns'⟩
    · refine ih hrest hlen hdisjoint hkinds (fun g' hg' i j howns => ?_) g hmem v hv
      rw [encField_frame w hf hm ho fun hown => hapart g' hg' i j ⟨hown, howns⟩]
      exact hzero g' hg' i j howns

/-! ### REC_ENCODE under a well-formed layout -/

section
variable {L : Layout} {n : Nat} {rec : RecordMap} (hwf : layoutWf L = true) (hn : L.encLen = some n)
include hwf hn

theorem minLen_le_encLen : L.minLen ≤ n := by
  obtain ⟨-, -, henc⟩ := (layoutWf_iff L).mp hwf
  exact (henc n hn).1

theorem length_encodeRecord : (encodeRecord L n rec).length = n := by
  obtain ⟨-, hinside, -⟩ := (layoutWf_iff L).mp hwf
  exact length_encFields rec hinside (minLen_le_encLen hwf hn) (length_zeros n)

theorem bitOf_encodeRecord_of_unowned {i j : Nat} (h : ∀ f ∈ L.fields, ¬ ownsBit f i j) :
    bitOf (encodeRecord L n rec) i j = false := by
  obtain ⟨-, hinside, -⟩ := (layoutWf_iff L).mp hwf
  exact (encFields_frame rec hinside (minLen_le_encLen hwf hn) (length_zeros n) h).trans (bitOf_zeros n i j)

theorem fieldStored_encodeRecord (hfits : recordFits L rec = true) :
    ∀ f ∈ L.fields, ∀ v, rec.lookup (fieldName f) = some v → fieldStored (encodeRecord L n rec) f v := by
  obtain ⟨-, hinside, henc⟩ := (layoutWf_iff L).mp hwf
  obtain ⟨hm, hdisjoint, -⟩ := henc n hn
  obtain ⟨-, hkinds⟩ := (recordFits_iff L rec).mp hfits
  exact encFields_stores hinside hm (length_zeros n) hdisjoint hkinds fun _ _ i j _ => bitOf_zeros n i j

end

/-! ### Decoding what was encoded -/

theorem beBytes_three (v : Nat) :
    beBytes 3 v = [BitVec.ofNat 8 (v / 65536), BitVec.ofNat 8 (v / 256), BitVec.ofNat 8 v] := by
  simp [beBytes]

/-- A bit of an integer's mask, moved to its place, lies in the integer's word (R212). -/
theorem mask_bit_lt {minLen : Nat} {name : String} {off : Nat} {width : Width} {shift : Nat} {mask : U32} {k : Nat}
    (hi : insideProp minLen (.uint name off width shift mask)) (hk : mask.toNat.testBit k = true) :
    shift + k < 8 * widthBytes width := by
  obtain ⟨-, -, hmask⟩ := hi
  by_contra hge
  have hbit : (mask.toNat * 2 ^ shift).testBit (shift + k) = true := by
    rw [← Nat.shiftLeft_eq, Nat.testBit_shiftLeft]
    simp [hk]
  rw [Nat.testBit_lt_two_pow (hmask.trans_le (Nat.pow_le_pow_right (by decide) (Nat.le_of_not_lt hge)))] at hbit
  cases hbit

/-- R218 for one field: what was stored of a canonical value is read back as its encoding keeps it. -/
theorem decField_of_fieldStored {minLen : Nat} {out : Bytes} {f : Field} {v : FieldValue} (hi : insideProp minLen f)
    (ho : minLen ≤ out.length) (hpad : padsWithNul f = true) (hc : valueCanonical f v = true)
    (hs : fieldStored out f v) : decField out f = keptValue f v := by
  cases f with
  | bool name byte bit =>
    cases v with
    | bool b => exact congrArg FieldValue.bool hs
    | _ => cases hs
  | uint name off width shift mask =>
    cases v with
    | uint n =>
      have hword : off + widthBytes width ≤ out.length := hi.1.trans ho
      refine congrArg FieldValue.uint (Nat.eq_of_testBit_eq fun k => ?_)
      rw [Nat.testBit_and, Nat.testBit_and, Nat.testBit_shiftRight]
      cases hk : mask.toNat.testBit k with
      | false => simp
      | true =>
        have hlt := mask_bit_lt hi hk
        have hbit := hs (shift + k) hlt (by simp [Nat.testBit_shiftLeft, hk])
        rw [testBit_memRead hword hlt, hbit, Nat.testBit_shiftLeft]
        simp
    | _ => cases hs
  | str name off len trim =>
    cases v with
    | str b =>
      obtain ⟨hlen, htrim⟩ : b.length ≤ len ∧ rtrim (trims trim) b = b := by simpa [valueCanonical] using hc
      obtain ⟨-, -, -, hlast⟩ := rtrim_split (trims trim) b
      have hread : memRead out off len = b.take len ++ List.replicate (len - min len b.length) 0x00 := hs
      rw [List.take_of_length_le hlen] at hread
      rw [decField, hread, rtrim_append _ _ _ _ (htrim ▸ hlast)]
      · rfl
      · intro x hx
        rw [List.eq_of_mem_replicate hx]
        exact hpad
    | _ => cases hs
  | geo name off div =>
    cases v with
    | geo g =>
      have hread : memRead out off 3 = beBytes 3 g.raw.toNat := by rw [beBytes_three]; exact hs
      have hdiv : g.div = div := of_decide_eq_true hc
      have hvalue := geoAt_of_memRead div hread
      rw [← hdiv] at hvalue ⊢
      exact congrArg FieldValue.geo hvalue
    | _ => cases hs

end Sys2Proof.Machine
end

section
/-! SUPPORT. The record commands (44_records.md section 2) with and without a layout, and the laws of R218: what comes back
of an encoded record, and of an encoded window. -/

namespace Sys2Proof.Machine

/-! ### Record commands without a layout -/

theorem withLayout_of_none {s : State} {kind : RecordKind} (k : Layout → StepOutcome)
    (h : layoutOf s.config kind = none) : withLayout s kind k = .refused (.missingLayout kind) := by
  simp [withLayout, h]

theorem withLayout_of_illFormed {s : State} {kind : RecordKind} {L : Layout} (k : Layout → StepOutcome)
    (hL : layoutOf s.config kind = some L) (hwf : layoutWf L = false) :
    withLayout s kind k = .refused (.illFormedLayout kind) := by
  simp [withLayout, hL, hwf]

theorem withLayout_of_wellFormed {s : State} {kind : RecordKind} {L : Layout} (k : Layout → StepOutcome)
    (hL : layoutOf s.config kind = some L) (hwf : layoutWf L = true) : withLayout s kind k = k L := by
  simp [withLayout, hL, hwf]

/-- Every record command tests its operand's buffers, and then its record's layout. -/
theorem exec_recordCommand {data : Bytes} {rec : RecordMap} {p : RecordKind × Instr}
    (hp : p ∈ recordCommands data rec) (s : State) :
    ∃ bs k, (bs = [data] ∨ bs = recordBuffers rec) ∧ exec p.2 s = guarded s bs (withLayout s p.1 k) := by
  simp only [recordCommands, List.mem_cons, List.not_mem_nil, or_false] at hp
  rcases hp with rfl | rfl | rfl | rfl | rfl | rfl | rfl | rfl | rfl
  · exact ⟨_, _, .inl rfl, rfl⟩
  · exact ⟨_, _, .inl rfl, rfl⟩
  · exact ⟨_, _, .inl rfl, rfl⟩
  · exact ⟨_, _, .inl rfl, rfl⟩
  · exact ⟨_, _, .inl rfl, rfl⟩
  · exact ⟨_, _, .inl rfl, rfl⟩
  · exact ⟨_, _, .inr rfl, rfl⟩
  · exact ⟨_, _, .inr rfl, rfl⟩
  · exact ⟨_, _, .inr rfl, rfl⟩

theorem isRefused_guarded {s : State} (bs : List Bytes) {k : StepOutcome} (h : isRefused k = true) :
    isRefused (guarded s bs k) = true := by
  rcases guarded_cases s bs k with ⟨-, e⟩ | ⟨-, e⟩ <;> rw [e]
  · exact h
  · rfl

theorem recordEncode_of_no_encLen {kind : RecordKind} {s : State} {L : Layout} {rec : RecordMap}
    (hL : layoutOf s.config kind = some L) (hwf : layoutWf L = true) (hn : L.encLen = none)
    (hb : ∀ b ∈ recordBuffers rec, withinMax s.config b = true) :
    recordEncode kind rec s = .refused (.noEncodedLength kind) := by
  rw [recordEncode, guarded_of_fits hb, withLayout_of_wellFormed _ hL hwf, hn]

/-! ### Record commands under a well-formed layout -/

theorem recordEncode_of_layout {kind : RecordKind} {s : State} {L : Layout} {n : Nat} {rec : RecordMap}
    (hL : layoutOf s.config kind = some L) (hwf : layoutWf L = true) (hn : L.encLen = some n)
    (hfits : recordFits L rec = true) (hb : ∀ b ∈ recordBuffers rec, withinMax s.config b = true) :
    recordEncode kind rec s = .next (s.answer (.ok (.out (encodeRecord L n rec)))) := by
  rw [recordEncode, guarded_of_fits hb, withLayout_of_wellFormed _ hL hwf, hn]
  exact if_pos hfits

/-- A record that does not fit its layout is refused (R216, R258). -/
theorem recordEncode_of_not_fits {kind : RecordKind} {s : State} {L : Layout} {rec : RecordMap}
    (hL : layoutOf s.config kind = some L) (hfits : recordFits L rec = false) :
    isRefused (recordEncode kind rec s) = true := by
  obtain ⟨k, e, hk⟩ := recordEncode_eq_guarded kind rec s
  have hready : s.config.canEncode kind rec = false := by simp [Config.canEncode_eq, hL, hfits]
  rw [hready] at hk
  obtain ⟨r, rfl⟩ := hk
  rw [e]
  exact isRefused_guarded _ rfl

theorem recordDecode_of_window {kind : RecordKind} {s : State} {L : Layout} {data : Bytes}
    (hL : layoutOf s.config kind = some L) (hwf : layoutWf L = true) (hmax : withinMax s.config data = true)
    (hlen : L.minLen ≤ data.length) :
    recordDecode kind data s = .next (s.answer (.ok (.record { kind := kind, fields := decFields L data }))) := by
  rw [recordDecode_of_layout hL hwf hmax, decodeRecord_of_fits hlen]
  rfl

/-- Every opcode that stands for a record's `recordEncode` runs as R215 and R216 say. -/
theorem recEncRuns_of_exec_eq {kind : RecordKind} {op : Byte} {enc : RecordMap → Instr}
    (hdec : ∀ rec, decode { op := op, operands := .record { kind := kind, fields := rec } } = .instr (enc rec))
    (hexec : ∀ rec s, exec (enc rec) s = recordEncode kind rec s) : RecEncRuns kind op enc := by
  refine fun s L n rec => ⟨hdec rec, fun hL hwf hn => ⟨fun hfits hb => ?_, fun f hf hbad => ?_⟩⟩
  · refine ⟨encodeRecord L n rec, ?_, length_encodeRecord hwf hn, fun f hf => ?_,
      fun i j => bitOf_encodeRecord_of_unowned hwf hn⟩
    · rw [hexec, recordEncode_of_layout hL hwf hn hfits hb]
      rfl
    · obtain ⟨-, hkinds⟩ := (recordFits_iff L rec).mp hfits
      obtain ⟨v, hv, -⟩ := hkinds f hf
      exact ⟨v, hv, fieldStored_encodeRecord hwf hn hfits f hf v hv⟩
  · rw [hexec]
    refine recordEncode_of_not_fits hL (Bool.eq_false_iff.mpr fun hfits => ?_)
    obtain ⟨-, hkinds⟩ := (recordFits_iff L rec).mp hfits
    obtain ⟨v, hv, hkind⟩ := hkinds f hf
    rw [hbad v hv] at hkind
    cases hkind

/-! ### Decoding an encoded record -/

/-- An integer that lies inside its mask, and every other value, comes back whole. -/
theorem keptValue_of_insideMasks {L : Layout} {rec : RecordMap} {f : Field} {v : FieldValue}
    (hinside : insideMasks L rec) (hf : f ∈ L.fields) (hv : rec.lookup (fieldName f) = some v)
    (hc : valueCanonical f v = true) : keptValue f v = v := by
  cases f with
  | uint name off width shift mask =>
    cases v with
    | uint n =>
      have hle : n ≤ mask.toNat := of_decide_eq_true hc
      refine congrArg FieldValue.uint ?_
      rcases hinside name off width shift mask n hf hv with ⟨k, hk⟩ | hkept
      · rw [show mask.toNat = 2 ^ k - 1 by omega, Nat.and_two_pow_sub_one_eq_mod, Nat.mod_eq_of_lt (by omega)]
      · exact hkept
    | _ => rfl
  | _ => rfl

theorem lookup_decFields_encodeRecord {L : Layout} {n : Nat} {rec : RecordMap} (hwf : layoutWf L = true)
    (hn : L.encLen = some n) (hcanonical : recordCanonical L rec = true) {f : Field} (hf : f ∈ L.fields) {v : FieldValue}
    (hv : rec.lookup (fieldName f) = some v) :
    (decFields L (encodeRecord L n rec)).lookup (fieldName f) = some (keptValue f v) := by
  obtain ⟨hnames, hinside, henc⟩ := (layoutWf_iff L).mp hwf
  obtain ⟨hm, -, hpads⟩ := henc n hn
  obtain ⟨hfits, hvalues⟩ := (recordCanonical_iff L rec).mp hcanonical
  obtain ⟨w, hw, hc⟩ := hvalues f hf
  cases hv.symm.trans hw
  have hpad : padsWithNul f = true := List.all_eq_true.mp ((all_padsWithNul_iff L.fields).mpr hpads) f hf
  rw [lookup_decFields _ hnames hf, decField_of_fieldStored (hinside f hf) (by rwa [length_encodeRecord hwf hn]) hpad hc
    (fieldStored_encodeRecord hwf hn hfits f hf v hv)]

/-- The records are equal: each name is a field's, whose value comes back whole, or is in neither. -/
theorem sameRecord_decFields_encodeRecord {L : Layout} {n : Nat} {rec : RecordMap} (kind : RecordKind)
    (hwf : layoutWf L = true) (hn : L.encLen = some n) (hcanonical : recordCanonical L rec = true)
    (hmasks : insideMasks L rec) :
    sameRecord { kind := kind, fields := decFields L (encodeRecord L n rec) } { kind := kind, fields := rec } = true := by
  obtain ⟨hnames, -, -⟩ := (layoutWf_iff L).mp hwf
  obtain ⟨hfits, hvalues⟩ := (recordCanonical_iff L rec).mp hcanonical
  refine (sameRecord_iff _ _).mpr ⟨rfl, fun name => ?_⟩
  by_cases hname : name ∈ L.fields.map fieldName
  · obtain ⟨f, hf, rfl⟩ := List.mem_map.mp hname
    obtain ⟨v, hv, hc⟩ := hvalues f hf
    rw [lookup_decFields_encodeRecord hwf hn hcanonical hf hv, keptValue_of_insideMasks hmasks hf hv hc, hv]
  · have hnot : name ∉ rec.map Prod.fst := mt (fieldNames_perm hnames hfits).mem_iff.mpr hname
    rw [lookup_eq_none_iff_notMem.mpr hnot, lookup_eq_none_iff_notMem.mpr (by rwa [map_fst_decFields])]

/-- R218's first law for any pair of commands that stand for one record's encoder and decoder. -/
theorem recRoundTrips_of_exec_eq {kind : RecordKind} {enc : RecordMap → Instr} {dec : Bytes → Instr}
    (henc : ∀ rec s, exec (enc rec) s = recordEncode kind rec s)
    (hdec : ∀ data s, exec (dec data) s = recordDecode kind data s) : RecRoundTrips kind enc dec := by
  intro s L n rec hL hwf hn hcanonical hb
  obtain ⟨hfits, -⟩ := (recordCanonical_iff L rec).mp hcanonical
  refine ⟨encodeRecord L n rec, ?_, fun s' hL' hmax' => ⟨decFields L (encodeRecord L n rec), ?_,
    fun f hf v => lookup_decFields_encodeRecord hwf hn hcanonical hf,
    sameRecord_decFields_encodeRecord kind hwf hn hcanonical⟩⟩
  · rw [henc, recordEncode_of_layout hL hwf hn hfits hb]
    rfl
  · rw [hdec, recordDecode_of_window hL' hwf hmax' (by rw [length_encodeRecord hwf hn]; exact minLen_le_encLen hwf hn)]
    rfl

/-! ### Encoding a decoded window -/

/-- A decoded flag, integer or geo value goes back into the bits it was read from. -/
theorem bitOf_of_stored_decField {minLen : Nat} {out data : Bytes} {f : Field} {i j : Nat} (hi : insideProp minLen f)
    (ho : minLen ≤ out.length) (hd : minLen ≤ data.length) (hstr : ∀ name off len trim, f ≠ .str name off len trim)
    (hs : fieldStored out f (decField data f)) (howns : ownsBit f i j) : bitOf out i j = bitOf data i j := by
  cases f with
  | bool name byte bit =>
    obtain ⟨rfl, rfl⟩ := howns
    exact hs
  | uint name off width shift mask =>
    obtain ⟨m, hm, hmask, rfl, rfl⟩ := howns
    obtain ⟨hword, -, -⟩ := hi
    rw [hs m hm hmask, ← testBit_memRead (hword.trans hd) hm]
    rw [Nat.testBit_shiftLeft, Bool.and_eq_true, decide_eq_true_eq] at hmask
    obtain ⟨hshift, hbit⟩ := hmask
    rw [Nat.testBit_shiftLeft, Nat.testBit_and, Nat.testBit_shiftRight, hbit, Nat.add_sub_cancel' hshift]
    simp [hshift]
  | str name off len trim => exact absurd rfl (hstr name off len trim)
  | geo name off div =>
    obtain ⟨hword, -⟩ := hi
    obtain ⟨hlow, hhigh, -⟩ := howns
    have hread : memRead out off 3 = beBytes 3 (geoAt data off div).raw.toNat := by rw [beBytes_three]; exact hs
    rw [beBytes_geoAt div (hword.trans hd)] at hread
    exact bitOf_eq_of_memRead_eq (hword.trans ho) (hword.trans hd) hread hlow hhigh

/-- A decoded string goes back with 0x00 for every byte that was trimmed. -/
theorem memRead_of_stored_decField {minLen : Nat} {out data : Bytes} {name : String} {off len : Nat} {trim : TrimSet}
    (hi : insideProp minLen (.str name off len trim)) (hd : minLen ≤ data.length)
    (hs : fieldStored out (.str name off len trim) (decField data (.str name off len trim))) :
    ∃ p pad, memRead data off len = p ++ pad ∧ (∀ x ∈ pad, trims trim x = true) ∧
      (∀ x, p.getLast? = some x → trims trim x = false) ∧
      memRead out off len = p ++ List.replicate pad.length 0x00 := by
  obtain ⟨pad, hsplit, hpad, hlast⟩ := rtrim_split (trims trim) (memRead data off len)
  refine ⟨_, pad, hsplit, hpad, hlast, ?_⟩
  have hlen := length_memRead data off len (Nat.le_trans hi hd)
  rw [hsplit, List.length_append] at hlen
  have hread : memRead out off len = (rtrim (trims trim) (memRead data off len)).take len ++
      List.replicate (len - min len (rtrim (trims trim) (memRead data off len)).length) 0x00 := hs
  rw [hread, List.take_of_length_le (by omega), Nat.min_eq_right (by omega)]
  congr 2
  omega

/-- R218's second law, on the bits of one field: where every trimmed byte is 0x00 the field's bytes are the window's. -/
theorem bitOf_of_stored_decField_of_nul {minLen : Nat} {out data : Bytes} {f : Field} {i j : Nat}
    (hi : insideProp minLen f) (ho : minLen ≤ out.length) (hd : minLen ≤ data.length)
    (hs : fieldStored out f (decField data f))
    (hnul : ∀ name off len trim, f = .str name off len trim → ∀ p pad, memRead data off len = p ++ pad →
      (∀ x ∈ pad, trims trim x = true) → ∀ x ∈ pad, x = 0x00)
    (howns : ownsBit f i j) : bitOf out i j = bitOf data i j := by
  cases f with
  | str name off len trim =>
    obtain ⟨p, pad, hsplit, hpad, -, hread⟩ := memRead_of_stored_decField hi hd hs
    obtain ⟨hlow, hhigh, -⟩ := howns
    have hzero : pad = List.replicate pad.length 0x00 :=
      List.eq_replicate_iff.mpr ⟨rfl, hnul name off len trim rfl p pad hsplit hpad⟩
    rw [← hzero, ← hsplit] at hread
    exact bitOf_eq_of_memRead_eq (Nat.le_trans hi ho) (Nat.le_trans hi hd) hread hlow hhigh
  | bool => exact bitOf_of_stored_decField hi ho hd nofun hs howns
  | uint => exact bitOf_of_stored_decField hi ho hd nofun hs howns
  | geo => exact bitOf_of_stored_decField hi ho hd nofun hs howns

/-- R218's second law for any pair of commands that stand for one record's encoder and decoder. -/
theorem recReencodes_of_exec_eq {kind : RecordKind} {enc : RecordMap → Instr} {dec : Bytes → Instr}
    (henc : ∀ rec s, exec (enc rec) s = recordEncode kind rec s)
    (hdec : ∀ data s, exec (dec data) s = recordDecode kind data s) : RecReencodes kind enc dec := by
  intro s L n data hL hwf hn hd hmax
  obtain ⟨hnames, hinside, -⟩ := (layoutWf_iff L).mp hwf
  have hfits := recordFits_decFields data hnames
  have hlen : (encodeRecord L n (decFields L data)).length = n := length_encodeRecord hwf hn
  have ho : L.minLen ≤ (encodeRecord L n (decFields L data)).length := hlen.symm ▸ minLen_le_encLen hwf hn
  have hstored : ∀ f ∈ L.fields, fieldStored (encodeRecord L n (decFields L data)) f (decField data f) :=
    fun f hf => fieldStored_encodeRecord hwf hn hfits f hf _ (lookup_decFields data hnames hf)
  refine ⟨decFields L data, encodeRecord L n (decFields L data), ?_, ?_, hlen, ?_, ?_, ?_,
    fun i j => bitOf_encodeRecord_of_unowned hwf hn⟩
  · rw [hdec, recordDecode_of_window hL hwf hmax hd]
    rfl
  · rw [henc, recordEncode_of_layout hL hwf hn hfits fun b hb =>
      withinMax_of_length_le (length_le_of_mem_recordBuffers hb) hmax]
    rfl
  · exact fun f hf hstr i j => bitOf_of_stored_decField (hinside f hf) ho hd hstr (hstored f hf)
  · exact fun name off len trim hf => memRead_of_stored_decField (hinside _ hf) hd (hstored _ hf)
  · intro hnul f hf i j
    refine bitOf_of_stored_decField_of_nul (hinside f hf) ho hd (hstored f hf) ?_
    rintro name off len trim rfl
    exact hnul name off len trim hf

end Sys2Proof.Machine
end

section
/-! The obligations about record values, the record encoders and R218's laws. -/

namespace Sys2Proof.Proofs

open Sys2Proof.Machine Sys2Proof.Laws

/-- Settles O36: the three commands are one encoder under three layout parameters. -/
theorem recordEncodeStoresEveryField : Obligations.RecordEncodeStoresEveryField :=
  ⟨recEncRuns_of_exec_eq PortRoundTrip.recEncChan fun _ _ => rfl,
    recEncRuns_of_exec_eq PortRoundTrip.recEncGlobal fun _ _ => rfl,
    recEncRuns_of_exec_eq PortRoundTrip.recEncBss fun _ _ => rfl⟩

/-- Settles O37: each field's value is stored in its own bits, from which it is read back. -/
theorem canonicalRecordsRoundTrip : Obligations.CanonicalRecordsRoundTrip :=
  ⟨recRoundTrips_of_exec_eq (fun _ _ => rfl) fun _ _ => rfl, recRoundTrips_of_exec_eq (fun _ _ => rfl) fun _ _ => rfl,
    recRoundTrips_of_exec_eq (fun _ _ => rfl) fun _ _ => rfl⟩

/-- Settles O38: each field's value goes back into the bits it was read from, a string's padding as 0x00. -/
theorem reencodedWindowsKeepTheirOwnedBits : Obligations.ReencodedWindowsKeepTheirOwnedBits :=
  ⟨recReencodes_of_exec_eq (fun _ _ => rfl) fun _ _ => rfl, recReencodes_of_exec_eq (fun _ _ => rfl) fun _ _ => rfl,
    recReencodes_of_exec_eq (fun _ _ => rfl) fun _ _ => rfl⟩

/-- Settles O39: the value of every field is canonical, and the names are the layout's. -/
theorem decodedRecordsAreCanonical : Obligations.DecodedRecordsAreCanonical := by
  intro L data hwf hlen
  obtain ⟨hnames, -, -⟩ := (layoutWf_iff L).mp hwf
  exact ⟨_, decodeRecord_of_fits hlen, recordCanonical_decFields data hnames⟩

/-- Settles O40: a record command tests its buffers first, then that there is a layout, then the layout. -/
theorem recordCommandsNeedAWellFormedLayout : Obligations.RecordCommandsNeedAWellFormedLayout := by
  intro s data rec
  refine ⟨fun p hp hnone => ?_, fun hmax hb => ⟨fun p hp => ?_, fun p hp L hL hwf hn => ?_⟩⟩
  · obtain ⟨bs, k, -, e⟩ := exec_recordCommand hp s
    rw [e, withLayout_of_none k hnone]
    exact isRefused_guarded bs rfl
  · obtain ⟨bs, k, hbs, e⟩ := exec_recordCommand hp s
    have hfit : ∀ b ∈ bs, withinMax s.config b = true := by
      rcases hbs with rfl | rfl
      · simpa using hmax
      · exact hb
    rw [e, guarded_of_fits hfit]
    exact ⟨withLayout_of_none k, fun L => withLayout_of_illFormed k⟩
  · simp only [List.mem_cons, List.not_mem_nil, or_false] at hp
    rcases hp with rfl | rfl | rfl
    · exact recordEncode_of_no_encLen hL hwf hn hb
    · exact recordEncode_of_no_encLen hL hwf hn hb
    · exact recordEncode_of_no_encLen hL hwf hn hb

/-- Settles O41: the names of either map decide. -/
theorem recordsAreEqualByTypeAndField : Obligations.RecordsAreEqualByTypeAndField := sameRecord_iff

/-- Settles O55: latitude and longitude are fields of the layout like any others. -/
theorem gpsRecordHoldsItsPosition : Obligations.GpsRecordHoldsItsPosition := by
  intro s l data hl hwf hmax hlen
  have hL : layoutOf s.config .gps = some (gpsLayout l) := by simp [layoutOf, hl]
  obtain ⟨hnames, hinside, -⟩ := (layoutWf_iff (gpsLayout l)).mp hwf
  obtain ⟨hlat, -⟩ := hinside _ (latitude_mem l)
  obtain ⟨hlon, -⟩ := hinside _ (longitude_mem l)
  exact ⟨decFields (gpsLayout l) data, geoAt data l.latitude.off 30000, geoAt data l.longitude.off 30000,
    recordDecode_of_window hL hwf hmax hlen, lookup_decFields data hnames (latitude_mem l),
    lookup_decFields data hnames (longitude_mem l), rfl, rfl, geoSigned_geoAt _ (hlat.trans hlen),
    geoSigned_geoAt _ (hlon.trans hlen)⟩

end Sys2Proof.Proofs
end
